-- ==== Sys2Proof/Word.lean ====
section
/-! DEFINITION. The widths of the machine's words (spec/00_scope.md R8, spec/10_state.md R13). -/

namespace Sys2Proof

/-- A byte: of a stream, of a section, of a name (R8). -/
abbrev Byte := BitVec 8

/-- A `u16` value: NAME_LEN, ADDR, EXEC and the wire's 16-bit fields (R8, R13). -/
abbrev Half := BitVec 16

/-- A `u32` value: a register's word, a command word, a 32-bit counter (R8, R13, R17). -/
abbrev Word := BitVec 32

end Sys2Proof
end

