-- ==== Sys2Proof/Config.lean ====
section
/-! DEFINITION. The constants the spec fixes (spec/00_scope.md R6) and the open parameters of the neighbour blocks
(spec/48_downstream_consumers.md R90-R96). STORE_CAPACITY_BYTES (R7) is the field `capacity` of the machine's State: log 2. -/

namespace Sys2Proof.Config

/-- NAME_BYTES (R6). -/
abbrev nameBytes : Nat := 8
/-- NAME_PAD, the ASCII space (R6, I1). -/
abbrev namePad : Byte := 0x20#8
/-- SYNC_BYTE (R6). -/
abbrev syncByte : Byte := 0xE6#8
/-- SYNC_COUNT: the sync bytes the encoder emits for a section (R6). -/
abbrev syncCount : Nat := 16
/-- SOH_BYTE, start of header (R6). -/
abbrev sohByte : Byte := 0x01#8
/-- HDR_BODY_BYTES (R6). -/
abbrev hdrBodyBytes : Nat := 14
/-- HDR_REGION_BYTES: header body and header checksum (R6; conflict C2, decision D10). -/
abbrev hdrRegionBytes : Nat := 15
/-- PAYLOAD_MAX (R6). -/
abbrev payloadMax : Nat := 256
/-- CHUNK_BYTES: the size of a data section in chunking and the address step (R6). -/
abbrev chunkBytes : Nat := 256
/-- The largest value of `STORE_CAPACITY_BYTES`, and the value `sat32` saturates at (R7, R8). -/
abbrev maxU32 : Nat := 0xFFFFFFFF

/-- START_TEXT: the 13 ASCII bytes of `LOADING START` (R6, D13; codes of I1). -/
def startText : List Byte :=
  [0x4C#8, 0x4F#8, 0x41#8, 0x44#8, 0x49#8, 0x4E#8, 0x47#8, 0x20#8, 0x53#8, 0x54#8, 0x41#8, 0x52#8, 0x54#8]

/-- END_TEXT: the 11 ASCII bytes of `LOADING END` (R6, D13; codes of I1). -/
def endText : List Byte :=
  [0x4C#8, 0x4F#8, 0x41#8, 0x44#8, 0x49#8, 0x4E#8, 0x47#8, 0x20#8, 0x45#8, 0x4E#8, 0x44#8]

/-- A 16-bit signed magnitude: `+a` and `-a` are both 16-bit signed samples, so 0..32767 (R92, R93; DEDUCED, log 14). -/
abbrev Amplitude : Type := Fin 32768

/-- The modulator's variant, "by caller configuration `{byte, poly}`" (R90). -/
inductive Variant where
  | byte
  | poly
  deriving DecidableEq, Repr

/-- The configuration and the open parameters of the audio modulator (R90, R92, R93; I7, I9, I10; logs 12, 15). -/
structure ModulatorParams where
  variant : Variant
  /-- samples a second (R90, I10) -/
  sampleRate : Nat := 48000
  sampleRate_pos : 0 < sampleRate := by decide
  /-- `TONE_AMPLITUDE` (R92) -/
  toneAmplitude : Amplitude
  /-- the starting phase, in radians (R92; log 15) -/
  tonePhase : Real
  /-- the rounding of a value to a 16-bit integer (R92; log 15) -/
  rounding : Real → Half
  /-- the amplitude of the square blocks (R93; log 14) -/
  polyAmplitude : Amplitude
  /-- POLY_PREAMBLE_REPS (R93) -/
  polyPreambleReps : Nat := 1200

/-- The configuration of the paced transmitter (R96; I10, I11; log 16). -/
structure Transmitter where
  /-- bits a second (R96, I10) -/
  baud : Nat := 300
  baud_pos : 0 < baud := by decide
  /-- `read_timeout`, in seconds (R96, I11; log 16) -/
  readTimeout : Rat
  /-- `write_timeout`, in seconds (R96, I11; log 16) -/
  writeTimeout : Rat
  deriving DecidableEq, Repr

end Sys2Proof.Config
end

