-- ==== Sys2Proof/Syntax.lean ====
section
/-! DEFINITION. The command set: one constructor for each of the 13 rows of spec/opcode_table.json (spec/30_encoding.md R49).
A command carries no operand besides the TYPE and X fields that its row fixes (R50): addresses, the name, the selected
section and the byte data are read from registers and from the IN stream. -/

namespace Sys2Proof

inductive Instr where
  /-- SET_NAME (R63) -/
  | setName
  /-- CLEAR (R68) -/
  | clear
  /-- APPEND_SECTION.DATA, TYPE = 0 (R67) -/
  | appendData
  /-- APPEND_SECTION.COMMENT, TYPE = 1 (R67) -/
  | appendComment
  /-- APPEND_SECTION.END, TYPE = 2 (R67) -/
  | appendEnd
  /-- APPEND_SECTION.EXEC, TYPE = 3 (R67) -/
  | appendExec
  /-- FROM_BINARY, X = 0: End terminator (R73) -/
  | fromBinary
  /-- FROM_BINARY.X, X = 1: Exec terminator (R73) -/
  | fromBinaryX
  /-- TO_BYTES (R74) -/
  | toBytes
  /-- DECODE (R79) -/
  | decode
  /-- VERIFY (R83) -/
  | verify
  /-- CHECKSUM (R61) -/
  | checksum
  /-- CLR_ERR (R86) -/
  | clrErr
  deriving DecidableEq, Repr

end Sys2Proof
end

