-- ==== Sys2Proof/WellFormed.lean ====
section
/-! DEFINITION. Which command words are legal (spec/30_encoding.md R48, R51), said of a word's fields. No constructor of
Instr has an operand, so what can be ill formed is a word, not an instruction. -/

namespace Sys2Proof

/-- The four fields of a command word (R48): OP is bits 7:0, TYPE 9:8, X bit 10, `high` bits 31:11. -/
structure CmdFields where
  op : Byte
  type : BitVec 2
  x : Bool
  high : BitVec 21
  deriving DecidableEq, Repr

namespace CmdFields

/-- OP is one of 0x01..0x09 (R51). -/
def opLegal (f : CmdFields) : Bool := 1 ≤ f.op.toNat && f.op.toNat ≤ 9
/-- TYPE is 0 unless OP = 0x03 (R51). -/
def typeLegal (f : CmdFields) : Bool := f.type == 0 || f.op == 3
/-- X is 0 unless OP = 0x04 (R51). -/
def xLegal (f : CmdFields) : Bool := !f.x || f.op == 4
/-- Bits 31:11 are 0 (R51). -/
def highLegal (f : CmdFields) : Bool := f.high == 0

/-- "A command word is legal when its OP is one of 0x01..0x09, its TYPE field is 0 unless OP = 0x03, its X bit is 0
unless OP = 0x04, and its bits 31:11 are 0." (R51) -/
def legal (f : CmdFields) : Bool := f.opLegal && f.typeLegal && f.xLegal && f.highLegal

end CmdFields

/-- The fields each row of the opcode table fixes (opcode_table.json, "source_fields"; R49, R54). -/
def Instr.fields : Instr → CmdFields
  | .setName       => ⟨0x01, 0, false, 0⟩
  | .clear         => ⟨0x02, 0, false, 0⟩
  | .appendData    => ⟨0x03, 0, false, 0⟩
  | .appendComment => ⟨0x03, 1, false, 0⟩
  | .appendEnd     => ⟨0x03, 2, false, 0⟩
  | .appendExec    => ⟨0x03, 3, false, 0⟩
  | .fromBinary    => ⟨0x04, 0, false, 0⟩
  | .fromBinaryX   => ⟨0x04, 0, true, 0⟩
  | .toBytes       => ⟨0x05, 0, false, 0⟩
  | .decode        => ⟨0x06, 0, false, 0⟩
  | .verify        => ⟨0x07, 0, false, 0⟩
  | .checksum      => ⟨0x08, 0, false, 0⟩
  | .clrErr        => ⟨0x09, 0, false, 0⟩

/-- An instruction is well formed when its row's fields are legal. -/
def Instr.wf (i : Instr) : Bool := i.fields.legal

end Sys2Proof
end

