-- ==== Sys2Proof/Decode.lean ====
section
/-! DEFINITION. The decoder of command words, total and rejecting by name, and the encoder (spec/30_encoding.md R48-R51,
spec/opcode_table.json). A command is one 32-bit word written to CMD; there is no instruction memory, so a word has no byte
layout to choose (spec/20_memory.md R46). -/

namespace Sys2Proof

/-- Why a word is no legal command (R51, I13). The machine reports all four as IllegalCommand. -/
inductive DecodeError where
  /-- bits 31:11 are not 0 -/
  | reservedBitsSet
  /-- TYPE is not 0 and OP is not 0x03 -/
  | typeNotZero
  /-- X is 1 and OP is not 0x04 -/
  | execFlagSet
  /-- OP is 0x00 or 0x0A..0xFF -/
  | reservedOpcode
  deriving DecidableEq, Repr

/-- The fields of a command word (R48). -/
def fieldsOf (w : Word) : CmdFields :=
  { op := w.extractLsb' 0 8, type := w.extractLsb' 8 2, x := w.getLsbD 10, high := w.extractLsb' 11 21 }

/-- The instruction an opcode names, once TYPE, X and the high bits have been checked (R49, R50). -/
def instrOfOp (op : Nat) (type : Nat) (x : Bool) : Option Instr :=
  match op with
  | 1 => some .setName
  | 2 => some .clear
  | 3 => match type with
    | 0 => some .appendData
    | 1 => some .appendComment
    | 2 => some .appendEnd
    | _ => some .appendExec
  | 4 => if x then some .fromBinaryX else some .fromBinary
  | 5 => some .toBytes
  | 6 => some .decode
  | 7 => some .verify
  | 8 => some .checksum
  | 9 => some .clrErr
  | _ => none

/-- The command a word stands for, or why it stands for none (R48, R49, R51). -/
def decode (w : Word) : Except DecodeError Instr :=
  let f := fieldsOf w
  if f.high ≠ 0 then .error .reservedBitsSet
  else if f.type ≠ 0 ∧ f.op ≠ 3 then .error .typeNotZero
  else if f.x = true ∧ f.op ≠ 4 then .error .execFlagSet
  else match instrOfOp f.op.toNat f.type.toNat f.x with
    | some i => .ok i
    | none => .error .reservedOpcode

/-- A command word from its fields (R48). -/
def packWord (op : Byte) (type : BitVec 2) (x : Bool) : Word :=
  (0#21 ++ BitVec.ofBool x ++ type ++ op)

/-- The word of an instruction (R48, R49, R52). -/
def encode : Instr → Word
  | .setName       => packWord 0x01 0 false
  | .clear         => packWord 0x02 0 false
  | .appendData    => packWord 0x03 0 false
  | .appendComment => packWord 0x03 1 false
  | .appendEnd     => packWord 0x03 2 false
  | .appendExec    => packWord 0x03 3 false
  | .fromBinary    => packWord 0x04 0 false
  | .fromBinaryX   => packWord 0x04 0 true
  | .toBytes       => packWord 0x05 0 false
  | .decode        => packWord 0x06 0 false
  | .verify        => packWord 0x07 0 false
  | .checksum      => packWord 0x08 0 false
  | .clrErr        => packWord 0x09 0 false

/-- A word of the opcode table's numbering as a command word: its low `nbits` bits, zero above them. -/
def tableWord (nbits w : Nat) : Word := BitVec.ofNat 32 (w % 2 ^ nbits)

/-- What the decoder reads from a word numbered as spec/opcode_table.json numbers it. -/
def decodeTableWord (nbits w : Nat) : Option Instr := (decode (tableWord nbits w)).toOption

end Sys2Proof
end

