-- ==== Sys2Proof/Machine/State.lean ====
section
/-! DEFINITION. The machine's state as plain data: the block's record of spec/10_state.md R13, field by field, and beside it the
port record, the parameter and the host's side of the interface (logs 1 to 5). -/

namespace Sys2Proof.Machine

/-- Exactly 8 bytes, `b0` the byte at index 0: `name` and `name_buf` (R13, R16, R21). -/
structure Bytes8 where
  b0 : Byte
  b1 : Byte
  b2 : Byte
  b3 : Byte
  b4 : Byte
  b5 : Byte
  b6 : Byte
  b7 : Byte
  deriving DecidableEq, Repr

/-- The section types (R54). -/
inductive SectionType where
  | data
  | comment
  | end_
  | exec
  deriving DecidableEq, Repr

/-- A Section of the store: its bytes as they stand on the tape, the sync bytes at its start, its payload bytes (R14). -/
structure Section where
  wire : List Byte
  syncLen : Nat
  payLen : Nat
  deriving DecidableEq, Repr

/-- One beat of the OUT port: a byte with its section-start and section-end flags (R31). -/
structure Beat where
  data : Byte
  sos : Bool
  eos : Bool
  deriving DecidableEq, Repr

/-- What the IN port presents to one command: a finite byte sequence, then end of stream or a read failure (R29). -/
structure InStream where
  bytes : List Byte
  fails : Bool
  deriving DecidableEq, Repr

/-- The errors a command raises (R99). -/
inductive CmdError where
  | nameTooLong
  | truncatedSection
  | sinkWriteFailure
  | sourceReadFailure
  | badFraming
  | nameNotSet
  | payloadTooLong
  | illegalCommand
  | badSelect
  | storeOverflow
  deriving DecidableEq, Repr

/-- The named registers of the register map (R17). -/
inductive Reg where
  | cmd
  | status
  | err
  | errOffset
  | nameLen
  | nameBuf0
  | nameBuf1
  | name0
  | name1
  | addr
  | exec
  | sectionCount
  | storeBytes
  | inCount
  | ck
  | secSel
  | secInfo0
  | secInfo1
  | secInfo2
  | secWireLen
  | verify
  deriving DecidableEq, Repr

/-- One thing the host does to the block: a register access, given by its byte offset and its width in bits (R38), or the RST
input (R111). A write to CMD carries the inputs of the command's step: the IN stream, and the indices of the beats that the
sink refuses (R29; log 3). -/
inductive HostAccess where
  | read (off width : Nat)
  | write (off width : Nat) (w : Word) (inp : InStream) (sinkRefuses : List Nat)
  | rst
  deriving DecidableEq, Repr

/-- The block's state: the record of R13, with its widths. -/
structure Block where
  /-- NAME: the committed program name, already padded (R16) -/
  name : Bytes8
  /-- STATUS.NAME_SET -/
  nameSet : Bool
  /-- NAME_LEN register -/
  nameLen : Half
  /-- NAME_BUF0, NAME_BUF1 registers -/
  nameBuf : Bytes8
  /-- ADDR register -/
  addr : Half
  /-- EXEC register -/
  execAddr : Half
  /-- SEC_SEL register -/
  secSel : Word
  /-- the section store, in append order (R15) -/
  store : List Section
  /-- STATUS.BUSY -/
  busy : Bool
  /-- STATUS.DONE -/
  done : Bool
  /-- STATUS.ERR -/
  err : Bool
  /-- ERR.CODE -/
  errCode : Byte
  /-- ERR.OP -/
  errOp : Byte
  /-- ERR_OFFSET -/
  errOffset : Word
  /-- IN_COUNT -/
  inCount : Word
  /-- CK.VALUE -/
  ckValue : Byte
  /-- CK.EMPTY -/
  ckEmpty : Bool
  /-- VERIFY.HDR_OK -/
  verHdrOk : Bool
  /-- VERIFY.PAY_OK -/
  verPayOk : Bool
  /-- VERIFY.VALID -/
  verValid : Bool
  deriving DecidableEq, Repr

/-- The state of the model: the block's state (R13), and beside it what the spec keeps outside the block. -/
structure State where
  /-- the block's state (R13) -/
  blk : Block
  /-- STORE_CAPACITY_BYTES, the open parameter of R7; no step changes it (log 2) -/
  capacity : Nat
  /-- the record of beats the OUT sink has accepted, oldest first (R13, R32; log 4) -/
  out : List Beat
  /-- the words the host's register reads have returned, oldest first (R38; log 5) -/
  reads : List Word
  /-- the IN stream presented with the latest CMD write (R29; log 3) -/
  inp : InStream
  /-- the indices of the beats the sink refuses in the command of the latest CMD write (R29, R32; log 3) -/
  sinkRefuses : List Nat
  /-- the accesses the host has still to make, the next one first (R43; log 1) -/
  accesses : List HostAccess
  deriving DecidableEq, Repr

/-- The machine never stops with a fault: every error of the spec is an abort, which is a next state (R99, R103; log 7). -/
inductive Fault where
  deriving DecidableEq, Repr

/-- Why a step is refused. -/
inductive Refusal where
  /-- an instruction whose meaning has not been written; raised by exec alone; safe -/
  | notModelled (mnemonic : String)
  /-- raised by a host access at an offset that is not a multiple of 4: not admitted (R38, I15); safe -/
  | misalignedAccess (off : Nat)
  /-- raised by a host access at an offset above 0xFF: not admitted (R38, I15); safe -/
  | offsetOutOfRange (off : Nat)
  /-- raised by a host access of a width other than 32 bits: not admitted (R38, I15); safe -/
  | widthNotWord (width : Nat)
  deriving DecidableEq, Repr

/-- Eight bytes of 0x00 (R111). -/
abbrev Bytes8.zero : Bytes8 := ⟨0, 0, 0, 0, 0, 0, 0, 0⟩

/-- The block right after RST: the empty store, 8 bytes of 0x00 in `name` and `name_buf`, and every other element 0 (R111). -/
def Block.reset : Block :=
  { name := Bytes8.zero, nameSet := false, nameLen := 0, nameBuf := Bytes8.zero, addr := 0, execAddr := 0, secSel := 0,
    store := [], busy := false, done := false, err := false, errCode := 0, errOp := 0, errOffset := 0, inCount := 0,
    ckValue := 0, ckEmpty := false, verHdrOk := false, verPayOk := false, verValid := false }

/-- An IN stream with no bytes: what a command with no IN clause reads (R52). -/
abbrev InStream.empty : InStream := ⟨[], false⟩

/-- The machine right after reset: the block of R111, no beat accepted, nothing read, no host access placed. The capacity
is the one the spec's vectors use (spec/95_test_vectors.md; DESIGN CHOICE, log 2). -/
def State.reset : State :=
  { blk := Block.reset, capacity := Config.maxU32, out := [], reads := [], inp := InStream.empty, sinkRefuses := [],
    accesses := [] }

end Sys2Proof.Machine
end

