-- ==== Sys2Proof/Machine/Ops.lean ====
section
/-! DEFINITION. The operations every command shares: arithmetic on byte sequences, the named updates of the block, the ports,
the command frame, `finish` and `raise` (spec/44_control.md R84, R85; spec/60_exceptions.md R99-R103; spec/10_state.md R30, R32). -/

namespace Sys2Proof.Machine

/-! ### Numbers and byte sequences (R8, R9, R58) -/

/-- `sat32(v) = min(v, 0xFFFFFFFF)` (R8). -/
def sat32 (v : Nat) : Word := BitVec.ofNat 32 (min v Config.maxU32)

/-- `sum(s)`, the integer sum of the bytes of `s` (R9). -/
def sumBytes (s : List Byte) : Nat := (s.map BitVec.toNat).sum

/-- `checksum(s)`: no byte for the empty sequence, else the byte that makes the sum 0 modulo 256 (R58). -/
def checksum (s : List Byte) : List Byte :=
  if s.length = 0 then [] else [BitVec.ofNat 8 ((256 - sumBytes s % 256) % 256)]

/-- `total(store)`, the wire bytes the store holds (R15). -/
def total (store : List Section) : Nat := (store.map fun s => s.wire.length).sum

/-! ### Error codes (R99) -/

/-- The code of an error (R99). -/
def CmdError.code : CmdError → Byte
  | .nameTooLong       => 1
  | .truncatedSection  => 2
  | .sinkWriteFailure  => 3
  | .sourceReadFailure => 4
  | .badFraming        => 5
  | .nameNotSet        => 6
  | .payloadTooLong    => 7
  | .illegalCommand    => 8
  | .badSelect         => 9
  | .storeOverflow     => 10

/-- The OP field of a command word, which ERR.OP records (R48, R100). -/
def opField (w : Word) : Byte := w.extractLsb' 0 8

/-! ### Named updates of the block: the assignments the command bodies make -/

/-- `busy <- 1; done <- 0; in_count <- 0`: a command starts (R84). -/
def Block.start (b : Block) : Block := { b with busy := true, done := false, inCount := 0 }

/-- `done <- 1; busy <- 0`: a command ends with success (R85). -/
def Block.finish (b : Block) : Block := { b with done := true, busy := false }

/-- What `raise` leaves in the block, given the snapshot `b`, the kept IN_COUNT, the error, the failing OP and the offset (R103). -/
def Block.abort (b : Block) (inCount : Word) (e : CmdError) (op : Byte) (off : Nat) : Block :=
  { b with inCount := inCount, err := true, errCode := e.code, errOp := op, errOffset := sat32 off, done := false, busy := false }

/-- `in_count <- sat32(n)` (R30). -/
def Block.countInput (b : Block) (n : Nat) : Block := { b with inCount := sat32 n }

/-- `store <- S; ver_valid <- 0`: the store changes (R28, R67, R68, R73, R79). -/
def Block.setStore (b : Block) (S : List Section) : Block := { b with store := S, verValid := false }

/-- `name <- n8; name_set <- 1` (R63, R73). -/
def Block.commitName (b : Block) (n8 : Bytes8) : Block := { b with name := n8, nameSet := true }

/-- CK takes a checksum of no byte or one (R61). -/
def Block.latchChecksum (b : Block) (c : List Byte) : Block :=
  match c with
  | [] => { b with ckEmpty := true, ckValue := 0 }
  | v :: _ => { b with ckEmpty := false, ckValue := v }

/-- VERIFY takes the result of the two checks (R83). -/
def Block.latchVerify (b : Block) (hdrOk payOk : Bool) : Block :=
  { b with verHdrOk := hdrOk, verPayOk := payOk, verValid := true }

/-- `err <- 0; err_code <- 0; err_op <- 0; err_offset <- 0` (R86). -/
def Block.clearError (b : Block) : Block := { b with err := false, errCode := 0, errOp := 0, errOffset := 0 }

/-! ### Updates of the state around the block -/

/-- The same state with another block. -/
def State.withBlk (s : State) (b : Block) : State := { s with blk := b }

/-- A beat the sink accepts joins the port record; it cannot be taken back (R32). -/
def State.pushBeat (s : State) (b : Beat) : State := { s with out := s.out ++ [b] }

/-- A host register read returns the word `w` (R38; log 5). -/
def State.recordRead (s : State) (w : Word) : State := { s with reads := s.reads ++ [w] }

/-- The inputs of a command's step are presented with its CMD write (R29; log 3). -/
def State.present (s : State) (inp : InStream) (sinkRefuses : List Nat) : State :=
  { s with inp := inp, sinkRefuses := sinkRefuses }

/-- The host has made its next access (R43; log 1). -/
def State.dropAccess (s : State) : State := { s with accesses := s.accesses.tail }

/-- `sink_ok(k)`: the sink accepts the k-th beat the command offers (R29; log 3). -/
def State.sinkOk (s : State) (k : Nat) : Bool := !s.sinkRefuses.contains k

/-! ### Command bodies: how they end, and the ports they use -/

/-- How the body of a command ends: by `finish`, or by `raise E(off)`, each at the state reached there (R84, R85, R103). -/
inductive BodyResult where
  | finished (s : State)
  | aborted (e : CmdError) (off : Nat) (s : State)
  deriving DecidableEq, Repr

/-- `ReadInput()`, then the rest of the body with the bytes read (R30). -/
def readInput (s : State) (rest : List Byte → State → BodyResult) : BodyResult :=
  let s1 := s.withBlk (s.blk.countInput s.inp.bytes.length)
  if s.inp.fails then .aborted .sourceReadFailure s.inp.bytes.length s1 else rest s.inp.bytes s1

/-- `OutWrite(k, beat)` for each beat in order, from beat number `k` on; the first refused beat raises SinkWriteFailure (R32, R74). -/
def outWriteAll (k : Nat) (beats : List Beat) (s : State) : BodyResult :=
  match beats with
  | [] => .finished s
  | b :: rest => if s.sinkOk k then outWriteAll (k + 1) rest (s.pushBeat b) else .aborted .sinkWriteFailure k s

/-- The store becomes `S` unless that exceeds the capacity (R101; R67, R73, R79); `andThen` is the rest of the body's update. -/
def replaceStore (s : State) (S : List Section) (andThen : Block → Block) : BodyResult :=
  if total S > s.capacity then .aborted .storeOverflow 0 s
  else .finished (s.withBlk (andThen (s.blk.setStore S)))

/-! ### Taking an error and the command frame -/

/-- `raise E(off)` for the command word `w`: back to the snapshot, keeping IN_COUNT and the accepted beats of the state `t`
the body had reached, and the error latched (R103). -/
def raiseError (w : Word) (snapshot : State) (e : CmdError) (off : Nat) (t : State) : State :=
  { snapshot with out := t.out, blk := snapshot.blk.abort t.blk.inCount e (opField w) off }

/-- The end of a command: `finish` (R85) or `raise` (R103). -/
def endCommand (w : Word) (snapshot : State) : BodyResult → State
  | .finished t => t.withBlk t.blk.finish
  | .aborted e off t => raiseError w snapshot e off t

/-- The one word the error gate lets through (R84, R86). -/
def clrErrWord : Word := 0x00000009#32

/-- The command frame around a body, for the command word `w` (R84): a busy block ignores the write, a latched error drops
every word but CLR_ERR, and otherwise the body runs from the started state and ends by `finish` or `raise`. -/
def commandFrame (w : Word) (body : State → BodyResult) (s : State) : Host.Outcome State Fault Refusal :=
  if s.blk.busy = true then .next s
  else if s.blk.err = true ∧ w ≠ clrErrWord then .next s
  else .next (endCommand w s (body (s.withBlk s.blk.start)))

end Sys2Proof.Machine
end

