-- ==== Sys2Proof/Machine/Operands.lean ====
section
/-! DEFINITION. The operand forms: byte order on the wire and in registers (spec/20_memory.md R35, R36), the proposed name
(spec/41_section_encode.md R62), the section types (spec/30_encoding.md R54), the field view of a section (R57) and the selected
section (spec/10_state.md R26, R27). -/

namespace Sys2Proof.Machine

/-! ### Byte order -/

/-- `le16(v)`: low byte first (R9, R35). -/
def le16 (v : Half) : List Byte := [v.extractLsb' 0 8, v.extractLsb' 8 8]

/-- The 16-bit value of a low and a high byte, `lo + 256 * hi` (R36, R57). -/
def half (lo hi : Byte) : Half := hi ++ lo

/-- A register's word from four bytes of a byte string, the lowest-numbered byte in bits 7:0 (R36). -/
def wordOfBytes (b0 b1 b2 b3 : Byte) : Word := b3 ++ b2 ++ b1 ++ b0

/-- Byte `i` of a register's word, bits 8i+7:8i (R36). -/
def byteOfWord (w : Word) (i : Nat) : Byte := w.extractLsb' (8 * i) 8

/-- The eight bytes in index order. -/
def Bytes8.toList (n : Bytes8) : List Byte := [n.b0, n.b1, n.b2, n.b3, n.b4, n.b5, n.b6, n.b7]

/-- The first eight bytes of a sequence; used on sequences of exactly eight. -/
def Bytes8.ofList (l : List Byte) : Bytes8 :=
  ⟨l.getD 0 0, l.getD 1 0, l.getD 2 0, l.getD 3 0, l.getD 4 0, l.getD 5 0, l.getD 6 0, l.getD 7 0⟩

/-- Bytes 0..3 as a register's word (R21, R22). -/
def Bytes8.word0 (n : Bytes8) : Word := wordOfBytes n.b0 n.b1 n.b2 n.b3
/-- Bytes 4..7 as a register's word (R21, R22). -/
def Bytes8.word1 (n : Bytes8) : Word := wordOfBytes n.b4 n.b5 n.b6 n.b7

/-- Bytes 0..3 replaced by those of a written word (R21). -/
def Bytes8.setWord0 (n : Bytes8) (w : Word) : Bytes8 :=
  { n with b0 := byteOfWord w 0, b1 := byteOfWord w 1, b2 := byteOfWord w 2, b3 := byteOfWord w 3 }
/-- Bytes 4..7 replaced by those of a written word (R21). -/
def Bytes8.setWord1 (n : Bytes8) (w : Word) : Bytes8 :=
  { n with b4 := byteOfWord w 0, b5 := byteOfWord w 1, b6 := byteOfWord w 2, b7 := byteOfWord w 3 }

/-! ### The proposed name (R21, R62) -/

/-- `padname(t)`: right-padded with 0x20 to 8 bytes; none for a name of more than 8 bytes, the NameTooLong case (R62). -/
def padname (t : List Byte) : Option (List Byte) :=
  if t.length > Config.nameBytes then none
  else some (t ++ List.replicate (Config.nameBytes - t.length) Config.namePad)

/-- The name the host proposes, padded: `padname(name_buf[0:name_len])`; none when `name_len > 8`, tested on `name_len`
alone (R21, R62). -/
def Block.proposedName (b : Block) : Option Bytes8 :=
  if b.nameLen.toNat > Config.nameBytes then none
  else (padname (b.nameBuf.toList.take b.nameLen.toNat)).map Bytes8.ofList

/-! ### Section types and the field view (R54, R57) -/

/-- The type byte of a section type (R54). -/
def SectionType.code : SectionType → Byte
  | .data    => 0
  | .comment => 1
  | .end_    => 2
  | .exec    => 3

/-- Byte `i` of a section counted from its first sync byte; 0 past its end, which no field of a section that meets R14
reaches (log 6). -/
def Section.byteAt (s : Section) (i : Nat) : Byte := s.wire.getD i 0

/-- `soh(s)` (R57). -/
def Section.soh (s : Section) : Byte := s.byteAt s.syncLen
/-- `hdr_body(s)`, 14 bytes (R57). -/
def Section.hdrBody (s : Section) : List Byte := (s.wire.drop (s.syncLen + 1)).take Config.hdrBodyBytes
/-- `name_field(s)`, 8 bytes (R57). -/
def Section.nameField (s : Section) : List Byte := (s.wire.drop (s.syncLen + 1)).take Config.nameBytes
/-- `addr_field(s)`, little-endian (R57). -/
def Section.addrField (s : Section) : Half := half (s.byteAt (s.syncLen + 9)) (s.byteAt (s.syncLen + 10))
/-- `len_byte(s)` (R57). -/
def Section.lenByte (s : Section) : Byte := s.byteAt (s.syncLen + 11)
/-- `exec_field(s)`, little-endian (R57). -/
def Section.execField (s : Section) : Half := half (s.byteAt (s.syncLen + 12)) (s.byteAt (s.syncLen + 13))
/-- `type_byte(s)` (R57). -/
def Section.typeByte (s : Section) : Byte := s.byteAt (s.syncLen + 14)
/-- `hdr_ck(s)` (R57). -/
def Section.hdrCk (s : Section) : Byte := s.byteAt (s.syncLen + 15)
/-- `payload(s)`, `pay_len` bytes (R57). -/
def Section.payload (s : Section) : List Byte := (s.wire.drop (s.syncLen + 16)).take s.payLen
/-- `pay_ck(s)`, defined only when `pay_len > 0` (R57). -/
def Section.payCk (s : Section) : Byte := s.byteAt (s.syncLen + 16 + s.payLen)

/-- The section SEC_SEL selects, if there is one (R26, R27). -/
def Block.selected (b : Block) : Option Section := b.store[b.secSel.toNat]?

end Sys2Proof.Machine
end

