-- ==== Sys2Proof/Machine/Flags.lean ====
section
/-! DEFINITION. The flags: the words of the status registers, bit by bit (spec/10_state.md R19, R20, R25, R28), and the two
checksum flags of VERIFY (spec/43_stream_parser.md R83). -/

namespace Sys2Proof.Machine

/-- STATUS: BUSY bit 0, DONE bit 1, ERR bit 2, NAME_SET bit 3, 31:4 zero (R19). -/
def Block.statusWord (b : Block) : Word :=
  0#28 ++ BitVec.ofBool b.nameSet ++ BitVec.ofBool b.err ++ BitVec.ofBool b.done ++ BitVec.ofBool b.busy

/-- ERR: CODE bits 7:0, OP bits 15:8, 31:16 zero (R20). -/
def Block.errWord (b : Block) : Word := 0#16 ++ b.errOp ++ b.errCode

/-- CK: VALUE bits 7:0, EMPTY bit 8, 31:9 zero (R25). -/
def Block.ckWord (b : Block) : Word := 0#23 ++ BitVec.ofBool b.ckEmpty ++ b.ckValue

/-- VERIFY: HDR_OK bit 0, PAY_OK bit 1, bit 2 zero, VALID bit 3, 31:4 zero (R28). -/
def Block.verifyWord (b : Block) : Word :=
  0#28 ++ BitVec.ofBool b.verValid ++ 0#1 ++ BitVec.ofBool b.verPayOk ++ BitVec.ofBool b.verHdrOk

/-- `(sum(hdr_body(s)) + hdr_ck(s)) mod 256 = 0` (R83). -/
def Section.hdrOk (s : Section) : Bool := (sumBytes s.hdrBody + s.hdrCk.toNat) % 256 == 0

/-- `(pay_len = 0) or ((sum(payload(s)) + pay_ck(s)) mod 256 = 0)` (R83). -/
def Section.payOk (s : Section) : Bool := s.payLen == 0 || (sumBytes s.payload + s.payCk.toNat) % 256 == 0

end Sys2Proof.Machine
end

