-- ==== Sys2Proof/Machine/Checksum.lean ====
section
/-! DEFINITION. The checksum unit's command, CHECKSUM (spec/40_checksum.md R61). -/

namespace Sys2Proof.Machine

/-- The body of CHECKSUM (R61). -/
def bodyChecksum (s : State) : BodyResult :=
  readInput s fun bytes s => .finished (s.withBlk (s.blk.latchChecksum (checksum bytes)))

/-- CHECKSUM: the checksum of the whole input stream is latched in CK (R61). -/
def execChecksum (s : State) : Host.Outcome State Fault Refusal := commandFrame 0x00000008#32 bodyChecksum s

end Sys2Proof.Machine
end

