-- ==== Sys2Proof/Machine/Framer.lean ====
section
/-! DEFINITION. The section framer: the header body, one section on the wire, SET_NAME and the four APPEND_SECTION commands
(spec/41_section_encode.md R62-R67, spec/30_encoding.md R55, R56). -/

namespace Sys2Proof.Machine

/-- `hdrbody(n8, address, L, type)`: an Exec section carries its address in the exec field, every other type in the address
field, and the other field is 0 (R64). -/
def hdrBodyBytes (n8 : List Byte) (address : Half) (len : Nat) (type : SectionType) : List Byte :=
  let a : Half := if type = .exec then 0 else address
  let e : Half := if type = .exec then address else 0
  n8 ++ le16 a ++ [BitVec.ofNat 8 (len % 256)] ++ le16 e ++ [type.code]

/-- The wire bytes of one section: 16 sync bytes, SOH, header body, header checksum, payload, payload checksum if any (R55, R65). -/
def frame (n8 : List Byte) (address : Half) (data : List Byte) (type : SectionType) : List Byte :=
  let body := hdrBodyBytes n8 address data.length type
  List.replicate Config.syncCount Config.syncByte ++ [Config.sohByte] ++ body ++ checksum body ++ data ++ checksum data

/-- `encode(n8, address, data, type)`: none for more than 256 payload bytes, the PayloadTooLong case (R65). -/
def encodeSection (n8 : List Byte) (address : Half) (data : List Byte) (type : SectionType) : Option (List Byte) :=
  if data.length > Config.payloadMax then none else some (frame n8 address data type)

/-- The record of a section the encoder made (R65, R70). -/
def sectionOf (n8 : List Byte) (address : Half) (data : List Byte) (type : SectionType) : Section :=
  { wire := frame n8 address data type, syncLen := Config.syncCount, payLen := data.length }

/-- The body of SET_NAME (R63). -/
def bodySetName (s : State) : BodyResult :=
  match s.blk.proposedName with
  | none => .aborted .nameTooLong 0 s
  | some n8 => .finished (s.withBlk (s.blk.commitName n8))

/-- The body of APPEND_SECTION for one section type (R67). -/
def bodyAppend (type : SectionType) (s : State) : BodyResult :=
  if s.blk.nameSet = false then .aborted .nameNotSet 0 s
  else readInput s fun data s =>
    match encodeSection s.blk.name.toList s.blk.addr data type with
    | none => .aborted .payloadTooLong 256 s
    | some w => replaceStore s (s.blk.store ++ [⟨w, Config.syncCount, data.length⟩]) id

/-- SET_NAME commits the proposed name as the program name (R63). -/
def execSetName (s : State) : Host.Outcome State Fault Refusal := commandFrame 0x00000001#32 bodySetName s

/-- APPEND_SECTION.DATA (R67). -/
def execAppendData (s : State) : Host.Outcome State Fault Refusal := commandFrame 0x00000003#32 (bodyAppend .data) s

/-- APPEND_SECTION.COMMENT (R67). -/
def execAppendComment (s : State) : Host.Outcome State Fault Refusal := commandFrame 0x00000103#32 (bodyAppend .comment) s

/-- APPEND_SECTION.END (R67). -/
def execAppendEnd (s : State) : Host.Outcome State Fault Refusal := commandFrame 0x00000203#32 (bodyAppend .end_) s

/-- APPEND_SECTION.EXEC (R67). -/
def execAppendExec (s : State) : Host.Outcome State Fault Refusal := commandFrame 0x00000303#32 (bodyAppend .exec) s

end Sys2Proof.Machine
end

