-- ==== Sys2Proof/Machine/Container.lean ====
section
/-! DEFINITION. The program container: CLEAR, chunking, FROM_BINARY and TO_BYTES (spec/42_program_container.md R68-R74). -/

namespace Sys2Proof.Machine

/-- `chunks(d)`: consecutive pieces of 256 bytes, the last one possibly shorter (R69). -/
def chunks (d : List Byte) : List (List Byte) :=
  (List.range ((d.length + 255) / 256)).map fun i => (d.drop (Config.chunkBytes * i)).take Config.chunkBytes

/-- The Data sections of a program: chunk `i` at `(address + 256*i) mod 65536` (R70, D14). -/
def dataSections (n8 : List Byte) (address : Half) (d : List Byte) : List Section :=
  (chunks d).zipIdx.map fun c => sectionOf n8 (address + BitVec.ofNat 16 (Config.chunkBytes * c.2)) c.1 .data

/-- The terminator: Exec with the exec address when `x = 1`, else End with address 0 (R70, R71). -/
def terminator (n8 : List Byte) (x : Bool) (e : Half) : Section :=
  if x then sectionOf n8 e [] .exec else sectionOf n8 0 [] .end_

/-- `program(n8, address, x, e, d)`: start comment, data sections, end comment, terminator (R70). -/
def program (n8 : List Byte) (address : Half) (x : Bool) (e : Half) (d : List Byte) : List Section :=
  [sectionOf n8 0 Config.startText .comment] ++ dataSections n8 address d
    ++ [sectionOf n8 0 Config.endText .comment] ++ [terminator n8 x e]

/-- The beats of one section: `sos` on its first byte, `eos` on its last (R31, R74). -/
def sectionBeats (s : Section) : List Beat :=
  s.wire.zipIdx.map fun c => { data := c.1, sos := c.2 == 0, eos := c.2 + 1 == s.wire.length }

/-- The beats TO_BYTES offers, in order (R74). -/
def storeBeats (store : List Section) : List Beat := store.flatMap sectionBeats

/-- The tape image: the wire bytes of the sections in append order (R74). -/
def tapeImage (store : List Section) : List Byte := store.flatMap fun s => s.wire

/-- The body of CLEAR (R68). -/
def bodyClear (s : State) : BodyResult := .finished (s.withBlk (s.blk.setStore []))

/-- The body of FROM_BINARY for one value of X (R73): the name check, the input, the program, the capacity. -/
def bodyFromBinary (x : Bool) (s : State) : BodyResult :=
  match s.blk.proposedName with
  | none => .aborted .nameTooLong 0 s
  | some n8 => readInput s fun d s =>
    replaceStore s (program n8.toList s.blk.addr x s.blk.execAddr d) fun b => b.commitName n8

/-- The body of TO_BYTES (R74). -/
def bodyToBytes (s : State) : BodyResult := outWriteAll 0 (storeBeats s.blk.store) s

/-- CLEAR empties the section store (R68). -/
def execClear (s : State) : Host.Outcome State Fault Refusal := commandFrame 0x00000002#32 bodyClear s

/-- FROM_BINARY, X = 0: End terminator (R73). -/
def execFromBinary (s : State) : Host.Outcome State Fault Refusal := commandFrame 0x00000004#32 (bodyFromBinary false) s

/-- FROM_BINARY.X, X = 1: Exec terminator at EXEC (R73). -/
def execFromBinaryX (s : State) : Host.Outcome State Fault Refusal := commandFrame 0x00000404#32 (bodyFromBinary true) s

/-- TO_BYTES emits the store on the OUT port (R74). -/
def execToBytes (s : State) : Host.Outcome State Fault Refusal := commandFrame 0x00000005#32 bodyToBytes s

end Sys2Proof.Machine
end

