-- ==== Sys2Proof/Machine/Control.lean ====
section
/-! DEFINITION. CLR_ERR, the acknowledgement of a latched error, and the illegal command (spec/44_control.md R86,
spec/30_encoding.md R51). -/

namespace Sys2Proof.Machine

/-- The body of CLR_ERR (R86). -/
def bodyClrErr (s : State) : BodyResult := .finished (s.withBlk s.blk.clearError)

/-- CLR_ERR acknowledges a latched error and reopens the error gate (R86). -/
def execClrErr (s : State) : Host.Outcome State Fault Refusal := commandFrame 0x00000009#32 bodyClrErr s

/-- A word that is no legal command, in the same frame: `raise IllegalCommand(0)` (R51, R84, R99). -/
def execIllegal (w : Word) (s : State) : Host.Outcome State Fault Refusal :=
  commandFrame w (fun t => .aborted .illegalCommand 0 t) s

end Sys2Proof.Machine
end

