-- ==== Sys2Proof/Machine/Parser.lean ====
section
/-! DEFINITION. The stream parser, DECODE and VERIFY (spec/43_stream_parser.md R75-R83). -/

namespace Sys2Proof.Machine

/-- `loglen(lb, ty)`: a length byte 0 means 0 for End and Exec and 256 for every other type byte (R75; C1, D9, D20). -/
def loglen (lb ty : Byte) : Nat :=
  if lb ≠ 0 then lb.toNat
  else if ty = SectionType.end_.code ∨ ty = SectionType.exec.code then 0
  else 256

/-- The bytes after the header region: the payload and, if it is not empty, its checksum (R76 step 5). -/
def payloadNeed (p : Nat) : Nat := p + (if p > 0 then 1 else 0)

/-- One section at position `pos` of the input, `rest` the input from there on, not empty: the section and the input after
it, or the error and its offset (R76, one turn of the loop). -/
def parseOne (pos : Nat) (rest : List Byte) : Except (CmdError × Nat) (Section × List Byte) :=
  let k := (rest.takeWhile (· == Config.syncByte)).length
  if k = 0 then .error (.badFraming, pos)
  else match rest.drop k with
    | [] => .error (.truncatedSection, pos)
    | soh :: hdr =>
      if soh ≠ Config.sohByte then .error (.badFraming, pos + k)
      else if hdr.length < Config.hdrRegionBytes then .error (.truncatedSection, pos)
      else
        let p := loglen (hdr.getD 10 0) (hdr.getD 13 0)
        let body := hdr.drop Config.hdrRegionBytes
        if body.length < payloadNeed p then .error (.truncatedSection, pos)
        else
          let n := k + 1 + Config.hdrRegionBytes + payloadNeed p
          .ok (⟨rest.take n, k, p⟩, rest.drop n)

/-- The loop of `parse` from position `pos` on (R76). Each turn consumes at least one byte, so `fuel`, started at the number of
bytes, never runs out; the answer at fuel 0 is never given (log 8). -/
def parseLoop (fuel pos : Nat) (rest : List Byte) : Except (CmdError × Nat) (List Section) :=
  match rest, fuel with
  | [], _ => .ok []
  | _ :: _, 0 => .error (.truncatedSection, pos)
  | b :: bs, fuel + 1 =>
    match parseOne pos (b :: bs) with
    | .error e => .error e
    | .ok (s, rest') =>
      match parseLoop fuel (pos + s.wire.length) rest' with
      | .error e => .error e
      | .ok S => .ok (s :: S)

/-- `parse(buf)`: the sections of a tape image, or the first error and its offset (R76). -/
def parse (buf : List Byte) : Except (CmdError × Nat) (List Section) := parseLoop buf.length 0 buf

/-- The body of DECODE (R79). -/
def bodyDecode (s : State) : BodyResult :=
  readInput s fun buf s =>
    match parse buf with
    | .error e => .aborted e.1 e.2 s
    | .ok S => replaceStore s S id

/-- The body of VERIFY (R83). -/
def bodyVerify (s : State) : BodyResult :=
  match s.blk.selected with
  | none => .aborted .badSelect s.blk.secSel.toNat s
  | some sec => .finished (s.withBlk (s.blk.latchVerify sec.hdrOk sec.payOk))

/-- DECODE parses the whole IN stream as a tape image and makes the result the store (R79). -/
def execDecode (s : State) : Host.Outcome State Fault Refusal := commandFrame 0x00000006#32 bodyDecode s

/-- VERIFY checks both checksums of the selected section (R83). -/
def execVerify (s : State) : Host.Outcome State Fault Refusal := commandFrame 0x00000007#32 bodyVerify s

end Sys2Proof.Machine
end

