-- ==== Sys2Proof/Machine/Dispatch.lean ====
section
/-! DEFINITION. One arm for each constructor of Instr (spec/30_encoding.md R49). -/

namespace Sys2Proof.Machine

def exec (i : Instr) (s : State) : Host.Outcome State Fault Refusal :=
  match i with
  | .setName => Sys2Proof.Machine.execSetName s
  | .clear => Sys2Proof.Machine.execClear s
  | .appendData => Sys2Proof.Machine.execAppendData s
  | .appendComment => Sys2Proof.Machine.execAppendComment s
  | .appendEnd => Sys2Proof.Machine.execAppendEnd s
  | .appendExec => Sys2Proof.Machine.execAppendExec s
  | .fromBinary => Sys2Proof.Machine.execFromBinary s
  | .fromBinaryX => Sys2Proof.Machine.execFromBinaryX s
  | .toBytes => Sys2Proof.Machine.execToBytes s
  | .decode => Sys2Proof.Machine.execDecode s
  | .verify => Sys2Proof.Machine.execVerify s
  | .checksum => Sys2Proof.Machine.execChecksum s
  | .clrErr => Sys2Proof.Machine.execClrErr s

end Sys2Proof.Machine
end

