-- ==== Sys2Proof/Machine/Registers.lean ====
section
/-! DEFINITION. The register map and what a read or a write of each register does (spec/10_state.md R17-R28). -/

namespace Sys2Proof.Machine

/-- The register map (R17). -/
def regMap : List (Nat × Reg) :=
  [(0x00, .cmd), (0x04, .status), (0x08, .err), (0x0C, .errOffset), (0x10, .nameLen), (0x14, .nameBuf0), (0x18, .nameBuf1),
   (0x1C, .name0), (0x20, .name1), (0x24, .addr), (0x28, .exec), (0x2C, .sectionCount), (0x30, .storeBytes), (0x34, .inCount),
   (0x38, .ck), (0x3C, .secSel), (0x40, .secInfo0), (0x44, .secInfo1), (0x48, .secInfo2), (0x4C, .secWireLen), (0x50, .verify)]

/-- The register at a byte offset; none at a reserved offset (R17, R41). -/
def regAt (off : Nat) : Option Reg := (regMap.find? fun e => e.1 == off).map fun e => e.2

/-- The byte offset of a register (R17). -/
def Reg.offset (r : Reg) : Nat := ((regMap.find? fun e => e.2 == r).map fun e => e.1).getD 0

/-- SEC_INFO0 of a section: TYPE 7:0, LENB 15:8, PAYLEN 24:16, PCK_PRESENT 25, 31:26 zero (R27). -/
def Section.info0 (s : Section) : Word :=
  0#6 ++ BitVec.ofBool (decide (s.payLen > 0)) ++ BitVec.ofNat 9 s.payLen ++ s.lenByte ++ s.typeByte

/-- SEC_INFO1 of a section: ADDRF 15:0, EXECF 31:16 (R27). -/
def Section.info1 (s : Section) : Word := s.execField ++ s.addrField

/-- SEC_INFO2 of a section: HCK 7:0, PCK 15:8 (0 with no payload), SYNCLEN 31:16 (R27). -/
def Section.info2 (s : Section) : Word :=
  BitVec.ofNat 16 (min s.syncLen 0xFFFF) ++ (if s.payLen > 0 then s.payCk else 0#8) ++ s.hdrCk

/-- SEC_WIRE_LEN of a section (R27). -/
def Section.wireLen (s : Section) : Word := BitVec.ofNat 32 s.wire.length

/-- A view register: a field of the selected section, 0 when SEC_SEL selects none (R27, D37). -/
def Block.view (b : Block) (f : Section → Word) : Word :=
  match b.selected with
  | some s => f s
  | none => 0

/-- The word a read of a register returns; CMD is write-only and reads 0 (R17-R28). -/
def Reg.read (r : Reg) (b : Block) : Word :=
  match r with
  | .cmd => 0
  | .status => b.statusWord
  | .err => b.errWord
  | .errOffset => b.errOffset
  | .nameLen => 0#16 ++ b.nameLen
  | .nameBuf0 => b.nameBuf.word0
  | .nameBuf1 => b.nameBuf.word1
  | .name0 => b.name.word0
  | .name1 => b.name.word1
  | .addr => 0#16 ++ b.addr
  | .exec => 0#16 ++ b.execAddr
  | .sectionCount => sat32 b.store.length
  | .storeBytes => BitVec.ofNat 32 (total b.store)
  | .inCount => b.inCount
  | .ck => b.ckWord
  | .secSel => b.secSel
  | .secInfo0 => b.view Section.info0
  | .secInfo1 => b.view Section.info1
  | .secInfo2 => b.view Section.info2
  | .secWireLen => b.view Section.wireLen
  | .verify => b.verifyWord

/-! The RW registers' writes: the defined fields of the written word are stored (R18, R21, R23, R26). -/

/-- NAME_LEN takes bits 15:0 (R21). -/
def Block.writeNameLen (b : Block) (w : Word) : Block := { b with nameLen := w.extractLsb' 0 16 }
/-- NAME_BUF0 takes name bytes 0..3 (R21). -/
def Block.writeNameBuf0 (b : Block) (w : Word) : Block := { b with nameBuf := b.nameBuf.setWord0 w }
/-- NAME_BUF1 takes name bytes 4..7 (R21). -/
def Block.writeNameBuf1 (b : Block) (w : Word) : Block := { b with nameBuf := b.nameBuf.setWord1 w }
/-- ADDR takes bits 15:0 (R23). -/
def Block.writeAddr (b : Block) (w : Word) : Block := { b with addr := w.extractLsb' 0 16 }
/-- EXEC takes bits 15:0 (R23). -/
def Block.writeExec (b : Block) (w : Word) : Block := { b with execAddr := w.extractLsb' 0 16 }
/-- SEC_SEL takes the word and clears VERIFY.VALID (R26). -/
def Block.writeSecSel (b : Block) (w : Word) : Block := { b with secSel := w, verValid := false }

/-- A write to a register other than CMD; a write to a read-only register is ignored (R18). -/
def Reg.write (r : Reg) (w : Word) (b : Block) : Block :=
  match r with
  | .nameLen => b.writeNameLen w
  | .nameBuf0 => b.writeNameBuf0 w
  | .nameBuf1 => b.writeNameBuf1 w
  | .addr => b.writeAddr w
  | .exec => b.writeExec w
  | .secSel => b.writeSecSel w
  | .cmd | .status | .err | .errOffset | .name0 | .name1 | .sectionCount | .storeBytes | .inCount | .ck
  | .secInfo0 | .secInfo1 | .secInfo2 | .secWireLen | .verify => b

/-- `RegRead(off)` at an admitted offset; a reserved offset reads 0 (R18, R38). -/
def regRead (off : Nat) (b : Block) : Word :=
  match regAt off with
  | some r => r.read b
  | none => 0

/-- `RegWrite(off, w)` at an admitted offset other than that of CMD: ignored while BUSY (R87), and at a reserved offset (R18). -/
def regWrite (off : Nat) (w : Word) (b : Block) : Block :=
  if b.busy = true then b
  else match regAt off with
    | some r => r.write w b
    | none => b

end Sys2Proof.Machine
end

