-- ==== Sys2Proof/Machine/Issue.lean ====
section
/-! DEFINITION. What one host access does: a register read, a register write, the issue of a command word, RST
(spec/20_memory.md R38, R39, R43; spec/44_control.md R84; spec/70_reset_and_hazards.md R111). -/

namespace Sys2Proof.Machine

/-- Why an access is not admitted, if it is not: `off` must be a multiple of 4 in 0..0xFC and the width 32 bits (R38, I15). -/
def notAdmitted (off width : Nat) : Option Refusal :=
  if off > 0xFF then some (.offsetOutOfRange off)
  else if off % 4 ≠ 0 then some (.misalignedAccess off)
  else if width ≠ 32 then some (.widthNotWord width)
  else none

/-- A write of the word `w` to CMD: the command it decodes to, or IllegalCommand (R51, R84). -/
def issue (w : Word) (s : State) : Host.Outcome State Fault Refusal :=
  match decode w with
  | .ok i => exec i s
  | .error _ => execIllegal w s

/-- RST: every element of the block's state takes its reset value; the accepted beats are no block state and stay, and so
does the host's side of the interface (R111; logs 1, 4). -/
def resetBlock (s : State) : State := s.withBlk Block.reset

/-- The host makes one access (R38, R39, R43). -/
def performAccess (a : HostAccess) (s : State) : Host.Outcome State Fault Refusal :=
  match a with
  | .rst => .next (resetBlock s)
  | .read off width =>
    match notAdmitted off width with
    | some r => .refused r
    | none => .next (s.recordRead (regRead off s.blk))
  | .write off width w inp sinkRefuses =>
    match notAdmitted off width with
    | some r => .refused r
    | none =>
      if off = 0 then issue w (s.present inp sinkRefuses)
      else .next (s.withBlk (regWrite off w s.blk))

/-- The CMD write that issues the word `w` with the inputs the state holds (R29, R48). -/
def cmdWrite (w : Word) (s : State) : HostAccess := .write 0 32 w s.inp s.sinkRefuses

end Sys2Proof.Machine
end

