-- ==== Sys2Proof/Machine/Step.lean ====
section
/-! DEFINITION. One step of the machine: the host makes its next access (spec/00_scope.md R3, spec/20_memory.md R43). A command is
taken from the CMD write itself (R46); with no access placed the block is idle (spec/70_reset_and_hazards.md R112; log 1). -/

namespace Sys2Proof.Machine

/-- The host's next access is made; with none placed nothing happens. -/
def step (s : State) : Host.Outcome State Fault Refusal :=
  match s.accesses with
  | [] => .next s
  | a :: _ => performAccess a s.dropAccess

/-- The state in which the host's next access is the CMD write of the given table word, with the inputs the state holds. -/
def State.withFetchWord (s : State) (nbits w : Nat) : State :=
  { s with accesses := cmdWrite (Sys2Proof.tableWord nbits w) s :: s.accesses }

end Sys2Proof.Machine
end

