-- ==== Sys2Proof/Machine/Downstream.lean ====
section
/-! DEFINITION. What the two neighbour blocks take from the OUT port and what they do with it, as functions of the accepted
beats (spec/48_downstream_consumers.md R89-R98). None of it is state of the codec and no step calls it; the neighbours' internals
are out of the spec's scope (spec/00_scope.md R5; log 12). -/

namespace Sys2Proof.Machine.Downstream

/-- The tape-image byte sink: the beats' data bytes are the file's bytes (R89). -/
def imageBytes (beats : List Beat) : List Byte := beats.map fun b => b.data

/-! ### Writing in order to something that may fail (R95, R98) -/

/-- The neighbours' own errors; none of them is an error of the codec (R98, R102). -/
inductive NeighbourError where
  /-- the modulator's: a sample write failed (R95) -/
  | sinkWriteFailure
  /-- the transmitter's: a port write failed (R98) -/
  | portWriteFailure
  deriving DecidableEq, Repr

/-- What a neighbour has written when it ends, oldest first, and the error it ends with, if any. -/
structure WriteRun (α : Type) where
  written : List α
  error : Option NeighbourError
  deriving DecidableEq, Repr

/-- The items are written in order, `ok k` being the answer to write number `k`; the first failed write is fatal: it and all
after it are not written ("aborts remaining transmission/modulation immediately", "no partial-send recovery"; R95, R98). -/
def writeInOrder {α : Type} (ok : Nat → Bool) (err : NeighbourError) (k : Nat) (items : List α) : WriteRun α :=
  match items with
  | [] => { written := [], error := none }
  | x :: rest =>
    if ok k then
      let r := writeInOrder ok err (k + 1) rest
      { written := x :: r.written, error := r.error }
    else { written := [], error := some err }

/-! ### Audio modulator, the tones (R91, R92) -/

/-- The two 160-sample blocks (R91). -/
inductive Tone where
  | tone0
  | tone1
  deriving DecidableEq, Repr

/-- The samples of a tone block (R91). -/
abbrev toneLength : Nat := 160

/-- The cycles a tone completes over its 160 samples (R91). -/
def Tone.cycles : Tone → Nat
  | .tone0 => 4
  | .tone1 => 8

/-- A tone's frequency in Hz: 1200 and 2400 at 48000 samples a second (R91). -/
def Tone.frequency (t : Tone) (sampleRate : Nat) : Rat := (t.cycles : Rat) * (sampleRate : Rat) / (toneLength : Rat)

/-- A rounding answers an integer less than 1 away, for the values that fit 16 bits (R92 names no rounding; DEDUCED, log 15). -/
def IsRounding (r : Real → Half) : Prop := ∀ x : Real, |x| ≤ 32767 → |((r x).toInt : Real) - x| < 1

/-- The samples are those of a sine wave of the given number of cycles over 160 samples, with the amplitude, the starting phase and
the rounding of the parameters (R91, R92; log 15). -/
def IsSampledSine (p : Config.ModulatorParams) (cycles : Nat) (samples : Fin toneLength → Half) : Prop :=
  ∀ n : Fin toneLength, samples n =
    p.rounding (((p.toneAmplitude : Nat) : Real) *
      Real.sin (2 * Real.pi * ((cycles : Real) * ((n : Nat) : Real)) / (toneLength : Real) + p.tonePhase))

/-- An audio modulator: its parameters, and the samples of its two tones, which are the sines of R91 with those parameters. -/
structure Modulator extends Config.ModulatorParams where
  tones : Tone → Fin toneLength → Half
  rounds : IsRounding rounding
  sines : ∀ t, IsSampledSine toModulatorParams t.cycles (tones t)

/-- The 160 samples of a tone block (R91). -/
def Modulator.toneSamples (m : Modulator) (t : Tone) : List Half := List.ofFn (m.tones t)

/-! ### Audio modulator, ByteEncoded (R91) -/

/-- The tone of one bit (R91). -/
def bitTone (bit : Bool) : Tone := if bit then .tone1 else .tone0

/-- The 11 blocks of one byte: start marker, bits least significant first, two stop markers (R91). -/
def byteTones (b : Byte) : List Tone :=
  [Tone.tone0] ++ (List.range 8).map (fun i => bitTone (b.getLsbD i)) ++ [Tone.tone1, Tone.tone1]

/-- The ByteEncoded emission of a beat stream; the sos and eos flags are not used (R91). -/
def byteEncoded (beats : List Beat) : List Tone := beats.flatMap fun b => byteTones b.data

/-! ### Audio modulator, PolyEncoded (R93) -/

/-- The two 20-sample square blocks (R93). -/
inductive Square where
  | highThenLow
  | lowThenHigh
  deriving DecidableEq, Repr

/-- The block of one bit: LOW_THEN_HIGH for 1, HIGH_THEN_LOW for 0 (R93). -/
def bitSquare (bit : Bool) : Square := if bit then .lowThenHigh else .highThenLow

/-- The 8 blocks of one byte, bits least significant first, no start or stop framing (R93). -/
def byteSquares (b : Byte) : List Square := (List.range 8).map fun i => bitSquare (b.getLsbD i)

/-- The copies of HIGH_THEN_LOW in the burst before a section's first byte (R93). -/
abbrev burstReps : Nat := 1200

/-- The PolyEncoded emission: the preamble once, then at each sos beat a burst, and each byte's blocks (R93). -/
def polyEncoded (preambleReps : Nat) (beats : List Beat) : List Square :=
  List.replicate preambleReps Square.lowThenHigh ++
    beats.flatMap fun b => (if b.sos then List.replicate burstReps Square.highThenLow else []) ++ byteSquares b.data

/-- The sample at `+amplitude` (R93). -/
def highSample (a : Config.Amplitude) : Half := BitVec.ofNat 16 a

/-- The sample at `-amplitude`: exact, since a magnitude is at most 32767 (R93; log 14). -/
def lowSample (a : Config.Amplitude) : Half := BitVec.ofInt 16 (-(a : Int))

/-- The 20 samples of a square block: 10 at one amplitude, 10 at the other (R93). The magnitude's range 0..32767 is the model's
reading of "16-bit signed magnitude" (DEDUCED, log 14): at it `-amplitude` never wraps and HIGH is never below LOW. -/
def squareSamples (a : Config.Amplitude) : Square → List Half
  | .highThenLow => List.replicate 10 (highSample a) ++ List.replicate 10 (lowSample a)
  | .lowThenHigh => List.replicate 10 (lowSample a) ++ List.replicate 10 (highSample a)

/-! ### Audio modulator, its output (R90, R95) -/

/-- The configuration of the sample-accepting audio sink (R90). -/
structure SinkConfig where
  sampleRate : Nat
  channels : Nat
  bitsPerSample : Nat
  deriving DecidableEq, Repr

/-- A mono waveform of 16-bit signed samples at a uniform rate, as the sink it is written to is configured (R90). -/
structure Waveform where
  format : SinkConfig
  samples : List Half
  deriving DecidableEq, Repr

/-- The sink is configured with the modulator's sample rate, one channel and 16 bits a sample (R90). -/
def Modulator.sinkConfig (m : Modulator) : SinkConfig := { sampleRate := m.sampleRate, channels := 1, bitsPerSample := 16 }

/-- The sample blocks of a beat stream in emission order, for the variant the caller chose (R90, R91, R93). -/
def Modulator.blocks (m : Modulator) (beats : List Beat) : List (List Half) :=
  match m.variant with
  | .byte => (byteEncoded beats).map m.toneSamples
  | .poly => (polyEncoded m.polyPreambleReps beats).map (squareSamples m.polyAmplitude)

/-- The waveform of a beat stream (R90). -/
def Modulator.waveform (m : Modulator) (beats : List Beat) : Waveform :=
  { format := m.sinkConfig, samples := (m.blocks beats).flatten }

/-- A waveform's duration in seconds (R94). -/
def Waveform.duration (w : Waveform) : Rat := (w.samples.length : Rat) / (w.format.sampleRate : Rat)

/-- A modulation to a sink that may fail: the blocks are written one at a time in emission order, and a failed write is the fatal
SinkWriteFailure (R95; one write a block: log 16). Nothing limits the rate of the writes (R95). -/
def Modulator.modulate (m : Modulator) (ok : Nat → Bool) (beats : List Beat) : WriteRun (List Half) :=
  writeInOrder ok .sinkWriteFailure 0 (m.blocks beats)

/-! ### Paced transmitter (R96-R98) -/

/-- The configuration of the external port (R96). -/
structure PortConfig where
  baud : Nat
  stopBits : Nat
  readTimeout : Rat
  writeTimeout : Rat
  deriving DecidableEq, Repr

/-- The stop bits of a byte (R96). -/
abbrev stopBits : Nat := 2

/-- The bit-times of a byte: start, 8 data, 2 stop (R96). -/
abbrev byteBitTimes : Nat := 1 + 8 + stopBits

/-- The port is configured with the transmitter's baud rate and timeouts and 2 stop bits (R96). -/
def portConfig (t : Config.Transmitter) : PortConfig :=
  { baud := t.baud, stopBits := stopBits, readTimeout := t.readTimeout, writeTimeout := t.writeTimeout }

/-- The delay after each byte: `11 / baud` seconds (R96). -/
def byteDelay (t : Config.Transmitter) : Rat := (byteBitTimes : Rat) / (t.baud : Rat)

/-- A progress report: percentage complete and remaining seconds, exact (R97; no rounding is given). -/
structure Progress where
  percent : Rat
  remaining : Rat
  deriving DecidableEq, Repr

/-- The report after `sent` of `total` bytes: `100 * j / T` and `(T - j) * 11 / baud` (R97). -/
def progressAt (t : Config.Transmitter) (total sent : Nat) : Progress :=
  { percent := 100 * (sent : Rat) / (total : Rat), remaining := ((total : Rat) - (sent : Rat)) * byteDelay t }

/-- One write to the external port, the delay in seconds that follows it, and the progress report after them, if the byte ends a
section (R96, R97; the report after the delay: log 16). -/
structure PortWrite where
  data : Byte
  delay : Rat
  report : Option Progress
  deriving DecidableEq, Repr

/-- The write of beat number `j` of a transmission of `total` bytes (R96, R97). -/
def portWrite (t : Config.Transmitter) (total j : Nat) (b : Beat) : PortWrite :=
  { data := b.data, delay := byteDelay t, report := if b.eos then some (progressAt t total (j + 1)) else none }

/-- The port writes of a beat stream: one for each byte, none skipped or merged (R96). -/
def pacedWrites (t : Config.Transmitter) (total : Nat) (beats : List Beat) : List PortWrite :=
  beats.mapIdx fun j b => portWrite t total j b

/-- A transmission over a port that may fail: the bytes are written one at a time, and a failed write aborts the whole operation
with PortWriteFailure (R96, R98). The codec's own error, if its sink refuses a beat, is SinkWriteFailure of R99. -/
def transmit (t : Config.Transmitter) (total : Nat) (ok : Nat → Bool) (beats : List Beat) : WriteRun PortWrite :=
  writeInOrder ok .portWriteFailure 0 (pacedWrites t total beats)

/-- The time that port writes with their delays take (R96, R122). -/
def pacedTime (writes : List PortWrite) : Rat := (writes.map PortWrite.delay).sum

/-- The progress reports that port writes make (R97). -/
def progressReports (writes : List PortWrite) : List Progress := writes.filterMap PortWrite.report

end Sys2Proof.Machine.Downstream
end

