-- ==== Sys2Proof/Machine/HostProgram.lean ====
section
/-! DEFINITION. The host's notation as lists of accesses: WR, RD, CMD with its IN and SINK clauses, CMD.RAW (spec/30_encoding.md R52),
and the pseudo-instructions NAME, SETNAME, ENCODE, FROMBIN, SEL (R53). A program listing is data for the field `accesses` of State. -/

namespace Sys2Proof.Machine

/-- `WR <REG>, <value>` (R52). -/
def lineWr (r : Reg) (value : Word) : HostAccess := .write r.offset 32 value InStream.empty []

/-- `RD <REG>` (R52). -/
def lineRd (r : Reg) : HostAccess := .read r.offset 32

/-- `CMD.RAW <word>` with its IN and SINK clauses (R52). -/
def lineCmdRaw (w : Word) (inp : InStream := InStream.empty) (sinkRefuses : List Nat := []) : HostAccess :=
  .write (Reg.offset .cmd) 32 w inp sinkRefuses

/-- `CMD <MNEMONIC>` with its IN and SINK clauses (R52). -/
def lineCmd (i : Instr) (inp : InStream := InStream.empty) (sinkRefuses : List Nat := []) : HostAccess :=
  lineCmdRaw (encode i) inp sinkRefuses

/-- Clause `IN [b0 b1 ...]` (R52). -/
def clauseIn (bytes : List Byte) : InStream := ⟨bytes, false⟩

/-- Clause `IN [...] FAIL` (R52). -/
def clauseInFail (bytes : List Byte) : InStream := ⟨bytes, true⟩

/-- Clause `SINK REFUSE <k>` (R52). -/
def clauseSinkRefuse (k : Nat) : List Nat := [k]

/-- The word of NAME_BUF0 (`base = 0`) or NAME_BUF1 (`base = 4`) that `NAME` writes: byte i is `t[base + i]` below
`min(n, 8)`, and 0 elsewhere (R53). -/
def nameWord (t : List Byte) (base : Nat) : Word :=
  wordOfBytes (t.getD base 0) (t.getD (base + 1) 0) (t.getD (base + 2) 0) (t.getD (base + 3) 0)

/-- `NAME "<text>"` (R53). -/
def lineName (t : List Byte) : List HostAccess :=
  [lineWr .nameLen (BitVec.ofNat 32 t.length), lineWr .nameBuf0 (nameWord t 0), lineWr .nameBuf1 (nameWord t 4)]

/-- `SETNAME "<text>"` (R53). -/
def lineSetName (t : List Byte) : List HostAccess := lineName t ++ [lineCmd .setName]

/-- The APPEND_SECTION command of a section type (R49, R54). -/
def appendInstr : SectionType → Instr
  | .data    => .appendData
  | .comment => .appendComment
  | .end_    => .appendEnd
  | .exec    => .appendExec

/-- `ENCODE <type>, <address>, [bytes]` (R53). -/
def lineEncode (type : SectionType) (address : Half) (bytes : List Byte) : List HostAccess :=
  [lineWr .addr (0#16 ++ address), lineCmd (appendInstr type) (clauseIn bytes)]

/-- `FROMBIN <address>, <exec or NONE>, "<name>", [bytes]` (R53). -/
def lineFromBin (address : Half) (execAddr : Option Half) (t : List Byte) (bytes : List Byte) : List HostAccess :=
  lineName t ++ [lineWr .addr (0#16 ++ address)] ++
    match execAddr with
    | some e => [lineWr .exec (0#16 ++ e), lineCmd .fromBinaryX (clauseIn bytes)]
    | none => [lineCmd .fromBinary (clauseIn bytes)]

/-- `SEL <i>` (R53). -/
def lineSel (i : Word) : HostAccess := lineWr .secSel i

end Sys2Proof.Machine
end

