-- ==== Sys2Proof/Safety.lean ====
section
/-! DEFINITION. What holds of every state a run can reach: the invariants the spec gives the block (spec/10_state.md R14, R15, R16, R19,
R25, R28, R31; spec/44_control.md R85), and which sections survive a round trip (spec/43_stream_parser.md R80). -/

namespace Sys2Proof.Machine

/-- The invariants of a Section in the store (R14). -/
def Section.wf (s : Section) : Bool :=
  decide (1 ≤ s.syncLen) && decide (s.payLen ≤ 256)
    && s.wire.length == s.syncLen + 16 + s.payLen + (if s.payLen > 0 then 1 else 0)
    && s.wire.take s.syncLen == List.replicate s.syncLen Config.syncByte
    && s.wire[s.syncLen]? == some Config.sohByte

/-- A section whose length byte and type byte give back its payload length (R80). -/
def Section.roundTripSafe (s : Section) : Bool :=
  loglen s.lenByte s.typeByte == s.payLen

/-- An error is latched with a code of R99, and then DONE is 0; with none latched the three error fields are 0 (R85, R99, R103, R104). -/
def Block.errorLatchOk (b : Block) : Bool :=
  if b.err then decide (1 ≤ b.errCode.toNat) && decide (b.errCode.toNat ≤ 10) && !b.done
  else b.errCode == 0 && b.errOp == 0 && b.errOffset == 0

/-- VERIFY's bits, while VALID, are the result for the section SEC_SEL selects now (R28, R83, R116). -/
def Block.verifyCurrent (b : Block) : Bool :=
  !b.verValid ||
    match b.selected with
    | some s => b.verHdrOk == s.hdrOk && b.verPayOk == s.payOk
    | none => false

/-- The block takes a command: it is not busy and no error is latched (R84). -/
abbrev State.Ready (s : State) : Prop := s.blk.busy = false ∧ s.blk.err = false

/-- The state after a failed command, written out from R103: the state before it, but for IN_COUNT and the error record. -/
def State.failedWith (s : State) (code op : Byte) (off : Nat) (inCount : Word) : State :=
  { s with blk := { s.blk with inCount := inCount, err := true, errCode := code, errOp := op,
                               errOffset := BitVec.ofNat 32 (min off 0xFFFFFFFF), done := false, busy := false } }

/-- The invariant of a run. -/
structure State.Inv (s : State) : Prop where
  /-- every access finds the block idle (R19, R87) -/
  idle : s.blk.busy = false
  /-- the store's sections meet R14 -/
  sections : ∀ sec ∈ s.blk.store, sec.wf = true
  /-- STORE_CAPACITY_BYTES is in its range (R7) -/
  capacityRange : 1 ≤ s.capacity ∧ s.capacity ≤ Config.maxU32
  /-- the store is within its capacity (R15) -/
  withinCapacity : total s.blk.store ≤ s.capacity
  /-- the error record is sound -/
  errorLatch : s.blk.errorLatchOk = true
  /-- no name committed since reset means the reset name (R16) -/
  nameUnset : s.blk.nameSet = false → s.blk.name = Bytes8.zero
  /-- EMPTY = 1 goes with VALUE = 0 (R25) -/
  checksumLatch : s.blk.ckEmpty = true → s.blk.ckValue = 0
  /-- VERIFY is about the selected section while VALID -/
  verify : s.blk.verifyCurrent = true
  /-- no beat has both flags set (R31) -/
  beats : ∀ b ∈ s.out, ¬(b.sos = true ∧ b.eos = true)

end Sys2Proof.Machine
end

