-- ==== Sys2Proof/Certificates/Slice0/Obligations.lean ====
section
/-! DEFINITION. The statements for the provers, from the numbered rules of spec/. A completed command is written as the state it
leaves, field by field; everything the record update does not name is unchanged. -/

open Sys2Proof Sys2Proof.Machine

/-! ### Encoding and issue -/

/-- The words of spec/opcode_table.json and of R52 decode to the instructions they stand for. -/
def Obligations.CommandWordsDecodeAsTabulated : Prop :=
  decode 0x00000001#32 = .ok .setName ∧ decode 0x00000002#32 = .ok .clear ∧ decode 0x00000003#32 = .ok .appendData ∧
  decode 0x00000103#32 = .ok .appendComment ∧ decode 0x00000203#32 = .ok .appendEnd ∧ decode 0x00000303#32 = .ok .appendExec ∧
  decode 0x00000004#32 = .ok .fromBinary ∧ decode 0x00000404#32 = .ok .fromBinaryX ∧ decode 0x00000005#32 = .ok .toBytes ∧
  decode 0x00000006#32 = .ok .decode ∧ decode 0x00000007#32 = .ok .verify ∧ decode 0x00000008#32 = .ok .checksum ∧
  decode 0x00000009#32 = .ok .clrErr

/-- Decoding and encoding are inverse: a word decodes to an instruction exactly when it is that instruction's word. -/
def Obligations.DecodeAndEncodeAreInverse : Prop :=
  ∀ (w : Word) (i : Instr), decode w = .ok i ↔ w = encode i

/-- R51: a word is legal by its OP, TYPE, X and high bits; a legal word issues the command it decodes to, and every other word,
when the gate lets it through, raises IllegalCommand (code 8) with offset 0 and changes nothing else. -/
def Obligations.EveryOtherWordRaisesIllegalCommand : Prop :=
  ∀ (s : State) (w : Word) (inp : InStream) (refused : List Nat) (rest : List HostAccess),
    s.accesses = .write 0 32 w inp refused :: rest → s.Ready →
    let op := w.toNat % 256
    let legal := (1 ≤ op ∧ op ≤ 9) ∧ (w.toNat / 256 % 4 = 0 ∨ op = 3) ∧ (w.toNat / 1024 % 2 = 0 ∨ op = 4) ∧ w.toNat / 2048 = 0
    let s1 := { s with accesses := rest, inp := inp, sinkRefuses := refused }
    (legal → ∃ i, decode w = .ok i ∧ step s = exec i s1) ∧
    (¬ legal → step s = .next (s1.failedWith 8 (BitVec.ofNat 8 op) 0 0))

/-- A step whose access is a CMD write of an instruction's word is exec of that instruction, at the state in which the access has
been taken and its inputs are presented. -/
def Obligations.StepRunsTheDecodedCommand : Prop :=
  ∀ (s : State) (w : Word) (inp : InStream) (refused : List Nat) (rest : List HostAccess) (i : Instr),
    s.accesses = .write 0 32 w inp refused :: rest → decode w = .ok i →
    step s = exec i { s with accesses := rest, inp := inp, sinkRefuses := refused }

/-- The step after `withFetchWord` runs exactly the instruction of the table word, from the very state it was placed in.
Placing a command word as the host's next access is the model's choice: log 1. -/
def Obligations.FetchWordStepIsExec : Prop :=
  ∀ (s : State) (nbits w : Nat) (i : Instr),
    decodeTableWord nbits w = some i → step (s.withFetchWord nbits w) = exec i s

/-! ### Register accesses -/

/-- R38: an access is refused exactly when its offset is not a multiple of 4, is above 0xFF, or its width is not 32 bits; an
admitted read returns the register's word at that instant (the record `reads` of what reads returned is the model's own: log 5); an
admitted access always has a next state. -/
def Obligations.OnlyAlignedWordAccessesAreAdmitted : Prop :=
  ∀ (s : State) (off width : Nat) (w : Word) (inp : InStream) (refused : List Nat) (rest : List HostAccess),
    let admitted := off % 4 = 0 ∧ off ≤ 0xFF ∧ width = 32
    (s.accesses = .read off width :: rest →
      (admitted → step s = .next { s with accesses := rest, reads := s.reads ++ [regRead off s.blk] }) ∧
      (¬ admitted → ∃ r, step s = .refused r)) ∧
    (s.accesses = .write off width w inp refused :: rest →
      (admitted → ∃ t, step s = .next t) ∧
      (¬ admitted → ∃ r, step s = .refused r))

/-- Reads of CMD and of reserved offsets return 0, and a write to a read-only register or a reserved offset changes nothing in the
block. -/
def Obligations.ReservedAndReadOnlyOffsetsAreInert : Prop :=
  ∀ (s : State) (off : Nat) (w : Word) (inp : InStream) (refused : List Nat) (rest : List HostAccess), off % 4 = 0 → off ≤ 0xFF →
    ((off = 0 ∨ 0x54 ≤ off) → regRead off s.blk = 0) ∧
    (off ≠ 0 → off ≠ 0x10 → off ≠ 0x14 → off ≠ 0x18 → off ≠ 0x24 → off ≠ 0x28 → off ≠ 0x3C →
      s.accesses = .write off 32 w inp refused :: rest → step s = .next { s with accesses := rest })

/-- The writable registers store their defined fields, read them back, and change nothing else; a latched error does not stop them. -/
def Obligations.WritableRegistersStoreTheirFields : Prop :=
  ∀ (s : State) (off : Nat) (w : Word) (inp : InStream) (refused : List Nat) (rest : List HostAccess),
    s.accesses = .write off 32 w inp refused :: rest → s.blk.busy = false →
    let s1 := { s with accesses := rest }
    (off = 0x10 → step s = .next { s1 with blk := { s.blk with nameLen := w.extractLsb' 0 16 } }) ∧
    (off = 0x14 → ∃ b, step s = .next { s1 with blk := { s.blk with nameBuf := b } } ∧
      b.toList = [w.extractLsb' 0 8, w.extractLsb' 8 8, w.extractLsb' 16 8, w.extractLsb' 24 8] ++ s.blk.nameBuf.toList.drop 4) ∧
    (off = 0x18 → ∃ b, step s = .next { s1 with blk := { s.blk with nameBuf := b } } ∧
      b.toList = s.blk.nameBuf.toList.take 4 ++ [w.extractLsb' 0 8, w.extractLsb' 8 8, w.extractLsb' 16 8, w.extractLsb' 24 8]) ∧
    (off = 0x24 → step s = .next { s1 with blk := { s.blk with addr := w.extractLsb' 0 16 } }) ∧
    (off = 0x28 → step s = .next { s1 with blk := { s.blk with execAddr := w.extractLsb' 0 16 } }) ∧
    (∀ t, step s = .next t →
      (off = 0x14 ∨ off = 0x18 ∨ off = 0x3C → regRead off t.blk = w) ∧
      (off = 0x10 ∨ off = 0x24 ∨ off = 0x28 → (regRead off t.blk).toNat = w.toNat % 65536))

/-- R26: SEC_SEL takes the whole word, a write to it also clears VERIFY.VALID, it resets to 0, and it is the index VERIFY
checks and the SEC_* view registers show. -/
def Obligations.SecSelWriteClearsVerifyValid : Prop :=
  (∀ (s : State) (w : Word) (inp : InStream) (refused : List Nat) (rest : List HostAccess),
    s.accesses = .write 0x3C 32 w inp refused :: rest → s.blk.busy = false →
    step s = .next { s with accesses := rest, blk := { s.blk with secSel := w, verValid := false } }) ∧
  (∀ b : Block, regRead 0x3C b = b.secSel) ∧ State.reset.blk.secSel = 0 ∧
  (∀ (b : Block) (sec : Section), b.store[b.secSel.toNat]? = some sec →
    regRead 0x40 b = sec.info0 ∧ regRead 0x44 b = sec.info1 ∧ regRead 0x48 b = sec.info2 ∧ regRead 0x4C b = sec.wireLen) ∧
  (∀ (s t : State) (sec : Section), s.Ready → s.blk.store[s.blk.secSel.toNat]? = some sec → exec .verify s = .next t →
    t.blk.verHdrOk = sec.hdrOk ∧ t.blk.verPayOk = sec.payOk ∧ t.blk.verValid = true)

/-- The flag registers STATUS, ERR, ERR_OFFSET, CK and VERIFY hold their fields at their bits, and every other bit reads 0. -/
def Obligations.FlagRegistersHoldTheirBits : Prop :=
  ∀ b : Block,
    (regRead 0x04 b).toNat = b.busy.toNat + 2 * b.done.toNat + 4 * b.err.toNat + 8 * b.nameSet.toNat ∧
    (regRead 0x08 b).toNat = b.errCode.toNat + 256 * b.errOp.toNat ∧
    regRead 0x0C b = b.errOffset ∧
    (regRead 0x38 b).toNat = b.ckValue.toNat + 256 * b.ckEmpty.toNat ∧
    (regRead 0x50 b).toNat = b.verHdrOk.toNat + 2 * b.verPayOk.toNat + 8 * b.verValid.toNat

/-- R22: NAME0 reads name bytes 0..3 and NAME1 bytes 4..7, byte i of a register in bits 8i+7:8i; both reset to 0. -/
def Obligations.NameRegistersPackBytesLowFirst : Prop :=
  (∀ (b : Block) (i : Nat), i < 4 →
    some ((regRead 0x1C b).extractLsb' (8 * i) 8) = b.name.toList[i]? ∧
    some ((regRead 0x20 b).extractLsb' (8 * i) 8) = b.name.toList[4 + i]?) ∧
  regRead 0x1C State.reset.blk = 0 ∧ regRead 0x20 State.reset.blk = 0

/-- SECTION_COUNT is the number of sections, saturated; STORE_BYTES is the exact total; IN_COUNT is its state element. -/
def Obligations.CountRegistersCountTheStore : Prop :=
  ∀ s : State, s.Inv →
    (regRead 0x2C s.blk).toNat = min s.blk.store.length 0xFFFFFFFF ∧
    (regRead 0x30 s.blk).toNat = (s.blk.store.map fun sec => sec.wire.length).sum ∧
    regRead 0x34 s.blk = s.blk.inCount

/-- R27: the view registers show the fields of the section SEC_SEL selects, and read 0 when it selects none; they reset to 0. -/
def Obligations.ViewRegistersShowTheSelectedSection : Prop :=
  (∀ s : State, s.blk.store.length ≤ s.blk.secSel.toNat →
    regRead 0x40 s.blk = 0 ∧ regRead 0x44 s.blk = 0 ∧ regRead 0x48 s.blk = 0 ∧ regRead 0x4C s.blk = 0) ∧
  (∀ (s : State) (sec : Section), s.Inv → s.blk.store[s.blk.secSel.toNat]? = some sec →
    (regRead 0x40 s.blk).extractLsb' 0 8 = sec.typeByte ∧ (regRead 0x40 s.blk).extractLsb' 8 8 = sec.lenByte ∧
    ((regRead 0x40 s.blk).extractLsb' 16 9).toNat = sec.payLen ∧
    (regRead 0x40 s.blk).getLsbD 25 = decide (sec.payLen > 0) ∧ (regRead 0x40 s.blk).extractLsb' 26 6 = 0 ∧
    (regRead 0x44 s.blk).extractLsb' 0 16 = sec.addrField ∧ (regRead 0x44 s.blk).extractLsb' 16 16 = sec.execField ∧
    (regRead 0x48 s.blk).extractLsb' 0 8 = sec.hdrCk ∧
    (regRead 0x48 s.blk).extractLsb' 8 8 = (if sec.payLen > 0 then sec.payCk else 0) ∧
    ((regRead 0x48 s.blk).extractLsb' 16 16).toNat = min sec.syncLen 0xFFFF ∧
    (regRead 0x4C s.blk).toNat = sec.wire.length) ∧
  regRead 0x40 State.reset.blk = 0 ∧ regRead 0x44 State.reset.blk = 0 ∧ regRead 0x48 State.reset.blk = 0 ∧
  regRead 0x4C State.reset.blk = 0

/-! ### Reset -/

/-- R111: RST puts every element of the block's state to its reset value, so every register reads 0; the accepted beats stay; the
reset state is that block. -/
def Obligations.RstResetsEveryElementOfTheBlock : Prop :=
  let zero : Bytes8 := ⟨0, 0, 0, 0, 0, 0, 0, 0⟩
  let b0 : Block :=
    { name := zero, nameSet := false, nameLen := 0, nameBuf := zero, addr := 0, execAddr := 0, secSel := 0, store := [],
      busy := false, done := false, err := false, errCode := 0, errOp := 0, errOffset := 0, inCount := 0, ckValue := 0,
      ckEmpty := false, verHdrOk := false, verPayOk := false, verValid := false }
  (∀ (s : State) (rest : List HostAccess), s.accesses = .rst :: rest → step s = .next { s with accesses := rest, blk := b0 }) ∧
  (∀ off, off % 4 = 0 → off ≤ 0xFF → regRead off b0 = 0) ∧ State.reset.blk = b0

/-! ### The command frame -/

/-- R87: a write to any register while BUSY = 1 is ignored, whatever the register. -/
def Obligations.BusyBlockIgnoresEveryWrite : Prop :=
  ∀ (s : State) (off : Nat) (w : Word) (inp : InStream) (refused : List Nat) (rest : List HostAccess),
    s.accesses = .write off 32 w inp refused :: rest → off % 4 = 0 → off ≤ 0xFF → s.blk.busy = true →
    ∃ t, step s = .next t ∧ t.blk = s.blk ∧ t.out = s.out

/-- R104: a latched error stays until CLR_ERR or reset, whatever else the host does; every other command word is dropped with no
effect at all; register writes other than to CMD still take effect; CLR_ERR clears it and restores nothing. -/
def Obligations.LatchedErrorStaysUntilClrErrOrReset : Prop :=
  ∀ s : State, s.blk.busy = false → s.blk.err = true →
    (∀ (a : HostAccess) (rest : List HostAccess) (t : State), s.accesses = a :: rest → a ≠ .rst →
      (∀ inp refused, a ≠ .write 0 32 0x00000009#32 inp refused) → step s = .next t →
      t.blk.err = true ∧ t.blk.errCode = s.blk.errCode ∧ t.blk.errOp = s.blk.errOp ∧ t.blk.errOffset = s.blk.errOffset) ∧
    (∀ (w : Word) inp refused rest, s.accesses = .write 0 32 w inp refused :: rest → w ≠ 0x00000009#32 →
      step s = .next { s with accesses := rest, inp := inp, sinkRefuses := refused }) ∧
    (∀ (w : Word) inp refused rest, s.accesses = .write 0x10 32 w inp refused :: rest →
      ∃ t, step s = .next t ∧ t.blk.nameLen = w.extractLsb' 0 16) ∧
    (∀ (w : Word) inp refused rest, s.accesses = .write 0x14 32 w inp refused :: rest →
      ∃ t, step s = .next t ∧ regRead 0x14 t.blk = w) ∧
    (∀ (w : Word) inp refused rest, s.accesses = .write 0x18 32 w inp refused :: rest →
      ∃ t, step s = .next t ∧ regRead 0x18 t.blk = w) ∧
    (∀ (w : Word) inp refused rest, s.accesses = .write 0x24 32 w inp refused :: rest →
      ∃ t, step s = .next t ∧ t.blk.addr = w.extractLsb' 0 16) ∧
    (∀ (w : Word) inp refused rest, s.accesses = .write 0x28 32 w inp refused :: rest →
      ∃ t, step s = .next t ∧ t.blk.execAddr = w.extractLsb' 0 16) ∧
    (∀ (w : Word) inp refused rest, s.accesses = .write 0x3C 32 w inp refused :: rest →
      ∃ t, step s = .next t ∧ t.blk.secSel = w) ∧
    (∀ rest, s.accesses = .rst :: rest → ∃ t, step s = .next t ∧ t.blk.err = false) ∧
    exec .clrErr s = .next { s with blk := { s.blk with
      err := false, errCode := 0, errOp := 0, errOffset := 0, done := true, inCount := 0 } }

/-- The error gate: with an error latched every command but CLR_ERR leaves the whole state as it is. -/
def Obligations.ErrorGateDropsEveryOtherCommand : Prop :=
  ∀ (s : State) (i : Instr), s.blk.err = true → i ≠ .clrErr → exec i s = .next s

/-- R103: a command that fails leaves the state before it, but for IN_COUNT, the accepted beats and the error record: the error's
code, the failing OP, the saturated offset. -/
def Obligations.FailedCommandRestoresTheSnapshot : Prop :=
  ∀ (s t : State) (i : Instr), s.Ready → exec i s = .next t → t.blk.err = true →
    ∃ (e : CmdError) (off : Nat) (beats : List Beat),
      t = { s.failedWith e.code ((encode i).extractLsb' 0 8) off t.blk.inCount with out := s.out ++ beats }

/-- A command that ends without an error ends by `finish`: DONE = 1, BUSY = 0, the error record clear. -/
def Obligations.SuccessfulCommandReportsDone : Prop :=
  ∀ (s t : State) (i : Instr), s.Inv → (s.blk.err = false ∨ i = .clrErr) → exec i s = .next t → t.blk.err = false →
    t.blk.done = true ∧ t.blk.busy = false ∧ t.blk.errCode = 0 ∧ t.blk.errOp = 0 ∧ t.blk.errOffset = 0

/-- Which errors each command raises, and no other (the Raised by column of R99). -/
def Obligations.EachCommandRaisesOnlyItsErrors : Prop :=
  ∀ (s t : State) (i : Instr), s.Ready → exec i s = .next t → t.blk.err = true →
    (t.blk.errCode = 1 → i = .setName ∨ i = .fromBinary ∨ i = .fromBinaryX) ∧
    (t.blk.errCode = 2 → i = .decode) ∧
    (t.blk.errCode = 3 → i = .toBytes) ∧
    (t.blk.errCode = 4 → i = .checksum ∨ i = .appendData ∨ i = .appendComment ∨ i = .appendEnd ∨ i = .appendExec ∨
      i = .fromBinary ∨ i = .fromBinaryX ∨ i = .decode) ∧
    (t.blk.errCode = 5 → i = .decode) ∧
    (t.blk.errCode = 6 → i = .appendData ∨ i = .appendComment ∨ i = .appendEnd ∨ i = .appendExec) ∧
    (t.blk.errCode = 7 → i = .appendData ∨ i = .appendComment ∨ i = .appendEnd ∨ i = .appendExec) ∧
    t.blk.errCode ≠ 8 ∧
    (t.blk.errCode = 9 → i = .verify) ∧
    (t.blk.errCode = 10 → i = .appendData ∨ i = .appendComment ∨ i = .appendEnd ∨ i = .appendExec ∨
      i = .fromBinary ∨ i = .fromBinaryX ∨ i = .decode) ∧
    1 ≤ t.blk.errCode.toNat ∧ t.blk.errCode.toNat ≤ 10

/-! ### The commands: each one's effect, and each of its errors -/

/-- R61: CHECKSUM latches the checksum of the whole input in CK, or reports the read failure. -/
def Obligations.ChecksumLatchesTheInputsChecksum : Prop :=
  encode .checksum = 0x00000008#32 ∧ ∀ s : State, s.Ready →
    let d := s.inp.bytes
    (s.inp.fails = false → exec .checksum s = .next
      { s with blk := { s.blk with
          done := true, inCount := BitVec.ofNat 32 (min d.length 0xFFFFFFFF), ckEmpty := decide (d = []),
          ckValue := if d = [] then 0 else BitVec.ofNat 8 ((256 - (d.map BitVec.toNat).sum % 256) % 256) } }) ∧
    (s.inp.fails = true → exec .checksum s = .next (s.failedWith 4 0x08 d.length (BitVec.ofNat 32 (min d.length 0xFFFFFFFF))))

/-- R63: SET_NAME commits the proposed name, right-padded with 0x20 to 8 bytes, or fails with NameTooLong when NAME_LEN > 8. -/
def Obligations.SetNameCommitsThePaddedName : Prop :=
  encode .setName = 0x00000001#32 ∧ ∀ s : State, s.Ready →
    let n := s.blk.nameLen.toNat
    (n ≤ 8 → ∃ n8 : Bytes8, n8.toList = s.blk.nameBuf.toList.take n ++ List.replicate (8 - n) 0x20#8 ∧
      exec .setName s = .next { s with blk := { s.blk with name := n8, nameSet := true, done := true, inCount := 0 } }) ∧
    (8 < n → exec .setName s = .next (s.failedWith 1 0x01 0 0))

/-- R67: APPEND_SECTION appends the encoded section, or fails with NameNotSet, SourceReadFailure, PayloadTooLong or StoreOverflow,
in this order. -/
def Obligations.AppendSectionAppendsTheEncodedSection : Prop :=
  [Instr.appendData, .appendComment, .appendEnd, .appendExec].map encode =
    [0x00000003#32, 0x00000103#32, 0x00000203#32, 0x00000303#32] ∧
  ∀ (s : State) (i : Instr) (type : SectionType), s.Ready →
    (i, type) ∈ [(Instr.appendData, SectionType.data), (Instr.appendComment, SectionType.comment),
      (Instr.appendEnd, SectionType.end_), (Instr.appendExec, SectionType.exec)] →
    let d := s.inp.bytes
    let count : Word := BitVec.ofNat 32 (min d.length 0xFFFFFFFF)
    let w := frame s.blk.name.toList s.blk.addr d type
    (s.blk.nameSet = true → s.inp.fails = false → d.length ≤ 256 → total s.blk.store + w.length ≤ s.capacity →
      exec i s = .next { s with blk := { s.blk with
        store := s.blk.store ++ [⟨w, 16, d.length⟩], verValid := false, done := true, inCount := count } }) ∧
    (s.blk.nameSet = false → exec i s = .next (s.failedWith 6 0x03 0 0)) ∧
    (s.blk.nameSet = true → s.inp.fails = true → exec i s = .next (s.failedWith 4 0x03 d.length count)) ∧
    (s.blk.nameSet = true → s.inp.fails = false → 256 < d.length → exec i s = .next (s.failedWith 7 0x03 256 count)) ∧
    (s.blk.nameSet = true → s.inp.fails = false → d.length ≤ 256 → s.capacity < total s.blk.store + w.length →
      exec i s = .next (s.failedWith 10 0x03 0 count))

/-- R68: CLEAR empties the store, clears VERIFY.VALID, and changes nothing else. -/
def Obligations.ClearEmptiesTheStore : Prop :=
  encode .clear = 0x00000002#32 ∧ ∀ s : State, s.Ready →
    exec .clear s = .next { s with blk := { s.blk with store := [], verValid := false, done := true, inCount := 0 } }

/-- R73: FROM_BINARY replaces the store by the program of the input and commits the name, or fails with NameTooLong (no input
read), SourceReadFailure or StoreOverflow, in this order. -/
def Obligations.FromBinaryReplacesTheStoreByTheProgram : Prop :=
  encode .fromBinary = 0x00000004#32 ∧ encode .fromBinaryX = 0x00000404#32 ∧
  ∀ (s : State) (i : Instr) (x : Bool), s.Ready → (i, x) ∈ [(Instr.fromBinary, false), (Instr.fromBinaryX, true)] →
    let n := s.blk.nameLen.toNat
    let d := s.inp.bytes
    let count : Word := BitVec.ofNat 32 (min d.length 0xFFFFFFFF)
    (n ≤ 8 → ∃ n8 : Bytes8, n8.toList = s.blk.nameBuf.toList.take n ++ List.replicate (8 - n) 0x20#8 ∧
      let S := program n8.toList s.blk.addr x s.blk.execAddr d
      (s.inp.fails = false → total S ≤ s.capacity →
        exec i s = .next { s with blk := { s.blk with
          store := S, name := n8, nameSet := true, verValid := false, done := true, inCount := count } }) ∧
      (s.inp.fails = true → exec i s = .next (s.failedWith 4 0x04 d.length count)) ∧
      (s.inp.fails = false → s.capacity < total S → exec i s = .next (s.failedWith 10 0x04 0 count))) ∧
    (8 < n → exec i s = .next (s.failedWith 1 0x04 0 0))

/-- R74: TO_BYTES offers one beat for each byte of the store in order, sos on a section's first byte and eos on its last; the first
refused beat raises SinkWriteFailure with its index, and the beats before it stay accepted. -/
def Obligations.ToBytesEmitsTheStoreBeatByBeat : Prop :=
  encode .toBytes = 0x00000005#32 ∧ ∀ s : State, s.Ready →
    let beats := s.blk.store.flatMap fun sec =>
      sec.wire.mapIdx fun i b => { data := b, sos := i == 0, eos := i + 1 == sec.wire.length }
    ((∀ k, k < beats.length → k ∉ s.sinkRefuses) →
      exec .toBytes s = .next { s with out := s.out ++ beats, blk := { s.blk with done := true, inCount := 0 } }) ∧
    (∀ k, k < beats.length → k ∈ s.sinkRefuses → (∀ j, j < k → j ∉ s.sinkRefuses) →
      exec .toBytes s = .next { s.failedWith 3 0x05 k 0 with out := s.out ++ beats.take k })

/-- R79: DECODE makes the parsed sections the store, or fails with SourceReadFailure, the parse's error at its offset, or
StoreOverflow, in this order. -/
def Obligations.DecodeReplacesTheStoreByTheParse : Prop :=
  encode .decode = 0x00000006#32 ∧ ∀ s : State, s.Ready →
    let buf := s.inp.bytes
    let count : Word := BitVec.ofNat 32 (min buf.length 0xFFFFFFFF)
    (∀ S, s.inp.fails = false → parse buf = .ok S → total S ≤ s.capacity →
      total S = buf.length ∧ exec .decode s = .next { s with blk := { s.blk with store := S, verValid := false, done := true, inCount := count } }) ∧
    (s.inp.fails = true → exec .decode s = .next (s.failedWith 4 0x06 buf.length count)) ∧
    (∀ e off, s.inp.fails = false → parse buf = .error (e, off) →
      (e = .badFraming ∨ e = .truncatedSection) ∧ exec .decode s = .next (s.failedWith e.code 0x06 off count)) ∧
    (∀ S, s.inp.fails = false → parse buf = .ok S → s.capacity < total S →
      exec .decode s = .next (s.failedWith 10 0x06 0 count))

/-- R83: VERIFY latches whether the header checksum and the payload checksum of the selected section are right, or fails with
BadSelect and the value of SEC_SEL; each bit is set exactly when the stored byte is the checksum; encoder-made sections verify. -/
def Obligations.VerifyChecksTheSelectedSection : Prop :=
  encode .verify = 0x00000007#32 ∧
  (∀ sec : Section, sec.wf = true →
    ((sec.hdrOk = true ↔ checksum sec.hdrBody = [sec.hdrCk]) ∧
    (sec.payLen > 0 → (sec.payOk = true ↔ checksum sec.payload = [sec.payCk])))) ∧
  (∀ (n8 : Bytes8) (address : Half) (d : List Byte) (type : SectionType), d.length ≤ 256 →
    (sectionOf n8.toList address d type).hdrOk = true ∧ (sectionOf n8.toList address d type).payOk = true) ∧
  ∀ s : State, s.Ready →
    (∀ sec, s.blk.store[s.blk.secSel.toNat]? = some sec →
      exec .verify s = .next { s with blk := { s.blk with
        verHdrOk := decide (((sec.hdrBody.map BitVec.toNat).sum + sec.hdrCk.toNat) % 256 = 0),
        verPayOk := decide (sec.payLen = 0 ∨ ((sec.payload.map BitVec.toNat).sum + sec.payCk.toNat) % 256 = 0),
        verValid := true, done := true, inCount := 0 } }) ∧
    (s.blk.store.length ≤ s.blk.secSel.toNat → exec .verify s = .next (s.failedWith 9 0x07 s.blk.secSel.toNat 0))

/-- R86: CLR_ERR clears the error record, latched or not, and changes nothing else but DONE and IN_COUNT; a word with
OP = 0x09 and any other bit set is dropped while an error is latched and illegal otherwise. -/
def Obligations.ClrErrClearsTheErrorRecord : Prop :=
  encode .clrErr = 0x00000009#32 ∧ ∀ s : State, s.blk.busy = false →
    exec .clrErr s = .next { s with blk := { s.blk with
      err := false, errCode := 0, errOp := 0, errOffset := 0, done := true, inCount := 0 } } ∧
    (∀ w : Word, w.toNat % 256 = 9 → w ≠ 0x00000009#32 →
      (s.blk.err = true → issue w s = .next s) ∧ (s.blk.err = false → issue w s = .next (s.failedWith 8 9 0 0)))

/-! ### Frames -/

/-- No command writes an operand register or anything outside the block but the record of accepted beats, whether it succeeds, fails
or is dropped. -/
def Obligations.CommandsKeepTheOperandRegisters : Prop :=
  ∀ (i : Instr) (s t : State), exec i s = .next t →
    t.blk.nameLen = s.blk.nameLen ∧ t.blk.nameBuf = s.blk.nameBuf ∧ t.blk.addr = s.blk.addr ∧
    t.blk.execAddr = s.blk.execAddr ∧ t.blk.secSel = s.blk.secSel ∧ t.capacity = s.capacity ∧ t.reads = s.reads ∧
    t.inp = s.inp ∧ t.sinkRefuses = s.sinkRefuses ∧ t.accesses = s.accesses ∧ (i ≠ .toBytes → t.out = s.out)

/-- Whatever the host does next, the name and NAME_SET change only by SET_NAME, FROM_BINARY and reset. -/
def Obligations.NameChangesOnlyBySetNameAndFromBinary : Prop :=
  ∀ (s t : State) (a : HostAccess) (rest : List HostAccess), s.accesses = a :: rest → step s = .next t →
    (t.blk.name ≠ s.blk.name ∨ t.blk.nameSet ≠ s.blk.nameSet) →
    a = .rst ∨ ∃ w inp refused, a = .write 0 32 w inp refused ∧ (w = 0x00000001#32 ∨ w = 0x00000004#32 ∨ w = 0x00000404#32)

/-- Whatever the host does next, the store changes only by CLEAR, APPEND_SECTION, FROM_BINARY, DECODE and reset, and then
VERIFY.VALID is clear. -/
def Obligations.StoreChangesOnlyByItsCommands : Prop :=
  ∀ (s t : State) (a : HostAccess) (rest : List HostAccess), s.accesses = a :: rest → step s = .next t →
    t.blk.store ≠ s.blk.store →
    t.blk.verValid = false ∧
    (a = .rst ∨ ∃ w inp refused, a = .write 0 32 w inp refused ∧
      w ∈ [0x00000002#32, 0x00000003#32, 0x00000103#32, 0x00000203#32, 0x00000303#32, 0x00000004#32, 0x00000404#32, 0x00000006#32])

/-- Whatever the host does next, CK changes only by CHECKSUM and reset, and VERIFY.HDR_OK and PAY_OK only by VERIFY and reset. -/
def Obligations.ResultRegistersChangeOnlyByTheirCommands : Prop :=
  ∀ (s t : State) (a : HostAccess) (rest : List HostAccess), s.accesses = a :: rest → step s = .next t →
    ((t.blk.ckValue ≠ s.blk.ckValue ∨ t.blk.ckEmpty ≠ s.blk.ckEmpty) →
      a = .rst ∨ ∃ inp refused, a = .write 0 32 0x00000008#32 inp refused) ∧
    ((t.blk.verHdrOk ≠ s.blk.verHdrOk ∨ t.blk.verPayOk ≠ s.blk.verPayOk ∨ (s.blk.verValid = false ∧ t.blk.verValid = true)) →
      a = .rst ∨ ∃ inp refused, a = .write 0 32 0x00000007#32 inp refused)

/-- R84: a command that reads no input ignores `inp`, and a command other than TO_BYTES ignores `sink_ok`: with another IN stream or
another sink it leaves the same block and the same beats. -/
def Obligations.InputsReachOnlyTheCommandsThatReadThem : Prop :=
  ∀ (s : State) (i : Instr) (inp : InStream) (refused : List Nat),
    (i ∈ [Instr.setName, .clear, .toBytes, .verify, .clrErr] →
      ∃ t u, exec i s = .next t ∧ exec i { s with inp := inp } = .next u ∧ u = { t with inp := inp }) ∧
    (i ≠ .toBytes →
      ∃ t u, exec i s = .next t ∧ exec i { s with sinkRefuses := refused } = .next u ∧ u = { t with sinkRefuses := refused })

/-- IN_COUNT after an executed command is the saturated length of its input if the command reached its ReadInput, and 0 otherwise: a
name error comes before any input is read (R119), a failing read still counts (R30). -/
def Obligations.InCountTellsWhatWasRead : Prop :=
  ∀ (s t : State) (i : Instr), s.Ready → exec i s = .next t →
    let read := i = .checksum ∨ i = .decode ∨
      (i ∈ [Instr.appendData, .appendComment, .appendEnd, .appendExec] ∧ s.blk.nameSet = true) ∨
      ((i = .fromBinary ∨ i = .fromBinaryX) ∧ s.blk.nameLen.toNat ≤ 8)
    (read → t.blk.inCount.toNat = min s.inp.bytes.length 0xFFFFFFFF) ∧ (¬ read → t.blk.inCount = 0)

/-- No step takes back an accepted beat, reset included: the port record only grows, and only a TO_BYTES write adds to it. -/
def Obligations.AcceptedBeatsAreNeverTakenBack : Prop :=
  ∀ s t : State, step s = .next t →
    ∃ beats, t.out = s.out ++ beats ∧
      (beats ≠ [] → ∃ inp refused rest, s.accesses = .write 0 32 0x00000005#32 inp refused :: rest)

/-! ### Checksum and section format -/

/-- R59, the checksum law. -/
def Obligations.ChecksumMakesTheSumZero : Prop :=
  (∀ s : List Byte, s ≠ [] → ∃ c, checksum s = [c] ∧ ((s.map BitVec.toNat).sum + c.toNat) % 256 = 0) ∧ checksum [] = []

/-- R60: only the empty sequence has no checksum byte; the checksum depends only on the sum modulo 256, so not on the order; any
single-byte change changes it; the rule's example values. -/
def Obligations.ChecksumSeesTheSumAndEverySingleChange : Prop :=
  (∀ s : List Byte, checksum s = [] ↔ s = []) ∧
  (∀ s t : List Byte, s ≠ [] → t ≠ [] →
    (checksum s = checksum t ↔ (s.map BitVec.toNat).sum % 256 = (t.map BitVec.toNat).sum % 256)) ∧
  (∀ s t : List Byte, s.Perm t → checksum s = checksum t) ∧
  (∀ s : List Byte, s ≠ [] → checksum (s ++ List.replicate 256 0) = checksum s) ∧
  (∀ (p q : List Byte) (b c : Byte), b ≠ c → checksum (p ++ b :: q) ≠ checksum (p ++ c :: q)) ∧
  checksum [0x00] = [0x00] ∧ checksum [0x80, 0x80] = [0x00] ∧ checksum [0xFF, 0x01] = [0x00] ∧
  checksum (List.replicate 188 0) = [0x00] ∧ checksum [0x01] = [0xFF] ∧ checksum [0xFF] = [0x01] ∧
  checksum [0x01, 0x02, 0x03] = [0xFA]

/-- R55, R56, R64: the wire layout of an encoded section, field by field and offset by offset. -/
def Obligations.EncodedSectionHasTheWireLayout : Prop :=
  ∀ (n8 : Bytes8) (address : Half) (d : List Byte) (type : SectionType), d.length ≤ 256 →
    let w := frame n8.toList address d type
    let a : Half := if type = .exec then 0 else address
    let e : Half := if type = .exec then address else 0
    w.length = 32 + d.length + (if d.length > 0 then 1 else 0) ∧
    w.take 16 = List.replicate 16 0xE6#8 ∧ w[16]? = some 0x01#8 ∧
    (w.drop 17).take 8 = n8.toList ∧
    w[25]? = some (BitVec.ofNat 8 (a.toNat % 256)) ∧ w[26]? = some (BitVec.ofNat 8 (a.toNat / 256)) ∧
    w[27]? = some (BitVec.ofNat 8 (d.length % 256)) ∧
    w[28]? = some (BitVec.ofNat 8 (e.toNat % 256)) ∧ w[29]? = some (BitVec.ofNat 8 (e.toNat / 256)) ∧
    w[30]? = some (match type with | .data => 0x00#8 | .comment => 0x01#8 | .end_ => 0x02#8 | .exec => 0x03#8) ∧
    (w.drop 31).take 1 = checksum ((w.drop 17).take 14) ∧
    (w.drop 32).take d.length = d ∧
    w.drop (32 + d.length) = checksum d

/-- Every section the encoder makes meets the invariants of R14 and verifies with HDR_OK = PAY_OK = 1. -/
def Obligations.EncodedSectionsAreWellFormedAndVerify : Prop :=
  ∀ (n8 : Bytes8) (address : Half) (d : List Byte) (type : SectionType), d.length ≤ 256 →
    let sec := sectionOf n8.toList address d type
    sec.wf = true ∧ sec.hdrOk = true ∧ sec.payOk = true ∧ sec.payload = d ∧ sec.nameField = n8.toList ∧
    sec.typeByte = type.code

/-! ### The program container -/

/-- R72: the number of sections of a program, their wire lengths, and the length of its tape image. -/
def Obligations.ProgramHasTheStatedSectionLengths : Prop :=
  ∀ (n8 : Bytes8) (address : Half) (x : Bool) (e : Half) (d : List Byte),
    let S := program n8.toList address x e d
    let D := d.length
    S.length = 3 + (D + 255) / 256 ∧
    S.map (fun sec => sec.wire.length) =
      [46] ++ List.replicate (D / 256) 289 ++ (if D % 256 > 0 then [33 + D % 256] else []) ++ [44, 32] ∧
    (tapeImage S).length = 122 + 289 * (D / 256) + (if D % 256 > 0 then 33 + D % 256 else 0)

/-- R70: a program is a Comment section carrying LOADING START, the Data sections, a Comment section carrying LOADING END, and the
terminator; Data section i carries chunk i at (address + 256*i) mod 65536, and the chunks joined are the binary. -/
def Obligations.ProgramCarriesTheBinaryAtRisingAddresses : Prop :=
  ∀ (n8 : Bytes8) (address : Half) (x : Bool) (e : Half) (d : List Byte),
    let S := program n8.toList address x e d
    S.map (fun sec => sec.typeByte) =
      [0x01#8] ++ List.replicate ((d.length + 255) / 256) 0x00#8 ++ [0x01#8] ++ [if x then 0x03#8 else 0x02#8] ∧
    (S.map fun sec => sec.payload).flatten = Config.startText ++ d ++ Config.endText ∧
    (∀ i, i < (d.length + 255) / 256 → ∃ sec, S[1 + i]? = some sec ∧
      sec.payload = (d.drop (256 * i)).take 256 ∧ sec.addrField.toNat = (address.toNat + 256 * i) % 65536) ∧
    (∀ sec ∈ S, sec.nameField = n8.toList)

/-- R71: exactly one terminator ends every program: Exec with the exec address when one is supplied, End otherwise; its payload is
empty and it is 32 bytes long. -/
def Obligations.ProgramEndsWithExactlyOneTerminator : Prop :=
  ∀ (n8 : Bytes8) (address : Half) (x : Bool) (e : Half) (d : List Byte),
    let S := program n8.toList address x e d
    ∃ sec, S.filter (fun sec => sec.typeByte == 2#8 || sec.typeByte == 3#8) = [sec] ∧ S.getLast? = some sec ∧
      sec.typeByte = (if x then 3 else 2) ∧ sec.addrField = 0 ∧ sec.execField = (if x then e else 0) ∧
      sec.payLen = 0 ∧ sec.wire.length = 32

/-! ### The stream parser -/

/-- R75: the logical payload length. -/
def Obligations.LogicalLengthFollowsLengthAndTypeByte : Prop :=
  ∀ lb ty : Byte, loglen lb ty =
    if lb.toNat = 0 then (if ty.toNat = 2 ∨ ty.toNat = 3 then 0 else 256) else lb.toNat

/-- R80: every section the parser makes is round-trip safe; an encoded section is round-trip safe exactly for the stated types and
lengths; every section of a program is. -/
def Obligations.RoundTripSafeSections : Prop :=
  (∀ (buf : List Byte) (S : List Section), parse buf = .ok S → ∀ sec ∈ S, loglen sec.lenByte sec.typeByte = sec.payLen) ∧
  (∀ (n8 : Bytes8) (address : Half) (d : List Byte) (type : SectionType), d.length ≤ 256 →
    let sec := sectionOf n8.toList address d type
    (loglen sec.lenByte sec.typeByte = sec.payLen ↔
      ((type = .data ∨ type = .comment) ∧ 1 ≤ d.length) ∨ ((type = .end_ ∨ type = .exec) ∧ d.length ≤ 255))) ∧
  (∀ (n8 : Bytes8) (address : Half) (x : Bool) (e : Half) (d : List Byte),
    ∀ sec ∈ program n8.toList address x e d, loglen sec.lenByte sec.typeByte = sec.payLen)

/-- The parser recovers exactly the tape images: it answers the sections S on the bytes buf exactly when S are well-formed
round-trip safe sections and buf is their image. So a parse loses no byte, and an image has one parse. -/
def Obligations.ParseSucceedsExactlyOnSafeImages : Prop :=
  ∀ (buf : List Byte) (S : List Section),
    parse buf = .ok S ↔ tapeImage S = buf ∧ ∀ sec ∈ S, sec.wf = true ∧ sec.roundTripSafe = true

/-- Input that ends inside a section fails with TruncatedSection at the offset of that section's first sync byte, wherever it is
cut. -/
def Obligations.CutSectionIsTruncated : Prop :=
  ∀ (S : List Section) (sec : Section) (n : Nat),
    (∀ x ∈ S, x.wf = true ∧ x.roundTripSafe = true) → sec.wf = true → sec.roundTripSafe = true →
    0 < n → n < sec.wire.length →
    parse (tapeImage S ++ sec.wire.take n) = .error (.truncatedSection, (tapeImage S).length)

/-- A byte that is not 0xE6 where a section must start fails with BadFraming at that byte, and so does a sync run that is not ended
by 0x01, at the byte that ends it; nothing is skipped. -/
def Obligations.NoiseIsBadFraming : Prop :=
  ∀ (S : List Section) (b : Byte) (k : Nat) (rest : List Byte),
    (∀ x ∈ S, x.wf = true ∧ x.roundTripSafe = true) → b ≠ 0xE6#8 → (k > 0 → b ≠ 0x01#8) →
    parse (tapeImage S ++ List.replicate k 0xE6#8 ++ b :: rest) = .error (.badFraming, (tapeImage S).length + k)

/-- R82: a store with a section that is not round-trip safe does not come back from its image; an empty Data or Comment section alone is truncated at its first
byte, and a 256-byte End or Exec section fails with BadFraming at its payload's first byte unless that byte is 0xE6. -/
def Obligations.UnsafeSectionsDoNotRoundTrip : Prop :=
  ∀ (n8 : Bytes8) (address : Half),
    (∀ (S : List Section) (sec : Section), sec ∈ S → sec.roundTripSafe = false → parse (tapeImage S) ≠ .ok S) ∧
    (∀ type, (type = SectionType.data ∨ type = SectionType.comment) →
      parse (frame n8.toList address [] type) = .error (.truncatedSection, 0)) ∧
    (∀ (type : SectionType) (b : Byte) (d : List Byte), (type = .end_ ∨ type = .exec) → d.length = 255 → b ≠ 0xE6#8 →
      parse (frame n8.toList address (b :: d) type) = .error (.badFraming, 32))

/-- R81: if every section in the store is round-trip safe, DECODE of the complete output of TO_BYTES yields the same store. -/
def Obligations.DecodeOfToBytesRestoresTheStore : Prop :=
  ∀ s : State, s.Inv → s.blk.err = false → s.sinkRefuses = [] → (∀ sec ∈ s.blk.store, sec.roundTripSafe = true) →
    ∃ t u, exec .toBytes s = .next t ∧
      exec .decode { t with inp := ⟨(t.out.drop s.out.length).map (fun b => b.data), false⟩ } = .next u ∧
      u.blk.err = false ∧ u.blk.done = true ∧ u.blk.store = s.blk.store ∧
      u.blk.inCount.toNat = total s.blk.store

/-- R81, in particular: FROM_BINARY, then TO_BYTES, then DECODE of the emitted bytes gives back the sections FROM_BINARY made, for
every binary, address, exec choice and valid name. -/
def Obligations.FromBinaryRoundTrips : Prop :=
  ∀ (s : State) (i : Instr) (x : Bool), s.Inv → s.blk.err = false → s.inp.fails = false → s.sinkRefuses = [] →
    (i, x) ∈ [(Instr.fromBinary, false), (Instr.fromBinaryX, true)] → s.blk.nameLen.toNat ≤ 8 →
    (122 + 289 * (s.inp.bytes.length / 256) +
      (if s.inp.bytes.length % 256 > 0 then 33 + s.inp.bytes.length % 256 else 0)) ≤ s.capacity →
    ∃ r t u, exec i s = .next r ∧ r.blk.err = false ∧
      r.blk.store = program r.blk.name.toList s.blk.addr x s.blk.execAddr s.inp.bytes ∧
      exec .toBytes r = .next t ∧
      exec .decode { t with inp := ⟨(t.out.drop r.out.length).map (fun b => b.data), false⟩ } = .next u ∧
      u.blk.err = false ∧ u.blk.store = r.blk.store

/-! ### Invariants -/

/-- The reset state meets the invariant: nothing more than `State.Inv` says. The capacity of `State.reset` is the model's choice (log 2),
and so is its empty record of accepted beats (log 4), on which the invariant's clause about the beats rests here. -/
def Obligations.ResetStateMeetsInvariant : Prop := State.reset.Inv

/-- Every step keeps the invariant: the block idle, the sections of the store well formed and within the capacity, the error record
sound, VERIFY's result about the selected section while VALID, no beat with both flags. -/
def Obligations.EveryStepKeepsInvariant : Prop := ∀ s t : State, s.Inv → step s = .next t → t.Inv

/-! ### Host notation and the neighbours' contract -/

/-- The pseudo-instruction SETNAME commits the text, padded, as the program name, whatever stood in the name registers before. -/
def Obligations.SetNamePseudoInstructionCommitsTheText : Prop :=
  ∀ (s : State) (text : List Byte) (rest : List HostAccess), s.Ready → text.length ≤ 8 →
    s.accesses = lineSetName text ++ rest →
    ∃ t, Host.Core.run core 4 s = .next t ∧ t.accesses = rest ∧
      t.blk.name.toList = text ++ List.replicate (8 - text.length) 0x20#8 ∧ t.blk.nameSet = true ∧ t.blk.done = true ∧
      t.blk.err = false ∧ t.blk.store = s.blk.store

/-- R94: the sample counts of the two modulator variants for the beats of a store of N sections and B bytes; at 48000 samples a second
one ByteEncoded byte lasts 1760/48000 s = 11/300 s, the same as one paced byte. I10 calls the counts stated for the defaults of the rates;
that they hold at every other sample rate too is the model's choice (log 12). -/
def Obligations.ModulatorSampleCounts : Prop :=
  ∀ (m : Downstream.Modulator) (store : List Section), (∀ sec ∈ store, sec.wf = true) →
    let B := total store
    let N := store.length
    let w := m.waveform (storeBeats store)
    (m.variant = .byte → w.samples.length = 1760 * B ∧
      (m.sampleRate = 48000 → w.duration = (B : Rat) * (1760 / 48000) ∧ (1760 : Rat) / 48000 = 11 / 300)) ∧
    (m.variant = .poly → w.samples.length = 20 * m.polyPreambleReps + 24000 * N + 160 * B) ∧
    (∀ t : Config.Transmitter, t.baud = 300 → Downstream.byteDelay t = 11 / 300)

/-- The tone blocks are sampled sines of 4 and 8 cycles over 160 samples, with TONE_AMPLITUDE, the starting phase and the rounding of the
caller. Of the model's choice: an amplitude is 0..32767 (log 14); both tones share one phase, added to the angle, and one rounding, which
answers an integer less than 1 away (log 15); the blocks keep their 160 samples, their 4 or 8 cycles and their number, 11 a byte, at
every sample rate, where I10 states the counts for the default of 48000 (log 12). So tone1 is tone0 read at twice the speed, and no sample
is off the exact sine by 1 or more, or past the amplitude. A byte is 11 blocks in the order of R91, whatever its flags; the sink is mono
with 16 bits a sample at the modulator's rate. -/
def Obligations.ToneBlocksAreSampledSines : Prop :=
  ∀ (m : Downstream.Modulator) (t : Downstream.Tone) (n : Fin 160) (beats : List Beat),
    let exact : Real := ((m.toneAmplitude : Nat) : Real) *
      Real.sin (2 * Real.pi * ((if t = .tone1 then 8 else 4) * ((n : Nat) : Real)) / 160 + m.tonePhase)
    (m.toneSamples t)[(n : Nat)]? = some (m.rounding exact) ∧
    |((m.rounding exact).toInt : Real) - exact| < 1 ∧
    |(m.rounding exact).toInt| ≤ ((m.toneAmplitude : Nat) : Int) ∧
    (m.toneSamples .tone1)[(n : Nat)]? = (m.toneSamples .tone0)[2 * (n : Nat) % 160]? ∧
    (m.variant = .byte → m.waveform beats = {
      format := { sampleRate := m.sampleRate, channels := 1, bitsPerSample := 16 },
      samples := beats.flatMap fun b =>
        m.toneSamples .tone0 ++
        (List.range 8).flatMap (fun i => m.toneSamples (if b.data.getLsbD i then .tone1 else .tone0)) ++
        m.toneSamples .tone1 ++ m.toneSamples .tone1 })

/-- PolyEncoded: the preamble, then for each section a burst of 1200 HIGH_THEN_LOW before its first byte, then 8 blocks a byte, bits least
significant first; a block is 10 samples at one amplitude and 10 at its exact negation. Of the model's choice: an amplitude is 0..32767,
and the square blocks have one of their own (log 14); the blocks keep their 10 + 10 samples and their numbers at every sample rate, where
I10 states the counts for the default of 48000 (log 12). -/
def Obligations.PolyEncodedBlocksOfAStore : Prop :=
  ∀ (m : Downstream.Modulator) (store : List Section), (∀ sec ∈ store, sec.wf = true) → m.variant = .poly →
    ∃ high low : Half, high.toInt = ((m.polyAmplitude : Nat) : Int) ∧ low.toInt = -high.toInt ∧
      let highThenLow := List.replicate 10 high ++ List.replicate 10 low
      let lowThenHigh := List.replicate 10 low ++ List.replicate 10 high
      m.blocks (storeBeats store) = List.replicate m.polyPreambleReps lowThenHigh ++
        store.flatMap fun sec => List.replicate 1200 highThenLow ++
          sec.wire.flatMap fun b => (List.range 8).map fun i => if b.getLsbD i then lowThenHigh else highThenLow

/-- A modulation writes its sample blocks in emission order, block by block, and never needs a later beat for an earlier block; the first
failed write ends it with the modulator's SinkWriteFailure, nothing after it is written, and what was written stays. One write a block is
the model's choice (log 16). -/
def Obligations.ModulatorStopsAtAFailedWrite : Prop :=
  ∀ (m : Downstream.Modulator) (beats later : List Beat) (ok : Nat → Bool),
    m.blocks beats <+: m.blocks (beats ++ later) ∧
    ((∀ k < (m.blocks beats).length, ok k = true) → m.modulate ok beats = { written := m.blocks beats, error := none }) ∧
    (∀ k < (m.blocks beats).length, ok k = false → (∀ j < k, ok j = true) →
      m.modulate ok beats = { written := (m.blocks beats).take k, error := some .sinkWriteFailure })

/-- The paced transmitter writes each byte of a store's image once, in order, each followed by a delay of 11 / baud seconds; its progress
reports, one a section, end at 100 percent with nothing remaining; its port has 2 stop bits and the caller's baud and timeouts. At the
default of 300 baud the delay is 11/300 s. Timeouts in seconds are the model's choice (log 16). -/
def Obligations.PacedTransmissionOfAStore : Prop :=
  ∀ (t : Config.Transmitter) (store : List Section), (∀ sec ∈ store, sec.wf = true) →
    let T := total store
    let writes := Downstream.pacedWrites t T (storeBeats store)
    Downstream.portConfig t = { baud := t.baud, stopBits := 2, readTimeout := t.readTimeout, writeTimeout := t.writeTimeout } ∧
    writes.map (fun w => w.data) = tapeImage store ∧
    (∀ w ∈ writes, w.delay = 11 / (t.baud : Rat) ∧ (t.baud = 300 → w.delay = 11 / 300)) ∧
    Downstream.pacedTime writes = 11 * (T : Rat) / (t.baud : Rat) ∧
    Downstream.progressReports writes = (List.range store.length).map (fun k =>
      let j := total (store.take (k + 1))
      { percent := 100 * (j : Rat) / (T : Rat), remaining := ((T : Rat) - (j : Rat)) * (11 / (t.baud : Rat)) }) ∧
    (store ≠ [] → (Downstream.progressReports writes).getLast? = some ⟨100, 0⟩)

/-- A transmission writes the bytes one at a time; the first failed port write ends it with PortWriteFailure, with no later byte written
and no later report made. That the failed byte makes no report is the model's choice (log 16). -/
def Obligations.TransmissionStopsAtAFailedWrite : Prop :=
  ∀ (t : Config.Transmitter) (T : Nat) (beats : List Beat) (ok : Nat → Bool),
    ((∀ k < beats.length, ok k = true) →
      Downstream.transmit t T ok beats = { written := Downstream.pacedWrites t T beats, error := none }) ∧
    (∀ k < beats.length, ok k = false → (∀ j < k, ok j = true) →
      Downstream.transmit t T ok beats =
        { written := Downstream.pacedWrites t T (beats.take k), error := some .portWriteFailure } ∧
      (Downstream.transmit t T ok beats).written.map (fun w => w.data) = (beats.take k).map (fun b => b.data) ∧
      (Downstream.progressReports (Downstream.transmit t T ok beats).written).length =
        ((beats.take k).filter (fun b => b.eos)).length)
end

