-- ==== Sys2Proof/Laws/State.lean ====
section
/-! SUPPORT. One lemma for each field and each named update of the block and of the state, so that no proof unfolds a record update. -/

namespace Sys2Proof.Machine

/-! ### Block.start -/

@[simp] theorem Block.start_name (b : Block) : (b.start).name = b.name := rfl
@[simp] theorem Block.start_nameSet (b : Block) : (b.start).nameSet = b.nameSet := rfl
@[simp] theorem Block.start_nameLen (b : Block) : (b.start).nameLen = b.nameLen := rfl
@[simp] theorem Block.start_nameBuf (b : Block) : (b.start).nameBuf = b.nameBuf := rfl
@[simp] theorem Block.start_addr (b : Block) : (b.start).addr = b.addr := rfl
@[simp] theorem Block.start_execAddr (b : Block) : (b.start).execAddr = b.execAddr := rfl
@[simp] theorem Block.start_secSel (b : Block) : (b.start).secSel = b.secSel := rfl
@[simp] theorem Block.start_store (b : Block) : (b.start).store = b.store := rfl
@[simp] theorem Block.start_busy (b : Block) : (b.start).busy = true := rfl
@[simp] theorem Block.start_done (b : Block) : (b.start).done = false := rfl
@[simp] theorem Block.start_err (b : Block) : (b.start).err = b.err := rfl
@[simp] theorem Block.start_errCode (b : Block) : (b.start).errCode = b.errCode := rfl
@[simp] theorem Block.start_errOp (b : Block) : (b.start).errOp = b.errOp := rfl
@[simp] theorem Block.start_errOffset (b : Block) : (b.start).errOffset = b.errOffset := rfl
@[simp] theorem Block.start_inCount (b : Block) : (b.start).inCount = 0 := rfl
@[simp] theorem Block.start_ckValue (b : Block) : (b.start).ckValue = b.ckValue := rfl
@[simp] theorem Block.start_ckEmpty (b : Block) : (b.start).ckEmpty = b.ckEmpty := rfl
@[simp] theorem Block.start_verHdrOk (b : Block) : (b.start).verHdrOk = b.verHdrOk := rfl
@[simp] theorem Block.start_verPayOk (b : Block) : (b.start).verPayOk = b.verPayOk := rfl
@[simp] theorem Block.start_verValid (b : Block) : (b.start).verValid = b.verValid := rfl

/-! ### Block.finish -/

@[simp] theorem Block.finish_name (b : Block) : (b.finish).name = b.name := rfl
@[simp] theorem Block.finish_nameSet (b : Block) : (b.finish).nameSet = b.nameSet := rfl
@[simp] theorem Block.finish_nameLen (b : Block) : (b.finish).nameLen = b.nameLen := rfl
@[simp] theorem Block.finish_nameBuf (b : Block) : (b.finish).nameBuf = b.nameBuf := rfl
@[simp] theorem Block.finish_addr (b : Block) : (b.finish).addr = b.addr := rfl
@[simp] theorem Block.finish_execAddr (b : Block) : (b.finish).execAddr = b.execAddr := rfl
@[simp] theorem Block.finish_secSel (b : Block) : (b.finish).secSel = b.secSel := rfl
@[simp] theorem Block.finish_store (b : Block) : (b.finish).store = b.store := rfl
@[simp] theorem Block.finish_busy (b : Block) : (b.finish).busy = false := rfl
@[simp] theorem Block.finish_done (b : Block) : (b.finish).done = true := rfl
@[simp] theorem Block.finish_err (b : Block) : (b.finish).err = b.err := rfl
@[simp] theorem Block.finish_errCode (b : Block) : (b.finish).errCode = b.errCode := rfl
@[simp] theorem Block.finish_errOp (b : Block) : (b.finish).errOp = b.errOp := rfl
@[simp] theorem Block.finish_errOffset (b : Block) : (b.finish).errOffset = b.errOffset := rfl
@[simp] theorem Block.finish_inCount (b : Block) : (b.finish).inCount = b.inCount := rfl
@[simp] theorem Block.finish_ckValue (b : Block) : (b.finish).ckValue = b.ckValue := rfl
@[simp] theorem Block.finish_ckEmpty (b : Block) : (b.finish).ckEmpty = b.ckEmpty := rfl
@[simp] theorem Block.finish_verHdrOk (b : Block) : (b.finish).verHdrOk = b.verHdrOk := rfl
@[simp] theorem Block.finish_verPayOk (b : Block) : (b.finish).verPayOk = b.verPayOk := rfl
@[simp] theorem Block.finish_verValid (b : Block) : (b.finish).verValid = b.verValid := rfl

/-! ### Block.abort -/

@[simp] theorem Block.abort_name (b : Block) (c : Word) (e : CmdError) (op : Byte) (off : Nat) : (b.abort c e op off).name = b.name := rfl
@[simp] theorem Block.abort_nameSet (b : Block) (c : Word) (e : CmdError) (op : Byte) (off : Nat) : (b.abort c e op off).nameSet = b.nameSet := rfl
@[simp] theorem Block.abort_nameLen (b : Block) (c : Word) (e : CmdError) (op : Byte) (off : Nat) : (b.abort c e op off).nameLen = b.nameLen := rfl
@[simp] theorem Block.abort_nameBuf (b : Block) (c : Word) (e : CmdError) (op : Byte) (off : Nat) : (b.abort c e op off).nameBuf = b.nameBuf := rfl
@[simp] theorem Block.abort_addr (b : Block) (c : Word) (e : CmdError) (op : Byte) (off : Nat) : (b.abort c e op off).addr = b.addr := rfl
@[simp] theorem Block.abort_execAddr (b : Block) (c : Word) (e : CmdError) (op : Byte) (off : Nat) : (b.abort c e op off).execAddr = b.execAddr := rfl
@[simp] theorem Block.abort_secSel (b : Block) (c : Word) (e : CmdError) (op : Byte) (off : Nat) : (b.abort c e op off).secSel = b.secSel := rfl
@[simp] theorem Block.abort_store (b : Block) (c : Word) (e : CmdError) (op : Byte) (off : Nat) : (b.abort c e op off).store = b.store := rfl
@[simp] theorem Block.abort_busy (b : Block) (c : Word) (e : CmdError) (op : Byte) (off : Nat) : (b.abort c e op off).busy = false := rfl
@[simp] theorem Block.abort_done (b : Block) (c : Word) (e : CmdError) (op : Byte) (off : Nat) : (b.abort c e op off).done = false := rfl
@[simp] theorem Block.abort_err (b : Block) (c : Word) (e : CmdError) (op : Byte) (off : Nat) : (b.abort c e op off).err = true := rfl
@[simp] theorem Block.abort_errCode (b : Block) (c : Word) (e : CmdError) (op : Byte) (off : Nat) : (b.abort c e op off).errCode = e.code := rfl
@[simp] theorem Block.abort_errOp (b : Block) (c : Word) (e : CmdError) (op : Byte) (off : Nat) : (b.abort c e op off).errOp = op := rfl
@[simp] theorem Block.abort_errOffset (b : Block) (c : Word) (e : CmdError) (op : Byte) (off : Nat) : (b.abort c e op off).errOffset = sat32 off := rfl
@[simp] theorem Block.abort_inCount (b : Block) (c : Word) (e : CmdError) (op : Byte) (off : Nat) : (b.abort c e op off).inCount = c := rfl
@[simp] theorem Block.abort_ckValue (b : Block) (c : Word) (e : CmdError) (op : Byte) (off : Nat) : (b.abort c e op off).ckValue = b.ckValue := rfl
@[simp] theorem Block.abort_ckEmpty (b : Block) (c : Word) (e : CmdError) (op : Byte) (off : Nat) : (b.abort c e op off).ckEmpty = b.ckEmpty := rfl
@[simp] theorem Block.abort_verHdrOk (b : Block) (c : Word) (e : CmdError) (op : Byte) (off : Nat) : (b.abort c e op off).verHdrOk = b.verHdrOk := rfl
@[simp] theorem Block.abort_verPayOk (b : Block) (c : Word) (e : CmdError) (op : Byte) (off : Nat) : (b.abort c e op off).verPayOk = b.verPayOk := rfl
@[simp] theorem Block.abort_verValid (b : Block) (c : Word) (e : CmdError) (op : Byte) (off : Nat) : (b.abort c e op off).verValid = b.verValid := rfl

/-! ### Block.countInput -/

@[simp] theorem Block.countInput_name (b : Block) (n : Nat) : (b.countInput n).name = b.name := rfl
@[simp] theorem Block.countInput_nameSet (b : Block) (n : Nat) : (b.countInput n).nameSet = b.nameSet := rfl
@[simp] theorem Block.countInput_nameLen (b : Block) (n : Nat) : (b.countInput n).nameLen = b.nameLen := rfl
@[simp] theorem Block.countInput_nameBuf (b : Block) (n : Nat) : (b.countInput n).nameBuf = b.nameBuf := rfl
@[simp] theorem Block.countInput_addr (b : Block) (n : Nat) : (b.countInput n).addr = b.addr := rfl
@[simp] theorem Block.countInput_execAddr (b : Block) (n : Nat) : (b.countInput n).execAddr = b.execAddr := rfl
@[simp] theorem Block.countInput_secSel (b : Block) (n : Nat) : (b.countInput n).secSel = b.secSel := rfl
@[simp] theorem Block.countInput_store (b : Block) (n : Nat) : (b.countInput n).store = b.store := rfl
@[simp] theorem Block.countInput_busy (b : Block) (n : Nat) : (b.countInput n).busy = b.busy := rfl
@[simp] theorem Block.countInput_done (b : Block) (n : Nat) : (b.countInput n).done = b.done := rfl
@[simp] theorem Block.countInput_err (b : Block) (n : Nat) : (b.countInput n).err = b.err := rfl
@[simp] theorem Block.countInput_errCode (b : Block) (n : Nat) : (b.countInput n).errCode = b.errCode := rfl
@[simp] theorem Block.countInput_errOp (b : Block) (n : Nat) : (b.countInput n).errOp = b.errOp := rfl
@[simp] theorem Block.countInput_errOffset (b : Block) (n : Nat) : (b.countInput n).errOffset = b.errOffset := rfl
@[simp] theorem Block.countInput_inCount (b : Block) (n : Nat) : (b.countInput n).inCount = sat32 n := rfl
@[simp] theorem Block.countInput_ckValue (b : Block) (n : Nat) : (b.countInput n).ckValue = b.ckValue := rfl
@[simp] theorem Block.countInput_ckEmpty (b : Block) (n : Nat) : (b.countInput n).ckEmpty = b.ckEmpty := rfl
@[simp] theorem Block.countInput_verHdrOk (b : Block) (n : Nat) : (b.countInput n).verHdrOk = b.verHdrOk := rfl
@[simp] theorem Block.countInput_verPayOk (b : Block) (n : Nat) : (b.countInput n).verPayOk = b.verPayOk := rfl
@[simp] theorem Block.countInput_verValid (b : Block) (n : Nat) : (b.countInput n).verValid = b.verValid := rfl

/-! ### Block.setStore -/

@[simp] theorem Block.setStore_name (b : Block) (S : List Section) : (b.setStore S).name = b.name := rfl
@[simp] theorem Block.setStore_nameSet (b : Block) (S : List Section) : (b.setStore S).nameSet = b.nameSet := rfl
@[simp] theorem Block.setStore_nameLen (b : Block) (S : List Section) : (b.setStore S).nameLen = b.nameLen := rfl
@[simp] theorem Block.setStore_nameBuf (b : Block) (S : List Section) : (b.setStore S).nameBuf = b.nameBuf := rfl
@[simp] theorem Block.setStore_addr (b : Block) (S : List Section) : (b.setStore S).addr = b.addr := rfl
@[simp] theorem Block.setStore_execAddr (b : Block) (S : List Section) : (b.setStore S).execAddr = b.execAddr := rfl
@[simp] theorem Block.setStore_secSel (b : Block) (S : List Section) : (b.setStore S).secSel = b.secSel := rfl
@[simp] theorem Block.setStore_store (b : Block) (S : List Section) : (b.setStore S).store = S := rfl
@[simp] theorem Block.setStore_busy (b : Block) (S : List Section) : (b.setStore S).busy = b.busy := rfl
@[simp] theorem Block.setStore_done (b : Block) (S : List Section) : (b.setStore S).done = b.done := rfl
@[simp] theorem Block.setStore_err (b : Block) (S : List Section) : (b.setStore S).err = b.err := rfl
@[simp] theorem Block.setStore_errCode (b : Block) (S : List Section) : (b.setStore S).errCode = b.errCode := rfl
@[simp] theorem Block.setStore_errOp (b : Block) (S : List Section) : (b.setStore S).errOp = b.errOp := rfl
@[simp] theorem Block.setStore_errOffset (b : Block) (S : List Section) : (b.setStore S).errOffset = b.errOffset := rfl
@[simp] theorem Block.setStore_inCount (b : Block) (S : List Section) : (b.setStore S).inCount = b.inCount := rfl
@[simp] theorem Block.setStore_ckValue (b : Block) (S : List Section) : (b.setStore S).ckValue = b.ckValue := rfl
@[simp] theorem Block.setStore_ckEmpty (b : Block) (S : List Section) : (b.setStore S).ckEmpty = b.ckEmpty := rfl
@[simp] theorem Block.setStore_verHdrOk (b : Block) (S : List Section) : (b.setStore S).verHdrOk = b.verHdrOk := rfl
@[simp] theorem Block.setStore_verPayOk (b : Block) (S : List Section) : (b.setStore S).verPayOk = b.verPayOk := rfl
@[simp] theorem Block.setStore_verValid (b : Block) (S : List Section) : (b.setStore S).verValid = false := rfl

/-! ### Block.commitName -/

@[simp] theorem Block.commitName_name (b : Block) (n8 : Bytes8) : (b.commitName n8).name = n8 := rfl
@[simp] theorem Block.commitName_nameSet (b : Block) (n8 : Bytes8) : (b.commitName n8).nameSet = true := rfl
@[simp] theorem Block.commitName_nameLen (b : Block) (n8 : Bytes8) : (b.commitName n8).nameLen = b.nameLen := rfl
@[simp] theorem Block.commitName_nameBuf (b : Block) (n8 : Bytes8) : (b.commitName n8).nameBuf = b.nameBuf := rfl
@[simp] theorem Block.commitName_addr (b : Block) (n8 : Bytes8) : (b.commitName n8).addr = b.addr := rfl
@[simp] theorem Block.commitName_execAddr (b : Block) (n8 : Bytes8) : (b.commitName n8).execAddr = b.execAddr := rfl
@[simp] theorem Block.commitName_secSel (b : Block) (n8 : Bytes8) : (b.commitName n8).secSel = b.secSel := rfl
@[simp] theorem Block.commitName_store (b : Block) (n8 : Bytes8) : (b.commitName n8).store = b.store := rfl
@[simp] theorem Block.commitName_busy (b : Block) (n8 : Bytes8) : (b.commitName n8).busy = b.busy := rfl
@[simp] theorem Block.commitName_done (b : Block) (n8 : Bytes8) : (b.commitName n8).done = b.done := rfl
@[simp] theorem Block.commitName_err (b : Block) (n8 : Bytes8) : (b.commitName n8).err = b.err := rfl
@[simp] theorem Block.commitName_errCode (b : Block) (n8 : Bytes8) : (b.commitName n8).errCode = b.errCode := rfl
@[simp] theorem Block.commitName_errOp (b : Block) (n8 : Bytes8) : (b.commitName n8).errOp = b.errOp := rfl
@[simp] theorem Block.commitName_errOffset (b : Block) (n8 : Bytes8) : (b.commitName n8).errOffset = b.errOffset := rfl
@[simp] theorem Block.commitName_inCount (b : Block) (n8 : Bytes8) : (b.commitName n8).inCount = b.inCount := rfl
@[simp] theorem Block.commitName_ckValue (b : Block) (n8 : Bytes8) : (b.commitName n8).ckValue = b.ckValue := rfl
@[simp] theorem Block.commitName_ckEmpty (b : Block) (n8 : Bytes8) : (b.commitName n8).ckEmpty = b.ckEmpty := rfl
@[simp] theorem Block.commitName_verHdrOk (b : Block) (n8 : Bytes8) : (b.commitName n8).verHdrOk = b.verHdrOk := rfl
@[simp] theorem Block.commitName_verPayOk (b : Block) (n8 : Bytes8) : (b.commitName n8).verPayOk = b.verPayOk := rfl
@[simp] theorem Block.commitName_verValid (b : Block) (n8 : Bytes8) : (b.commitName n8).verValid = b.verValid := rfl

/-! ### Block.latchChecksum -/

@[simp] theorem Block.latchChecksum_name (b : Block) (c : List Byte) : (b.latchChecksum c).name = b.name := by cases c <;> rfl
@[simp] theorem Block.latchChecksum_nameSet (b : Block) (c : List Byte) : (b.latchChecksum c).nameSet = b.nameSet := by cases c <;> rfl
@[simp] theorem Block.latchChecksum_nameLen (b : Block) (c : List Byte) : (b.latchChecksum c).nameLen = b.nameLen := by cases c <;> rfl
@[simp] theorem Block.latchChecksum_nameBuf (b : Block) (c : List Byte) : (b.latchChecksum c).nameBuf = b.nameBuf := by cases c <;> rfl
@[simp] theorem Block.latchChecksum_addr (b : Block) (c : List Byte) : (b.latchChecksum c).addr = b.addr := by cases c <;> rfl
@[simp] theorem Block.latchChecksum_execAddr (b : Block) (c : List Byte) : (b.latchChecksum c).execAddr = b.execAddr := by cases c <;> rfl
@[simp] theorem Block.latchChecksum_secSel (b : Block) (c : List Byte) : (b.latchChecksum c).secSel = b.secSel := by cases c <;> rfl
@[simp] theorem Block.latchChecksum_store (b : Block) (c : List Byte) : (b.latchChecksum c).store = b.store := by cases c <;> rfl
@[simp] theorem Block.latchChecksum_busy (b : Block) (c : List Byte) : (b.latchChecksum c).busy = b.busy := by cases c <;> rfl
@[simp] theorem Block.latchChecksum_done (b : Block) (c : List Byte) : (b.latchChecksum c).done = b.done := by cases c <;> rfl
@[simp] theorem Block.latchChecksum_err (b : Block) (c : List Byte) : (b.latchChecksum c).err = b.err := by cases c <;> rfl
@[simp] theorem Block.latchChecksum_errCode (b : Block) (c : List Byte) : (b.latchChecksum c).errCode = b.errCode := by cases c <;> rfl
@[simp] theorem Block.latchChecksum_errOp (b : Block) (c : List Byte) : (b.latchChecksum c).errOp = b.errOp := by cases c <;> rfl
@[simp] theorem Block.latchChecksum_errOffset (b : Block) (c : List Byte) : (b.latchChecksum c).errOffset = b.errOffset := by cases c <;> rfl
@[simp] theorem Block.latchChecksum_inCount (b : Block) (c : List Byte) : (b.latchChecksum c).inCount = b.inCount := by cases c <;> rfl
@[simp] theorem Block.latchChecksum_ckValue (b : Block) (c : List Byte) : (b.latchChecksum c).ckValue = c.headD 0 := by cases c <;> rfl
@[simp] theorem Block.latchChecksum_ckEmpty (b : Block) (c : List Byte) : (b.latchChecksum c).ckEmpty = c.isEmpty := by cases c <;> rfl
@[simp] theorem Block.latchChecksum_verHdrOk (b : Block) (c : List Byte) : (b.latchChecksum c).verHdrOk = b.verHdrOk := by cases c <;> rfl
@[simp] theorem Block.latchChecksum_verPayOk (b : Block) (c : List Byte) : (b.latchChecksum c).verPayOk = b.verPayOk := by cases c <;> rfl
@[simp] theorem Block.latchChecksum_verValid (b : Block) (c : List Byte) : (b.latchChecksum c).verValid = b.verValid := by cases c <;> rfl

/-! ### Block.latchVerify -/

@[simp] theorem Block.latchVerify_name (b : Block) (h p : Bool) : (b.latchVerify h p).name = b.name := rfl
@[simp] theorem Block.latchVerify_nameSet (b : Block) (h p : Bool) : (b.latchVerify h p).nameSet = b.nameSet := rfl
@[simp] theorem Block.latchVerify_nameLen (b : Block) (h p : Bool) : (b.latchVerify h p).nameLen = b.nameLen := rfl
@[simp] theorem Block.latchVerify_nameBuf (b : Block) (h p : Bool) : (b.latchVerify h p).nameBuf = b.nameBuf := rfl
@[simp] theorem Block.latchVerify_addr (b : Block) (h p : Bool) : (b.latchVerify h p).addr = b.addr := rfl
@[simp] theorem Block.latchVerify_execAddr (b : Block) (h p : Bool) : (b.latchVerify h p).execAddr = b.execAddr := rfl
@[simp] theorem Block.latchVerify_secSel (b : Block) (h p : Bool) : (b.latchVerify h p).secSel = b.secSel := rfl
@[simp] theorem Block.latchVerify_store (b : Block) (h p : Bool) : (b.latchVerify h p).store = b.store := rfl
@[simp] theorem Block.latchVerify_busy (b : Block) (h p : Bool) : (b.latchVerify h p).busy = b.busy := rfl
@[simp] theorem Block.latchVerify_done (b : Block) (h p : Bool) : (b.latchVerify h p).done = b.done := rfl
@[simp] theorem Block.latchVerify_err (b : Block) (h p : Bool) : (b.latchVerify h p).err = b.err := rfl
@[simp] theorem Block.latchVerify_errCode (b : Block) (h p : Bool) : (b.latchVerify h p).errCode = b.errCode := rfl
@[simp] theorem Block.latchVerify_errOp (b : Block) (h p : Bool) : (b.latchVerify h p).errOp = b.errOp := rfl
@[simp] theorem Block.latchVerify_errOffset (b : Block) (h p : Bool) : (b.latchVerify h p).errOffset = b.errOffset := rfl
@[simp] theorem Block.latchVerify_inCount (b : Block) (h p : Bool) : (b.latchVerify h p).inCount = b.inCount := rfl
@[simp] theorem Block.latchVerify_ckValue (b : Block) (h p : Bool) : (b.latchVerify h p).ckValue = b.ckValue := rfl
@[simp] theorem Block.latchVerify_ckEmpty (b : Block) (h p : Bool) : (b.latchVerify h p).ckEmpty = b.ckEmpty := rfl
@[simp] theorem Block.latchVerify_verHdrOk (b : Block) (h p : Bool) : (b.latchVerify h p).verHdrOk = h := rfl
@[simp] theorem Block.latchVerify_verPayOk (b : Block) (h p : Bool) : (b.latchVerify h p).verPayOk = p := rfl
@[simp] theorem Block.latchVerify_verValid (b : Block) (h p : Bool) : (b.latchVerify h p).verValid = true := rfl

/-! ### Block.clearError -/

@[simp] theorem Block.clearError_name (b : Block) : (b.clearError).name = b.name := rfl
@[simp] theorem Block.clearError_nameSet (b : Block) : (b.clearError).nameSet = b.nameSet := rfl
@[simp] theorem Block.clearError_nameLen (b : Block) : (b.clearError).nameLen = b.nameLen := rfl
@[simp] theorem Block.clearError_nameBuf (b : Block) : (b.clearError).nameBuf = b.nameBuf := rfl
@[simp] theorem Block.clearError_addr (b : Block) : (b.clearError).addr = b.addr := rfl
@[simp] theorem Block.clearError_execAddr (b : Block) : (b.clearError).execAddr = b.execAddr := rfl
@[simp] theorem Block.clearError_secSel (b : Block) : (b.clearError).secSel = b.secSel := rfl
@[simp] theorem Block.clearError_store (b : Block) : (b.clearError).store = b.store := rfl
@[simp] theorem Block.clearError_busy (b : Block) : (b.clearError).busy = b.busy := rfl
@[simp] theorem Block.clearError_done (b : Block) : (b.clearError).done = b.done := rfl
@[simp] theorem Block.clearError_err (b : Block) : (b.clearError).err = false := rfl
@[simp] theorem Block.clearError_errCode (b : Block) : (b.clearError).errCode = 0 := rfl
@[simp] theorem Block.clearError_errOp (b : Block) : (b.clearError).errOp = 0 := rfl
@[simp] theorem Block.clearError_errOffset (b : Block) : (b.clearError).errOffset = 0 := rfl
@[simp] theorem Block.clearError_inCount (b : Block) : (b.clearError).inCount = b.inCount := rfl
@[simp] theorem Block.clearError_ckValue (b : Block) : (b.clearError).ckValue = b.ckValue := rfl
@[simp] theorem Block.clearError_ckEmpty (b : Block) : (b.clearError).ckEmpty = b.ckEmpty := rfl
@[simp] theorem Block.clearError_verHdrOk (b : Block) : (b.clearError).verHdrOk = b.verHdrOk := rfl
@[simp] theorem Block.clearError_verPayOk (b : Block) : (b.clearError).verPayOk = b.verPayOk := rfl
@[simp] theorem Block.clearError_verValid (b : Block) : (b.clearError).verValid = b.verValid := rfl

/-! ### Block.writeNameLen -/

@[simp] theorem Block.writeNameLen_name (b : Block) (w : Word) : (b.writeNameLen w).name = b.name := rfl
@[simp] theorem Block.writeNameLen_nameSet (b : Block) (w : Word) : (b.writeNameLen w).nameSet = b.nameSet := rfl
@[simp] theorem Block.writeNameLen_nameLen (b : Block) (w : Word) : (b.writeNameLen w).nameLen = w.extractLsb' 0 16 := rfl
@[simp] theorem Block.writeNameLen_nameBuf (b : Block) (w : Word) : (b.writeNameLen w).nameBuf = b.nameBuf := rfl
@[simp] theorem Block.writeNameLen_addr (b : Block) (w : Word) : (b.writeNameLen w).addr = b.addr := rfl
@[simp] theorem Block.writeNameLen_execAddr (b : Block) (w : Word) : (b.writeNameLen w).execAddr = b.execAddr := rfl
@[simp] theorem Block.writeNameLen_secSel (b : Block) (w : Word) : (b.writeNameLen w).secSel = b.secSel := rfl
@[simp] theorem Block.writeNameLen_store (b : Block) (w : Word) : (b.writeNameLen w).store = b.store := rfl
@[simp] theorem Block.writeNameLen_busy (b : Block) (w : Word) : (b.writeNameLen w).busy = b.busy := rfl
@[simp] theorem Block.writeNameLen_done (b : Block) (w : Word) : (b.writeNameLen w).done = b.done := rfl
@[simp] theorem Block.writeNameLen_err (b : Block) (w : Word) : (b.writeNameLen w).err = b.err := rfl
@[simp] theorem Block.writeNameLen_errCode (b : Block) (w : Word) : (b.writeNameLen w).errCode = b.errCode := rfl
@[simp] theorem Block.writeNameLen_errOp (b : Block) (w : Word) : (b.writeNameLen w).errOp = b.errOp := rfl
@[simp] theorem Block.writeNameLen_errOffset (b : Block) (w : Word) : (b.writeNameLen w).errOffset = b.errOffset := rfl
@[simp] theorem Block.writeNameLen_inCount (b : Block) (w : Word) : (b.writeNameLen w).inCount = b.inCount := rfl
@[simp] theorem Block.writeNameLen_ckValue (b : Block) (w : Word) : (b.writeNameLen w).ckValue = b.ckValue := rfl
@[simp] theorem Block.writeNameLen_ckEmpty (b : Block) (w : Word) : (b.writeNameLen w).ckEmpty = b.ckEmpty := rfl
@[simp] theorem Block.writeNameLen_verHdrOk (b : Block) (w : Word) : (b.writeNameLen w).verHdrOk = b.verHdrOk := rfl
@[simp] theorem Block.writeNameLen_verPayOk (b : Block) (w : Word) : (b.writeNameLen w).verPayOk = b.verPayOk := rfl
@[simp] theorem Block.writeNameLen_verValid (b : Block) (w : Word) : (b.writeNameLen w).verValid = b.verValid := rfl

/-! ### Block.writeNameBuf0 -/

@[simp] theorem Block.writeNameBuf0_name (b : Block) (w : Word) : (b.writeNameBuf0 w).name = b.name := rfl
@[simp] theorem Block.writeNameBuf0_nameSet (b : Block) (w : Word) : (b.writeNameBuf0 w).nameSet = b.nameSet := rfl
@[simp] theorem Block.writeNameBuf0_nameLen (b : Block) (w : Word) : (b.writeNameBuf0 w).nameLen = b.nameLen := rfl
@[simp] theorem Block.writeNameBuf0_nameBuf (b : Block) (w : Word) : (b.writeNameBuf0 w).nameBuf = b.nameBuf.setWord0 w := rfl
@[simp] theorem Block.writeNameBuf0_addr (b : Block) (w : Word) : (b.writeNameBuf0 w).addr = b.addr := rfl
@[simp] theorem Block.writeNameBuf0_execAddr (b : Block) (w : Word) : (b.writeNameBuf0 w).execAddr = b.execAddr := rfl
@[simp] theorem Block.writeNameBuf0_secSel (b : Block) (w : Word) : (b.writeNameBuf0 w).secSel = b.secSel := rfl
@[simp] theorem Block.writeNameBuf0_store (b : Block) (w : Word) : (b.writeNameBuf0 w).store = b.store := rfl
@[simp] theorem Block.writeNameBuf0_busy (b : Block) (w : Word) : (b.writeNameBuf0 w).busy = b.busy := rfl
@[simp] theorem Block.writeNameBuf0_done (b : Block) (w : Word) : (b.writeNameBuf0 w).done = b.done := rfl
@[simp] theorem Block.writeNameBuf0_err (b : Block) (w : Word) : (b.writeNameBuf0 w).err = b.err := rfl
@[simp] theorem Block.writeNameBuf0_errCode (b : Block) (w : Word) : (b.writeNameBuf0 w).errCode = b.errCode := rfl
@[simp] theorem Block.writeNameBuf0_errOp (b : Block) (w : Word) : (b.writeNameBuf0 w).errOp = b.errOp := rfl
@[simp] theorem Block.writeNameBuf0_errOffset (b : Block) (w : Word) : (b.writeNameBuf0 w).errOffset = b.errOffset := rfl
@[simp] theorem Block.writeNameBuf0_inCount (b : Block) (w : Word) : (b.writeNameBuf0 w).inCount = b.inCount := rfl
@[simp] theorem Block.writeNameBuf0_ckValue (b : Block) (w : Word) : (b.writeNameBuf0 w).ckValue = b.ckValue := rfl
@[simp] theorem Block.writeNameBuf0_ckEmpty (b : Block) (w : Word) : (b.writeNameBuf0 w).ckEmpty = b.ckEmpty := rfl
@[simp] theorem Block.writeNameBuf0_verHdrOk (b : Block) (w : Word) : (b.writeNameBuf0 w).verHdrOk = b.verHdrOk := rfl
@[simp] theorem Block.writeNameBuf0_verPayOk (b : Block) (w : Word) : (b.writeNameBuf0 w).verPayOk = b.verPayOk := rfl
@[simp] theorem Block.writeNameBuf0_verValid (b : Block) (w : Word) : (b.writeNameBuf0 w).verValid = b.verValid := rfl

/-! ### Block.writeNameBuf1 -/

@[simp] theorem Block.writeNameBuf1_name (b : Block) (w : Word) : (b.writeNameBuf1 w).name = b.name := rfl
@[simp] theorem Block.writeNameBuf1_nameSet (b : Block) (w : Word) : (b.writeNameBuf1 w).nameSet = b.nameSet := rfl
@[simp] theorem Block.writeNameBuf1_nameLen (b : Block) (w : Word) : (b.writeNameBuf1 w).nameLen = b.nameLen := rfl
@[simp] theorem Block.writeNameBuf1_nameBuf (b : Block) (w : Word) : (b.writeNameBuf1 w).nameBuf = b.nameBuf.setWord1 w := rfl
@[simp] theorem Block.writeNameBuf1_addr (b : Block) (w : Word) : (b.writeNameBuf1 w).addr = b.addr := rfl
@[simp] theorem Block.writeNameBuf1_execAddr (b : Block) (w : Word) : (b.writeNameBuf1 w).execAddr = b.execAddr := rfl
@[simp] theorem Block.writeNameBuf1_secSel (b : Block) (w : Word) : (b.writeNameBuf1 w).secSel = b.secSel := rfl
@[simp] theorem Block.writeNameBuf1_store (b : Block) (w : Word) : (b.writeNameBuf1 w).store = b.store := rfl
@[simp] theorem Block.writeNameBuf1_busy (b : Block) (w : Word) : (b.writeNameBuf1 w).busy = b.busy := rfl
@[simp] theorem Block.writeNameBuf1_done (b : Block) (w : Word) : (b.writeNameBuf1 w).done = b.done := rfl
@[simp] theorem Block.writeNameBuf1_err (b : Block) (w : Word) : (b.writeNameBuf1 w).err = b.err := rfl
@[simp] theorem Block.writeNameBuf1_errCode (b : Block) (w : Word) : (b.writeNameBuf1 w).errCode = b.errCode := rfl
@[simp] theorem Block.writeNameBuf1_errOp (b : Block) (w : Word) : (b.writeNameBuf1 w).errOp = b.errOp := rfl
@[simp] theorem Block.writeNameBuf1_errOffset (b : Block) (w : Word) : (b.writeNameBuf1 w).errOffset = b.errOffset := rfl
@[simp] theorem Block.writeNameBuf1_inCount (b : Block) (w : Word) : (b.writeNameBuf1 w).inCount = b.inCount := rfl
@[simp] theorem Block.writeNameBuf1_ckValue (b : Block) (w : Word) : (b.writeNameBuf1 w).ckValue = b.ckValue := rfl
@[simp] theorem Block.writeNameBuf1_ckEmpty (b : Block) (w : Word) : (b.writeNameBuf1 w).ckEmpty = b.ckEmpty := rfl
@[simp] theorem Block.writeNameBuf1_verHdrOk (b : Block) (w : Word) : (b.writeNameBuf1 w).verHdrOk = b.verHdrOk := rfl
@[simp] theorem Block.writeNameBuf1_verPayOk (b : Block) (w : Word) : (b.writeNameBuf1 w).verPayOk = b.verPayOk := rfl
@[simp] theorem Block.writeNameBuf1_verValid (b : Block) (w : Word) : (b.writeNameBuf1 w).verValid = b.verValid := rfl

/-! ### Block.writeAddr -/

@[simp] theorem Block.writeAddr_name (b : Block) (w : Word) : (b.writeAddr w).name = b.name := rfl
@[simp] theorem Block.writeAddr_nameSet (b : Block) (w : Word) : (b.writeAddr w).nameSet = b.nameSet := rfl
@[simp] theorem Block.writeAddr_nameLen (b : Block) (w : Word) : (b.writeAddr w).nameLen = b.nameLen := rfl
@[simp] theorem Block.writeAddr_nameBuf (b : Block) (w : Word) : (b.writeAddr w).nameBuf = b.nameBuf := rfl
@[simp] theorem Block.writeAddr_addr (b : Block) (w : Word) : (b.writeAddr w).addr = w.extractLsb' 0 16 := rfl
@[simp] theorem Block.writeAddr_execAddr (b : Block) (w : Word) : (b.writeAddr w).execAddr = b.execAddr := rfl
@[simp] theorem Block.writeAddr_secSel (b : Block) (w : Word) : (b.writeAddr w).secSel = b.secSel := rfl
@[simp] theorem Block.writeAddr_store (b : Block) (w : Word) : (b.writeAddr w).store = b.store := rfl
@[simp] theorem Block.writeAddr_busy (b : Block) (w : Word) : (b.writeAddr w).busy = b.busy := rfl
@[simp] theorem Block.writeAddr_done (b : Block) (w : Word) : (b.writeAddr w).done = b.done := rfl
@[simp] theorem Block.writeAddr_err (b : Block) (w : Word) : (b.writeAddr w).err = b.err := rfl
@[simp] theorem Block.writeAddr_errCode (b : Block) (w : Word) : (b.writeAddr w).errCode = b.errCode := rfl
@[simp] theorem Block.writeAddr_errOp (b : Block) (w : Word) : (b.writeAddr w).errOp = b.errOp := rfl
@[simp] theorem Block.writeAddr_errOffset (b : Block) (w : Word) : (b.writeAddr w).errOffset = b.errOffset := rfl
@[simp] theorem Block.writeAddr_inCount (b : Block) (w : Word) : (b.writeAddr w).inCount = b.inCount := rfl
@[simp] theorem Block.writeAddr_ckValue (b : Block) (w : Word) : (b.writeAddr w).ckValue = b.ckValue := rfl
@[simp] theorem Block.writeAddr_ckEmpty (b : Block) (w : Word) : (b.writeAddr w).ckEmpty = b.ckEmpty := rfl
@[simp] theorem Block.writeAddr_verHdrOk (b : Block) (w : Word) : (b.writeAddr w).verHdrOk = b.verHdrOk := rfl
@[simp] theorem Block.writeAddr_verPayOk (b : Block) (w : Word) : (b.writeAddr w).verPayOk = b.verPayOk := rfl
@[simp] theorem Block.writeAddr_verValid (b : Block) (w : Word) : (b.writeAddr w).verValid = b.verValid := rfl

/-! ### Block.writeExec -/

@[simp] theorem Block.writeExec_name (b : Block) (w : Word) : (b.writeExec w).name = b.name := rfl
@[simp] theorem Block.writeExec_nameSet (b : Block) (w : Word) : (b.writeExec w).nameSet = b.nameSet := rfl
@[simp] theorem Block.writeExec_nameLen (b : Block) (w : Word) : (b.writeExec w).nameLen = b.nameLen := rfl
@[simp] theorem Block.writeExec_nameBuf (b : Block) (w : Word) : (b.writeExec w).nameBuf = b.nameBuf := rfl
@[simp] theorem Block.writeExec_addr (b : Block) (w : Word) : (b.writeExec w).addr = b.addr := rfl
@[simp] theorem Block.writeExec_execAddr (b : Block) (w : Word) : (b.writeExec w).execAddr = w.extractLsb' 0 16 := rfl
@[simp] theorem Block.writeExec_secSel (b : Block) (w : Word) : (b.writeExec w).secSel = b.secSel := rfl
@[simp] theorem Block.writeExec_store (b : Block) (w : Word) : (b.writeExec w).store = b.store := rfl
@[simp] theorem Block.writeExec_busy (b : Block) (w : Word) : (b.writeExec w).busy = b.busy := rfl
@[simp] theorem Block.writeExec_done (b : Block) (w : Word) : (b.writeExec w).done = b.done := rfl
@[simp] theorem Block.writeExec_err (b : Block) (w : Word) : (b.writeExec w).err = b.err := rfl
@[simp] theorem Block.writeExec_errCode (b : Block) (w : Word) : (b.writeExec w).errCode = b.errCode := rfl
@[simp] theorem Block.writeExec_errOp (b : Block) (w : Word) : (b.writeExec w).errOp = b.errOp := rfl
@[simp] theorem Block.writeExec_errOffset (b : Block) (w : Word) : (b.writeExec w).errOffset = b.errOffset := rfl
@[simp] theorem Block.writeExec_inCount (b : Block) (w : Word) : (b.writeExec w).inCount = b.inCount := rfl
@[simp] theorem Block.writeExec_ckValue (b : Block) (w : Word) : (b.writeExec w).ckValue = b.ckValue := rfl
@[simp] theorem Block.writeExec_ckEmpty (b : Block) (w : Word) : (b.writeExec w).ckEmpty = b.ckEmpty := rfl
@[simp] theorem Block.writeExec_verHdrOk (b : Block) (w : Word) : (b.writeExec w).verHdrOk = b.verHdrOk := rfl
@[simp] theorem Block.writeExec_verPayOk (b : Block) (w : Word) : (b.writeExec w).verPayOk = b.verPayOk := rfl
@[simp] theorem Block.writeExec_verValid (b : Block) (w : Word) : (b.writeExec w).verValid = b.verValid := rfl

/-! ### Block.writeSecSel -/

@[simp] theorem Block.writeSecSel_name (b : Block) (w : Word) : (b.writeSecSel w).name = b.name := rfl
@[simp] theorem Block.writeSecSel_nameSet (b : Block) (w : Word) : (b.writeSecSel w).nameSet = b.nameSet := rfl
@[simp] theorem Block.writeSecSel_nameLen (b : Block) (w : Word) : (b.writeSecSel w).nameLen = b.nameLen := rfl
@[simp] theorem Block.writeSecSel_nameBuf (b : Block) (w : Word) : (b.writeSecSel w).nameBuf = b.nameBuf := rfl
@[simp] theorem Block.writeSecSel_addr (b : Block) (w : Word) : (b.writeSecSel w).addr = b.addr := rfl
@[simp] theorem Block.writeSecSel_execAddr (b : Block) (w : Word) : (b.writeSecSel w).execAddr = b.execAddr := rfl
@[simp] theorem Block.writeSecSel_secSel (b : Block) (w : Word) : (b.writeSecSel w).secSel = w := rfl
@[simp] theorem Block.writeSecSel_store (b : Block) (w : Word) : (b.writeSecSel w).store = b.store := rfl
@[simp] theorem Block.writeSecSel_busy (b : Block) (w : Word) : (b.writeSecSel w).busy = b.busy := rfl
@[simp] theorem Block.writeSecSel_done (b : Block) (w : Word) : (b.writeSecSel w).done = b.done := rfl
@[simp] theorem Block.writeSecSel_err (b : Block) (w : Word) : (b.writeSecSel w).err = b.err := rfl
@[simp] theorem Block.writeSecSel_errCode (b : Block) (w : Word) : (b.writeSecSel w).errCode = b.errCode := rfl
@[simp] theorem Block.writeSecSel_errOp (b : Block) (w : Word) : (b.writeSecSel w).errOp = b.errOp := rfl
@[simp] theorem Block.writeSecSel_errOffset (b : Block) (w : Word) : (b.writeSecSel w).errOffset = b.errOffset := rfl
@[simp] theorem Block.writeSecSel_inCount (b : Block) (w : Word) : (b.writeSecSel w).inCount = b.inCount := rfl
@[simp] theorem Block.writeSecSel_ckValue (b : Block) (w : Word) : (b.writeSecSel w).ckValue = b.ckValue := rfl
@[simp] theorem Block.writeSecSel_ckEmpty (b : Block) (w : Word) : (b.writeSecSel w).ckEmpty = b.ckEmpty := rfl
@[simp] theorem Block.writeSecSel_verHdrOk (b : Block) (w : Word) : (b.writeSecSel w).verHdrOk = b.verHdrOk := rfl
@[simp] theorem Block.writeSecSel_verPayOk (b : Block) (w : Word) : (b.writeSecSel w).verPayOk = b.verPayOk := rfl
@[simp] theorem Block.writeSecSel_verValid (b : Block) (w : Word) : (b.writeSecSel w).verValid = false := rfl

/-! ### State.withBlk -/

@[simp] theorem State.withBlk_blk (s : State) (b : Block) : (s.withBlk b).blk = b := rfl
@[simp] theorem State.withBlk_capacity (s : State) (b : Block) : (s.withBlk b).capacity = s.capacity := rfl
@[simp] theorem State.withBlk_out (s : State) (b : Block) : (s.withBlk b).out = s.out := rfl
@[simp] theorem State.withBlk_reads (s : State) (b : Block) : (s.withBlk b).reads = s.reads := rfl
@[simp] theorem State.withBlk_inp (s : State) (b : Block) : (s.withBlk b).inp = s.inp := rfl
@[simp] theorem State.withBlk_sinkRefuses (s : State) (b : Block) : (s.withBlk b).sinkRefuses = s.sinkRefuses := rfl
@[simp] theorem State.withBlk_accesses (s : State) (b : Block) : (s.withBlk b).accesses = s.accesses := rfl

/-! ### State.pushBeat -/

@[simp] theorem State.pushBeat_blk (s : State) (b : Beat) : (s.pushBeat b).blk = s.blk := rfl
@[simp] theorem State.pushBeat_capacity (s : State) (b : Beat) : (s.pushBeat b).capacity = s.capacity := rfl
@[simp] theorem State.pushBeat_out (s : State) (b : Beat) : (s.pushBeat b).out = s.out ++ [b] := rfl
@[simp] theorem State.pushBeat_reads (s : State) (b : Beat) : (s.pushBeat b).reads = s.reads := rfl
@[simp] theorem State.pushBeat_inp (s : State) (b : Beat) : (s.pushBeat b).inp = s.inp := rfl
@[simp] theorem State.pushBeat_sinkRefuses (s : State) (b : Beat) : (s.pushBeat b).sinkRefuses = s.sinkRefuses := rfl
@[simp] theorem State.pushBeat_accesses (s : State) (b : Beat) : (s.pushBeat b).accesses = s.accesses := rfl

/-! ### State.recordRead -/

@[simp] theorem State.recordRead_blk (s : State) (w : Word) : (s.recordRead w).blk = s.blk := rfl
@[simp] theorem State.recordRead_capacity (s : State) (w : Word) : (s.recordRead w).capacity = s.capacity := rfl
@[simp] theorem State.recordRead_out (s : State) (w : Word) : (s.recordRead w).out = s.out := rfl
@[simp] theorem State.recordRead_reads (s : State) (w : Word) : (s.recordRead w).reads = s.reads ++ [w] := rfl
@[simp] theorem State.recordRead_inp (s : State) (w : Word) : (s.recordRead w).inp = s.inp := rfl
@[simp] theorem State.recordRead_sinkRefuses (s : State) (w : Word) : (s.recordRead w).sinkRefuses = s.sinkRefuses := rfl
@[simp] theorem State.recordRead_accesses (s : State) (w : Word) : (s.recordRead w).accesses = s.accesses := rfl

/-! ### State.present -/

@[simp] theorem State.present_blk (s : State) (i : InStream) (r : List Nat) : (s.present i r).blk = s.blk := rfl
@[simp] theorem State.present_capacity (s : State) (i : InStream) (r : List Nat) : (s.present i r).capacity = s.capacity := rfl
@[simp] theorem State.present_out (s : State) (i : InStream) (r : List Nat) : (s.present i r).out = s.out := rfl
@[simp] theorem State.present_reads (s : State) (i : InStream) (r : List Nat) : (s.present i r).reads = s.reads := rfl
@[simp] theorem State.present_inp (s : State) (i : InStream) (r : List Nat) : (s.present i r).inp = i := rfl
@[simp] theorem State.present_sinkRefuses (s : State) (i : InStream) (r : List Nat) : (s.present i r).sinkRefuses = r := rfl
@[simp] theorem State.present_accesses (s : State) (i : InStream) (r : List Nat) : (s.present i r).accesses = s.accesses := rfl

/-! ### State.dropAccess -/

@[simp] theorem State.dropAccess_blk (s : State) : (s.dropAccess).blk = s.blk := rfl
@[simp] theorem State.dropAccess_capacity (s : State) : (s.dropAccess).capacity = s.capacity := rfl
@[simp] theorem State.dropAccess_out (s : State) : (s.dropAccess).out = s.out := rfl
@[simp] theorem State.dropAccess_reads (s : State) : (s.dropAccess).reads = s.reads := rfl
@[simp] theorem State.dropAccess_inp (s : State) : (s.dropAccess).inp = s.inp := rfl
@[simp] theorem State.dropAccess_sinkRefuses (s : State) : (s.dropAccess).sinkRefuses = s.sinkRefuses := rfl
@[simp] theorem State.dropAccess_accesses (s : State) : (s.dropAccess).accesses = s.accesses.tail := rfl

/-! ### raiseError and resetBlock -/

@[simp] theorem raiseError_blk (w : Word) (s : State) (e : CmdError) (off : Nat) (t : State) :
    (raiseError w s e off t).blk = s.blk.abort t.blk.inCount e (opField w) off := rfl
@[simp] theorem raiseError_capacity (w : Word) (s : State) (e : CmdError) (off : Nat) (t : State) :
    (raiseError w s e off t).capacity = s.capacity := rfl
@[simp] theorem raiseError_out (w : Word) (s : State) (e : CmdError) (off : Nat) (t : State) :
    (raiseError w s e off t).out = t.out := rfl
@[simp] theorem raiseError_reads (w : Word) (s : State) (e : CmdError) (off : Nat) (t : State) :
    (raiseError w s e off t).reads = s.reads := rfl
@[simp] theorem raiseError_inp (w : Word) (s : State) (e : CmdError) (off : Nat) (t : State) :
    (raiseError w s e off t).inp = s.inp := rfl
@[simp] theorem raiseError_sinkRefuses (w : Word) (s : State) (e : CmdError) (off : Nat) (t : State) :
    (raiseError w s e off t).sinkRefuses = s.sinkRefuses := rfl
@[simp] theorem raiseError_accesses (w : Word) (s : State) (e : CmdError) (off : Nat) (t : State) :
    (raiseError w s e off t).accesses = s.accesses := rfl
@[simp] theorem resetBlock_blk (s : State) : (resetBlock s).blk = Block.reset := rfl
@[simp] theorem resetBlock_capacity (s : State) : (resetBlock s).capacity = s.capacity := rfl
@[simp] theorem resetBlock_out (s : State) : (resetBlock s).out = s.out := rfl
@[simp] theorem resetBlock_reads (s : State) : (resetBlock s).reads = s.reads := rfl
@[simp] theorem resetBlock_inp (s : State) : (resetBlock s).inp = s.inp := rfl
@[simp] theorem resetBlock_sinkRefuses (s : State) : (resetBlock s).sinkRefuses = s.sinkRefuses := rfl
@[simp] theorem resetBlock_accesses (s : State) : (resetBlock s).accesses = s.accesses := rfl

end Sys2Proof.Machine
end

