-- ==== Sys2Proof/Laws/Ops.lean ====
section
/-! SUPPORT. One lemma for each thing a shared operation can do: the frame, `raise`, ReadInput, OutWrite, the capacity check, the
checksum. Proofs cite these and do not unfold the operations. -/

namespace Sys2Proof.Machine

/-! ### Numbers and byte sequences -/

@[simp] theorem sat32_zero : sat32 0 = 0 := rfl

theorem sat32_toNat (v : Nat) : (sat32 v).toNat = min v 0xFFFFFFFF := by
  simp only [sat32, Config.maxU32, BitVec.toNat_ofNat]; omega

theorem sat32_eq (v : Nat) : sat32 v = BitVec.ofNat 32 (min v 0xFFFFFFFF) := rfl

@[simp] theorem sumBytes_nil : sumBytes [] = 0 := rfl
@[simp] theorem sumBytes_cons (b : Byte) (s : List Byte) : sumBytes (b :: s) = b.toNat + sumBytes s := by simp [sumBytes]
@[simp] theorem sumBytes_append (s t : List Byte) : sumBytes (s ++ t) = sumBytes s + sumBytes t := by simp [sumBytes]

@[simp] theorem checksum_nil : checksum [] = [] := rfl

theorem checksum_of_ne_nil {s : List Byte} (h : s ≠ []) :
    checksum s = [BitVec.ofNat 8 ((256 - sumBytes s % 256) % 256)] := by
  simp [checksum, h]

theorem checksum_length (s : List Byte) : (checksum s).length = if s.length > 0 then 1 else 0 := by
  unfold checksum; split <;> simp_all [Nat.pos_iff_ne_zero]

@[simp] theorem total_nil : total [] = 0 := rfl
@[simp] theorem total_cons (s : Section) (S : List Section) : total (s :: S) = s.wire.length + total S := by simp [total]
@[simp] theorem total_append (S T : List Section) : total (S ++ T) = total S + total T := by simp [total]

/-! ### The ports -/

theorem readInput_ok {s : State} (h : s.inp.fails = false) (rest : List Byte → State → BodyResult) :
    readInput s rest = rest s.inp.bytes (s.withBlk (s.blk.countInput s.inp.bytes.length)) := by
  simp [readInput, h]

theorem readInput_fails {s : State} (h : s.inp.fails = true) (rest : List Byte → State → BodyResult) :
    readInput s rest =
      .aborted .sourceReadFailure s.inp.bytes.length (s.withBlk (s.blk.countInput s.inp.bytes.length)) := by
  simp [readInput, h]

/-- A sink that accepts every beat offered takes them all, in order. -/
theorem outWriteAll_accepts (beats : List Beat) : ∀ (k : Nat) (s : State),
    (∀ j, j < beats.length → s.sinkOk (k + j) = true) →
    outWriteAll k beats s = .finished { s with out := s.out ++ beats } := by
  induction beats with
  | nil => intro k s _; simp [outWriteAll]
  | cons b rest ih =>
    intro k s h
    have h0 : s.sinkOk k = true := by simpa using h 0 (by simp)
    have hr : ∀ j, j < rest.length → (s.pushBeat b).sinkOk (k + 1 + j) = true := by
      intro j hj
      have := h (j + 1) (by simpa using hj)
      simpa [State.sinkOk, Nat.add_assoc, Nat.add_comm 1 j] using this
    simp [outWriteAll, h0, ih (k + 1) (s.pushBeat b) hr]

/-- The first refused beat aborts; the beats before it stay accepted. -/
theorem outWriteAll_refuses (beats : List Beat) : ∀ (k n : Nat) (s : State), n < beats.length →
    (∀ j, j < n → s.sinkOk (k + j) = true) → s.sinkOk (k + n) = false →
    outWriteAll k beats s = .aborted .sinkWriteFailure (k + n) { s with out := s.out ++ beats.take n } := by
  induction beats with
  | nil => intro k n s hn; simp at hn
  | cons b rest ih =>
    intro k n s hn hj hr
    cases n with
    | zero => simp [outWriteAll, show s.sinkOk k = false by simpa using hr]
    | succ n =>
      have h0 : s.sinkOk k = true := by simpa using hj 0 (by simp)
      have h1 : ∀ j, j < n → (s.pushBeat b).sinkOk (k + 1 + j) = true := by
        intro j hjn
        have := hj (j + 1) (by omega)
        simpa [State.sinkOk, Nat.add_assoc, Nat.add_comm 1 j] using this
      have h2 : (s.pushBeat b).sinkOk (k + 1 + n) = false := by
        simpa [State.sinkOk, Nat.add_assoc, Nat.add_comm 1 n] using hr
      have := ih (k + 1) n (s.pushBeat b) (by simpa using hn) h1 h2
      simp [outWriteAll, h0, this, Nat.add_assoc, Nat.add_comm 1 n]

/-- Either every beat is accepted or the first refused one aborts. -/
theorem outWriteAll_cases (k : Nat) (beats : List Beat) (s : State) :
    outWriteAll k beats s = .finished { s with out := s.out ++ beats } ∨
    ∃ n, n < beats.length ∧
      outWriteAll k beats s = .aborted .sinkWriteFailure (k + n) { s with out := s.out ++ beats.take n } := by
  induction beats generalizing k s with
  | nil => exact .inl (by simp [outWriteAll])
  | cons b rest ih =>
    by_cases h0 : s.sinkOk k = true
    · rcases ih (k + 1) (s.pushBeat b) with h | ⟨n, hn, h⟩
      · exact .inl (by simp [outWriteAll, h0, h])
      · refine .inr ⟨n + 1, by simpa using hn, ?_⟩
        simp [outWriteAll, h0, h, Nat.add_assoc, Nat.add_comm 1 n]
    · exact .inr ⟨0, by simp, by simp [outWriteAll, h0]⟩

theorem replaceStore_fits {s : State} {S : List Section} (h : total S ≤ s.capacity) (f : Block → Block) :
    replaceStore s S f = .finished (s.withBlk (f (s.blk.setStore S))) := by
  simp [replaceStore, Nat.not_lt.mpr h]

theorem replaceStore_overflows {s : State} {S : List Section} (h : total S > s.capacity) (f : Block → Block) :
    replaceStore s S f = .aborted .storeOverflow 0 s := by
  simp [replaceStore, h]

/-! ### The command frame (R84) -/

theorem commandFrame_busy {s : State} (h : s.blk.busy = true) (w : Word) (body : State → BodyResult) :
    commandFrame w body s = .next s := by simp [commandFrame, h]

theorem commandFrame_gated {s : State} (h : s.blk.err = true) {w : Word} (hw : w ≠ clrErrWord) (body : State → BodyResult) :
    commandFrame w body s = .next s := by simp [commandFrame, h, hw]

theorem commandFrame_ready {s : State} (h : s.Ready) (w : Word) (body : State → BodyResult) :
    commandFrame w body s = .next (endCommand w s (body (s.withBlk s.blk.start))) := by
  simp [commandFrame, h.1, h.2]

theorem commandFrame_clrErrWord {s : State} (h : s.blk.busy = false) (body : State → BodyResult) :
    commandFrame clrErrWord body s = .next (endCommand clrErrWord s (body (s.withBlk s.blk.start))) := by
  simp [commandFrame, h]

/-- Everything a command frame can do: drop the write, or run the body to its end. -/
theorem commandFrame_cases {w : Word} {body : State → BodyResult} {s t : State} (h : commandFrame w body s = .next t) :
    (t = s ∧ (s.blk.busy = true ∨ (s.blk.err = true ∧ w ≠ clrErrWord))) ∨
    (s.blk.busy = false ∧ (s.blk.err = false ∨ w = clrErrWord) ∧ t = endCommand w s (body (s.withBlk s.blk.start))) := by
  unfold commandFrame at h
  split at h
  · cases h; exact .inl ⟨rfl, .inl ‹_›⟩
  · split at h
    · cases h; exact .inl ⟨rfl, .inr ‹_›⟩
    · rename_i hb hg
      cases h
      refine .inr ⟨by simpa using hb, ?_, rfl⟩
      by_cases he : s.blk.err = true
      · exact .inr (by simpa [he] using hg)
      · exact .inl (by simpa using he)

/-- A command frame always answers a next state. -/
theorem commandFrame_next (w : Word) (body : State → BodyResult) (s : State) : ∃ t, commandFrame w body s = .next t := by
  unfold commandFrame; split
  · exact ⟨_, rfl⟩
  · split <;> exact ⟨_, rfl⟩

/-- `raise` leaves the state R103 writes out, with the accepted beats kept. -/
theorem raiseError_eq_failedWith (w : Word) (s : State) (e : CmdError) (off : Nat) (t : State) :
    raiseError w s e off t = { s.failedWith e.code (opField w) off t.blk.inCount with out := t.out } := rfl

end Sys2Proof.Machine
end

