-- ==== Sys2Proof/Laws/Commands.lean ====
section
/-! SUPPORT. The commands as one frame around one body each, and what each body leaves alone. -/

namespace Sys2Proof.Machine

/-- The body that exec's frame runs for an instruction. -/
def bodyOf : Instr → State → BodyResult
  | .setName       => bodySetName
  | .clear         => bodyClear
  | .appendData    => bodyAppend .data
  | .appendComment => bodyAppend .comment
  | .appendEnd     => bodyAppend .end_
  | .appendExec    => bodyAppend .exec
  | .fromBinary    => bodyFromBinary false
  | .fromBinaryX   => bodyFromBinary true
  | .toBytes       => bodyToBytes
  | .decode        => bodyDecode
  | .verify        => bodyVerify
  | .checksum      => bodyChecksum
  | .clrErr        => bodyClrErr

/-- Every command runs in the frame of R84, under its own word. -/
theorem exec_eq_commandFrame (i : Instr) (s : State) : exec i s = commandFrame (encode i) (bodyOf i) s := by
  cases i <;> rfl

/-- The error gate lets exactly CLR_ERR through (R86). -/
theorem encode_eq_clrErrWord_iff (i : Instr) : encode i = clrErrWord ↔ i = .clrErr := by
  cases i <;> decide

/-- Every command answers a next state: an error is an abort, not a stop (R103). -/
theorem exec_next (i : Instr) (s : State) : ∃ t, exec i s = .next t := by
  rw [exec_eq_commandFrame]; exact commandFrame_next _ _ _

theorem issue_next (w : Word) (s : State) : ∃ t, issue w s = .next t := by
  unfold issue; split
  · exact exec_next _ _
  · exact commandFrame_next _ _ _

/-- The state a body had reached when it ended. -/
def BodyResult.reached : BodyResult → State
  | .finished t => t
  | .aborted _ _ t => t

/-- A body that begins with ReadInput: a property holds of the state it reaches if it holds of the failure and of the rest. -/
theorem readInput_reached {P : State → Prop} {s : State} {rest : List Byte → State → BodyResult}
    (hf : P (s.withBlk (s.blk.countInput s.inp.bytes.length)))
    (hr : P (rest s.inp.bytes (s.withBlk (s.blk.countInput s.inp.bytes.length))).reached) :
    P (readInput s rest).reached := by
  cases h : s.inp.fails
  · rwa [readInput_ok h]
  · rwa [readInput_fails h]

theorem replaceStore_reached {P : State → Prop} {s : State} {S : List Section} {f : Block → Block}
    (hf : P s) (hr : P (s.withBlk (f (s.blk.setStore S)))) : P (replaceStore s S f).reached := by
  unfold replaceStore; split <;> assumption

/-- What no command body writes: the operand registers and everything outside the block but the port record. -/
structure SameOperands (s t : State) : Prop where
  nameLen : t.blk.nameLen = s.blk.nameLen
  nameBuf : t.blk.nameBuf = s.blk.nameBuf
  addr : t.blk.addr = s.blk.addr
  execAddr : t.blk.execAddr = s.blk.execAddr
  secSel : t.blk.secSel = s.blk.secSel
  capacity : t.capacity = s.capacity
  reads : t.reads = s.reads
  inp : t.inp = s.inp
  sinkRefuses : t.sinkRefuses = s.sinkRefuses
  accesses : t.accesses = s.accesses

theorem SameOperands.refl (s : State) : SameOperands s s := ⟨rfl, rfl, rfl, rfl, rfl, rfl, rfl, rfl, rfl, rfl⟩

theorem bodyToBytes_reached (s : State) : ∃ n, (bodyToBytes s).reached = { s with out := s.out ++ (storeBeats s.blk.store).take n } := by
  unfold bodyToBytes
  rcases outWriteAll_cases 0 (storeBeats s.blk.store) s with h | ⟨n, _, h⟩
  · exact ⟨(storeBeats s.blk.store).length, by simp [h, BodyResult.reached]⟩
  · exact ⟨n, by simp [h, BodyResult.reached]⟩

theorem bodyAppend_sameOperands (type : SectionType) (s : State) : SameOperands s (bodyAppend type s).reached := by
  unfold bodyAppend
  split
  · exact .refl s
  · apply readInput_reached (P := SameOperands s)
    · constructor <;> simp
    · split
      · constructor <;> simp [BodyResult.reached]
      · apply replaceStore_reached (P := SameOperands s) <;> constructor <;> simp

theorem bodyFromBinary_sameOperands (x : Bool) (s : State) : SameOperands s (bodyFromBinary x s).reached := by
  unfold bodyFromBinary
  split
  · exact .refl s
  · apply readInput_reached (P := SameOperands s)
    · constructor <;> simp
    · apply replaceStore_reached (P := SameOperands s) <;> constructor <;> simp

theorem bodyOf_sameOperands (i : Instr) (s : State) : SameOperands s (bodyOf i s).reached := by
  cases i with
  | setName => simp only [bodyOf, bodySetName]; split <;> constructor <;> simp [BodyResult.reached]
  | clear => constructor <;> simp [bodyOf, bodyClear, BodyResult.reached]
  | appendData => exact bodyAppend_sameOperands _ s
  | appendComment => exact bodyAppend_sameOperands _ s
  | appendEnd => exact bodyAppend_sameOperands _ s
  | appendExec => exact bodyAppend_sameOperands _ s
  | fromBinary => exact bodyFromBinary_sameOperands _ s
  | fromBinaryX => exact bodyFromBinary_sameOperands _ s
  | toBytes =>
    obtain ⟨n, h⟩ := bodyToBytes_reached s
    simp only [bodyOf, h]; constructor <;> rfl
  | decode =>
    simp only [bodyOf, bodyDecode]
    apply readInput_reached (P := SameOperands s)
    · constructor <;> simp
    · split
      · constructor <;> simp [BodyResult.reached]
      · apply replaceStore_reached (P := SameOperands s) <;> constructor <;> simp
  | verify => simp only [bodyOf, bodyVerify]; split <;> constructor <;> simp [BodyResult.reached]
  | checksum =>
    simp only [bodyOf, bodyChecksum]
    apply readInput_reached (P := SameOperands s) <;> constructor <;> simp [BodyResult.reached]
  | clrErr => constructor <;> simp [bodyOf, bodyClrErr, BodyResult.reached]

end Sys2Proof.Machine
end

