-- ==== Sys2Proof/Laws/Parser.lean ====
section
/-! SUPPORT. What one turn of the parser accepts and refuses, and how the loop runs over an image: a well-formed section is a sync
run, SOH and a tail, and the parser takes exactly the round-trip safe ones. -/

namespace Sys2Proof.Machine

@[simp] theorem payloadNeed_zero : payloadNeed 0 = 0 := rfl
theorem payloadNeed_le (p : Nat) : payloadNeed p ≤ p + 1 := by unfold payloadNeed; split <;> omega

theorem loglen_le (lb ty : Byte) : loglen lb ty ≤ 256 := by
  unfold loglen; split
  · exact Nat.le_of_lt lb.isLt
  · split <;> omega

@[simp] theorem tapeImage_nil : tapeImage [] = [] := rfl
@[simp] theorem tapeImage_cons (s : Section) (S : List Section) : tapeImage (s :: S) = s.wire ++ tapeImage S := rfl
@[simp] theorem tapeImage_append (S T : List Section) : tapeImage (S ++ T) = tapeImage S ++ tapeImage T := by
  simp [tapeImage]

theorem tapeImage_length (S : List Section) : (tapeImage S).length = total S := by
  induction S with
  | nil => rfl
  | cons s S ih => simp [ih]

/-- A section that meets R14 is a sync run of `syncLen` bytes, SOH, and the header region and payload part behind it. -/
theorem Section.wf_iff (s : Section) :
    s.wf = true ↔ 1 ≤ s.syncLen ∧ s.payLen ≤ 256 ∧
      ∃ tail, s.wire = List.replicate s.syncLen Config.syncByte ++ Config.sohByte :: tail ∧
        tail.length = 15 + payloadNeed s.payLen := by
  obtain ⟨wire, k, p⟩ := s
  simp only [Section.wf, Bool.and_eq_true, decide_eq_true_eq, beq_iff_eq, payloadNeed]
  constructor
  · rintro ⟨⟨⟨⟨h1, h2⟩, h3⟩, h4⟩, h5⟩
    refine ⟨h1, h2, wire.drop (k + 1), ?_, by rw [List.length_drop]; omega⟩
    obtain ⟨hk, hg⟩ := List.getElem?_eq_some_iff.mp h5
    rw [← h4, ← hg, ← List.drop_eq_getElem_cons hk, List.take_append_drop]
  · rintro ⟨h1, h2, tail, rfl, h3⟩
    refine ⟨⟨⟨⟨h1, h2⟩, ?_⟩, ?_⟩, ?_⟩
    · simp [h3]; split <;> omega
    · simp
    · simp

/-- Byte `k + 1 + j` of a section in that shape is byte `j` of its tail. -/
theorem byteAt_tail {k p : Nat} {b : Byte} {tail : List Byte} (j : Nat) :
    Section.byteAt ⟨List.replicate k Config.syncByte ++ b :: tail, k, p⟩ (k + 1 + j) = tail.getD j 0 := by
  simp [Section.byteAt, List.getD_eq_getElem?_getD, List.getElem?_append_right, Nat.add_assoc, Nat.add_comm 1 j]

theorem lenByte_shape {k p : Nat} {b : Byte} {tail : List Byte} :
    Section.lenByte ⟨List.replicate k Config.syncByte ++ b :: tail, k, p⟩ = tail.getD 10 0 := byteAt_tail 10

theorem typeByte_shape {k p : Nat} {b : Byte} {tail : List Byte} :
    Section.typeByte ⟨List.replicate k Config.syncByte ++ b :: tail, k, p⟩ = tail.getD 13 0 := byteAt_tail 13

/-- The sync run in front of a byte that is no sync byte. -/
theorem takeWhile_sync {k : Nat} {b : Byte} (hb : b ≠ Config.syncByte) (rest : List Byte) :
    (List.replicate k Config.syncByte ++ b :: rest).takeWhile (· == Config.syncByte) = List.replicate k Config.syncByte := by
  rw [List.takeWhile_append_of_pos (by simp +contextual)]
  simp [hb]

theorem takeWhile_sync_all (k : Nat) :
    (List.replicate k Config.syncByte).takeWhile (· == Config.syncByte) = List.replicate k Config.syncByte := by
  simp

/-- Every input is a sync run followed by nothing or by a byte that is no sync byte. -/
theorem sync_split (rest : List Byte) :
    ∃ k, rest = List.replicate k Config.syncByte ∨
      ∃ b t, b ≠ Config.syncByte ∧ rest = List.replicate k Config.syncByte ++ b :: t := by
  induction rest with
  | nil => exact ⟨0, .inl rfl⟩
  | cons c r ih =>
    by_cases hc : c = Config.syncByte
    · obtain ⟨k, h | ⟨b, t, hb, h⟩⟩ := ih
      · exact ⟨k + 1, .inl (by simp [h, hc, List.replicate_succ])⟩
      · exact ⟨k + 1, .inr ⟨b, t, hb, by simp [h, hc, List.replicate_succ]⟩⟩
    · exact ⟨0, .inr ⟨c, r, hc, rfl⟩⟩

/-! ### One turn of the loop, by the form of the input -/

theorem parseOne_all_sync (pos : Nat) {k : Nat} (hk : 0 < k) :
    parseOne pos (List.replicate k Config.syncByte) = .error (.truncatedSection, pos) := by
  simp [parseOne, Nat.pos_iff_ne_zero.mp hk]

theorem parseOne_no_sync (pos : Nat) {b : Byte} (hb : b ≠ Config.syncByte) (rest : List Byte) :
    parseOne pos (b :: rest) = .error (.badFraming, pos) := by
  simp [parseOne, hb]

theorem parseOne_bad_soh (pos : Nat) {k : Nat} (hk : 0 < k) {b : Byte} (hb : b ≠ Config.syncByte) (hs : b ≠ Config.sohByte)
    (rest : List Byte) :
    parseOne pos (List.replicate k Config.syncByte ++ b :: rest) = .error (.badFraming, pos + k) := by
  simp [parseOne, takeWhile_sync hb, Nat.pos_iff_ne_zero.mp hk, hs]

theorem sohByte_ne_syncByte : Config.sohByte ≠ Config.syncByte := by decide

theorem parseOne_short_header (pos : Nat) {k : Nat} (hk : 0 < k) {hdr : List Byte} (h : hdr.length < 15) :
    parseOne pos (List.replicate k Config.syncByte ++ Config.sohByte :: hdr) = .error (.truncatedSection, pos) := by
  simp [parseOne, takeWhile_sync sohByte_ne_syncByte, Nat.pos_iff_ne_zero.mp hk, h]

theorem parseOne_short_payload (pos : Nat) {k : Nat} (hk : 0 < k) {hdr : List Byte} (h15 : 15 ≤ hdr.length)
    (h : hdr.length < 15 + payloadNeed (loglen (hdr.getD 10 0) (hdr.getD 13 0))) :
    parseOne pos (List.replicate k Config.syncByte ++ Config.sohByte :: hdr) = .error (.truncatedSection, pos) := by
  have h' : hdr.length - 15 < payloadNeed (loglen (hdr.getD 10 0) (hdr.getD 13 0)) := by omega
  simpa [parseOne, takeWhile_sync sohByte_ne_syncByte, Nat.pos_iff_ne_zero.mp hk, Nat.not_lt.mpr h15] using h'

theorem parseOne_section (pos : Nat) {k : Nat} (hk : 0 < k) {hdr : List Byte}
    (h : 15 + payloadNeed (loglen (hdr.getD 10 0) (hdr.getD 13 0)) ≤ hdr.length) :
    parseOne pos (List.replicate k Config.syncByte ++ Config.sohByte :: hdr) =
      let p := loglen (hdr.getD 10 0) (hdr.getD 13 0)
      .ok (⟨List.replicate k Config.syncByte ++ Config.sohByte :: hdr.take (15 + payloadNeed p), k, p⟩,
        hdr.drop (15 + payloadNeed p)) := by
  have h15 : ¬ hdr.length < 15 := by omega
  have h' : ¬ hdr.length - 15 < payloadNeed (loglen (hdr.getD 10 0) (hdr.getD 13 0)) := by omega
  unfold parseOne
  simp only [takeWhile_sync sohByte_ne_syncByte, List.length_replicate, Nat.pos_iff_ne_zero.mp hk, if_false,
    List.drop_left' (List.length_replicate ..), ne_eq, not_true_eq_false, Config.hdrRegionBytes, h15, List.length_drop, h']
  generalize payloadNeed (loglen (hdr.getD 10 0) (hdr.getD 13 0)) = n at *
  have e : k + 1 + 15 + n = k + ((15 + n) + 1) := by omega
  simp [e, List.take_append, List.drop_append, List.take_succ_cons, List.take_of_length_le]

/-- A turn that answers a section takes a well-formed, round-trip safe section off the front of the input. -/
theorem parseOne_ok {pos : Nat} {rest rest' : List Byte} {s : Section} (h : parseOne pos rest = .ok (s, rest')) :
    s.wf = true ∧ s.roundTripSafe = true ∧ rest = s.wire ++ rest' := by
  obtain ⟨k, rfl | ⟨b, t, hb, rfl⟩⟩ := sync_split rest
  · rcases Nat.eq_zero_or_pos k with rfl | hk
    · simp [parseOne] at h
    · simp [parseOne_all_sync pos hk] at h
  · rcases Nat.eq_zero_or_pos k with rfl | hk
    · simp [parseOne_no_sync pos hb] at h
    · by_cases hs : b = Config.sohByte
      · subst hs
        by_cases h15 : t.length < 15
        · simp [parseOne_short_header pos hk h15] at h
        · by_cases hp : t.length < 15 + payloadNeed (loglen (t.getD 10 0) (t.getD 13 0))
          · simp only [parseOne_short_payload pos hk (Nat.not_lt.mp h15) hp] at h
            cases h
          · rw [parseOne_section pos hk (Nat.not_lt.mp hp)] at h
            simp only [Except.ok.injEq, Prod.mk.injEq] at h
            obtain ⟨rfl, rfl⟩ := h
            have hle := Nat.not_lt.mp hp
            refine ⟨(Section.wf_iff _).mpr ⟨hk, loglen_le _ _, _, rfl, by simp [-List.getD_eq_getElem?_getD]; omega⟩, ?_, by simp⟩
            have g : ∀ j, j < 15 → ∀ n, (t.take (15 + n)).getD j 0 = t.getD j 0 := by
              intro j hj n; simp [show j < 15 + n by omega]
            simp only [Section.roundTripSafe, lenByte_shape, typeByte_shape, g 10 (by omega), g 13 (by omega), beq_self_eq_true]
      · simp [parseOne_bad_soh pos hk hb hs] at h

/-- A well-formed round-trip safe section in front of the input is what a turn answers. -/
theorem parseOne_safe {s : Section} (hw : s.wf = true) (hr : s.roundTripSafe = true) (pos : Nat) (rest : List Byte) :
    parseOne pos (s.wire ++ rest) = .ok (s, rest) := by
  obtain ⟨hk, -, tail, hwire, hlen⟩ := (Section.wf_iff s).mp hw
  obtain ⟨wire, k, p⟩ := s
  dsimp only at *
  subst hwire
  simp only [Section.roundTripSafe, lenByte_shape, typeByte_shape, beq_iff_eq] at hr
  have g : ∀ j, j < 15 → (tail ++ rest).getD j 0 = tail.getD j 0 := by
    intro j hj; simp [List.getElem?_append_left (show j < tail.length by omega)]
  have hp : loglen ((tail ++ rest).getD 10 0) ((tail ++ rest).getD 13 0) = p := by
    rw [g 10 (by omega), g 13 (by omega)]; exact hr
  have := parseOne_section pos hk (hdr := tail ++ rest) (by rw [hp]; simp; omega)
  simp only [hp] at this
  rw [List.append_assoc, List.cons_append, this]
  simp [← hlen]

/-- A section cut short is truncated at its start. -/
theorem parseOne_cut {s : Section} (hw : s.wf = true) (hr : s.roundTripSafe = true) (pos : Nat) {n : Nat} (h0 : 0 < n)
    (hn : n < s.wire.length) : parseOne pos (s.wire.take n) = .error (.truncatedSection, pos) := by
  obtain ⟨hk, -, tail, hwire, hlen⟩ := (Section.wf_iff s).mp hw
  obtain ⟨wire, k, p⟩ := s
  dsimp only at *
  subst hwire
  simp only [Section.roundTripSafe, lenByte_shape, typeByte_shape, beq_iff_eq] at hr
  by_cases h1 : n ≤ k
  · rw [List.take_append_of_le_length (by simpa using h1), List.take_replicate, Nat.min_eq_left h1]
    exact parseOne_all_sync pos h0
  · obtain ⟨m, rfl⟩ : ∃ m, n = k + (m + 1) := ⟨n - k - 1, by omega⟩
    have e : (List.replicate k Config.syncByte ++ Config.sohByte :: tail).take (k + (m + 1)) =
        List.replicate k Config.syncByte ++ Config.sohByte :: tail.take m := by
      simp [List.take_append, List.take_of_length_le]
    rw [e]
    have hm : m < tail.length := by simp at hn; omega
    by_cases h15 : m < 15
    · exact parseOne_short_header pos hk (by simp; omega)
    · have g : ∀ j, j < 15 → (tail.take m).getD j 0 = tail.getD j 0 := by
        intro j hj; simp [show j < m by omega]
      refine parseOne_short_payload pos hk (by simp; omega) ?_
      rw [g 10 (by omega), g 13 (by omega), hr]
      simp; omega

/-! ### The loop -/

@[simp] theorem parseLoop_nil (fuel pos : Nat) : parseLoop fuel pos [] = .ok [] := by
  unfold parseLoop; rfl

theorem parseLoop_succ (fuel pos : Nat) {rest : List Byte} (h : rest ≠ []) :
    parseLoop (fuel + 1) pos rest =
      match parseOne pos rest with
      | .error e => .error e
      | .ok (s, rest') =>
        match parseLoop fuel (pos + s.wire.length) rest' with
        | .error e => .error e
        | .ok S => .ok (s :: S) := by
  cases rest with
  | nil => exact absurd rfl h
  | cons b bs => rfl

theorem Section.wire_pos {s : Section} (h : s.wf = true) : 17 ≤ s.wire.length := by
  obtain ⟨hk, -, tail, hwire, hlen⟩ := (Section.wf_iff s).mp h
  rw [hwire]; simp; omega

theorem Section.wire_ne_nil {s : Section} (h : s.wf = true) : s.wire ≠ [] := by
  have := s.wire_pos h
  intro h0; simp [h0] at this

/-- The loop runs through an image of safe sections and goes on behind it, as long as fuel is left. -/
theorem parseLoop_image : ∀ (S : List Section) (fuel pos : Nat) (rest : List Byte),
    (∀ x ∈ S, x.wf = true ∧ x.roundTripSafe = true) → (tapeImage S ++ rest).length ≤ fuel →
    ∃ fuel', rest.length ≤ fuel' ∧ parseLoop fuel pos (tapeImage S ++ rest) =
      match parseLoop fuel' (pos + (tapeImage S).length) rest with
      | .error e => .error e
      | .ok T => .ok (S ++ T) := by
  intro S
  induction S with
  | nil =>
    intro fuel pos rest _ hf
    refine ⟨fuel, by simpa using hf, ?_⟩
    simp only [tapeImage_nil, List.nil_append, List.length_nil, Nat.add_zero]
    split <;> simp_all
  | cons s S ih =>
    intro fuel pos rest hS hf
    obtain ⟨hw, hr⟩ := hS s (by simp)
    have hpos := s.wire_pos hw
    obtain ⟨fuel, rfl⟩ : ∃ f, fuel = f + 1 := ⟨fuel - 1, by simp at hf; omega⟩
    obtain ⟨f', hf', he⟩ := ih fuel (pos + s.wire.length) rest (fun x hx => hS x (by simp [hx])) (by simp at hf ⊢; omega)
    refine ⟨f', hf', ?_⟩
    rw [parseLoop_succ _ _ (by simp [s.wire_ne_nil hw]), tapeImage_cons, List.append_assoc, parseOne_safe hw hr]
    simp only [he, List.length_append, Nat.add_assoc]
    split <;> rename_i h <;> split at h <;> simp_all

/-- The loop's answer is an image of safe sections that is the whole input. -/
theorem parseLoop_ok : ∀ (fuel pos : Nat) (rest : List Byte) (S : List Section), parseLoop fuel pos rest = .ok S →
    tapeImage S = rest ∧ ∀ x ∈ S, x.wf = true ∧ x.roundTripSafe = true := by
  intro fuel
  induction fuel with
  | zero =>
    intro pos rest S h
    cases rest with
    | nil => simp at h; subst h; simp
    | cons b bs => simp [parseLoop] at h
  | succ fuel ih =>
    intro pos rest S h
    by_cases hne : rest = []
    · subst hne; simp at h; subst h; simp
    · rw [parseLoop_succ _ _ hne] at h
      split at h
      · cases h
      · rename_i s rest' h1
        split at h
        · cases h
        · rename_i T h2
          cases h
          obtain ⟨hw, hr, he⟩ := parseOne_ok h1
          obtain ⟨hi, hT⟩ := ih _ _ _ h2
          refine ⟨by simp [hi, he], ?_⟩
          intro x hx
          rcases List.mem_cons.mp hx with rfl | hx
          · exact ⟨hw, hr⟩
          · exact hT x hx

/-- An error of one turn in front of which an image stands is the parse's error. -/
theorem parse_error_after_image {S : List Section} {rest : List Byte} {e : CmdError × Nat}
    (hS : ∀ x ∈ S, x.wf = true ∧ x.roundTripSafe = true) (hne : rest ≠ [])
    (h : parseOne (tapeImage S).length rest = .error e) : parse (tapeImage S ++ rest) = .error e := by
  obtain ⟨f, hf, he⟩ := parseLoop_image S _ 0 rest hS (Nat.le_refl _)
  obtain ⟨f, rfl⟩ : ∃ g, f = g + 1 := ⟨f - 1, by have := List.length_pos_iff.mpr hne; omega⟩
  rw [parse, he, Nat.zero_add, parseLoop_succ _ _ hne, h]

theorem parse_image {S : List Section} (hS : ∀ x ∈ S, x.wf = true ∧ x.roundTripSafe = true) : parse (tapeImage S) = .ok S := by
  obtain ⟨f, -, he⟩ := parseLoop_image S (tapeImage S).length 0 [] hS (by simp)
  simp only [List.append_nil, parseLoop_nil] at he
  rw [parse, he]

/-- The only errors a turn, a loop and a parse raise. -/
theorem parseOne_error {pos : Nat} {rest : List Byte} {e : CmdError} {off : Nat} (h : parseOne pos rest = .error (e, off)) :
    e = .badFraming ∨ e = .truncatedSection := by
  unfold parseOne at h
  dsimp only at h
  split at h
  · cases h; exact .inl rfl
  · split at h
    · cases h; exact .inr rfl
    · split at h
      · cases h; exact .inl rfl
      · split at h
        · cases h; exact .inr rfl
        · split at h
          · cases h; exact .inr rfl
          · cases h

theorem parseLoop_error : ∀ (fuel pos : Nat) (rest : List Byte) (e : CmdError) (off : Nat),
    parseLoop fuel pos rest = .error (e, off) → e = .badFraming ∨ e = .truncatedSection := by
  intro fuel
  induction fuel with
  | zero =>
    intro pos rest e off h
    cases rest with
    | nil => simp at h
    | cons b bs => simp [parseLoop] at h; exact .inr h.1.symm
  | succ fuel ih =>
    intro pos rest e off h
    by_cases hne : rest = []
    · subst hne; simp at h
    · rw [parseLoop_succ _ _ hne] at h
      split at h
      · rename_i h1; cases h; exact parseOne_error h1
      · split at h
        · rename_i h2; cases h; exact ih _ _ _ _ h2
        · cases h

theorem parse_error {buf : List Byte} {e : CmdError} {off : Nat} (h : parse buf = .error (e, off)) :
    e = .badFraming ∨ e = .truncatedSection := parseLoop_error _ _ _ _ _ h

end Sys2Proof.Machine
end

