-- ==== Sys2Proof/Laws/Framer.lean ====
section
/-! SUPPORT. An encoded section byte by byte, its fields, its checksums, and the beats, chunks and lengths of a program. -/

namespace Sys2Proof.Machine

/-- The 15 bytes of the header region the encoder makes (R55). -/
def headerRegion (n8 : Bytes8) (address : Half) (len : Nat) (type : SectionType) : List Byte :=
  hdrBodyBytes n8.toList address len type ++ checksum (hdrBodyBytes n8.toList address len type)

theorem hdrBodyBytes_length (n8 : Bytes8) (address : Half) (len : Nat) (type : SectionType) :
    (hdrBodyBytes n8.toList address len type).length = 14 := rfl

theorem hdrBodyBytes_ne_nil (n8 : Bytes8) (address : Half) (len : Nat) (type : SectionType) :
    hdrBodyBytes n8.toList address len type ≠ [] := by simp [hdrBodyBytes, Bytes8.toList]

theorem headerRegion_length (n8 : Bytes8) (address : Half) (len : Nat) (type : SectionType) :
    (headerRegion n8 address len type).length = 15 := by
  simp [headerRegion, checksum_length, hdrBodyBytes_length]

/-- An encoded section is a sync run, SOH, the header region, the payload and its checksum (R65). -/
theorem frame_eq (n8 : Bytes8) (address : Half) (d : List Byte) (type : SectionType) :
    frame n8.toList address d type =
      List.replicate 16 Config.syncByte ++ Config.sohByte :: (headerRegion n8 address d.length type ++ (d ++ checksum d)) := by
  simp [frame, headerRegion, Config.syncCount]

theorem frame_length (n8 : Bytes8) (address : Half) (d : List Byte) (type : SectionType) :
    (frame n8.toList address d type).length = 32 + d.length + (if d.length > 0 then 1 else 0) := by
  simp [frame_eq, headerRegion_length, checksum_length]; omega

theorem sectionOf_eq (n8 : Bytes8) (address : Half) (d : List Byte) (type : SectionType) :
    sectionOf n8.toList address d type =
      ⟨List.replicate 16 Config.syncByte ++ Config.sohByte :: (headerRegion n8 address d.length type ++ (d ++ checksum d)), 16, d.length⟩ := by
  simp only [sectionOf, frame_eq, Config.syncCount]

theorem sectionOf_wf {n8 : Bytes8} {address : Half} {d : List Byte} {type : SectionType} (h : d.length ≤ 256) :
    (sectionOf n8.toList address d type).wf = true := by
  rw [sectionOf_eq]
  refine (Section.wf_iff _).mpr ⟨by show 1 ≤ 16; decide, h, _, rfl, ?_⟩
  simp [headerRegion_length, checksum_length, payloadNeed]

/-- Bytes 17 to 30 of an encoded section. -/
theorem sectionOf_header_getD (n8 : Bytes8) (address : Half) (d : List Byte) (type : SectionType) (j : Nat) (hj : j < 14) :
    (sectionOf n8.toList address d type).byteAt (17 + j) = (hdrBodyBytes n8.toList address d.length type).getD j 0 := by
  rw [sectionOf_eq, show 17 + j = 16 + 1 + j by omega, byteAt_tail]
  simp only [headerRegion, List.getD_eq_getElem?_getD, List.append_assoc]
  rw [List.getElem?_append_left (by simpa [hdrBodyBytes_length] using hj)]

theorem sectionOf_lenByte (n8 : Bytes8) (address : Half) (d : List Byte) (type : SectionType) :
    (sectionOf n8.toList address d type).lenByte = BitVec.ofNat 8 (d.length % 256) :=
  (sectionOf_header_getD n8 address d type 10 (by omega)).trans rfl

theorem sectionOf_typeByte (n8 : Bytes8) (address : Half) (d : List Byte) (type : SectionType) :
    (sectionOf n8.toList address d type).typeByte = type.code :=
  (sectionOf_header_getD n8 address d type 13 (by omega)).trans rfl

theorem half_bytes (v : Half) : half (v.extractLsb' 0 8) (v.extractLsb' 8 8) = v := by
  apply BitVec.eq_of_getLsbD_eq
  intro i hi
  simp only [half, BitVec.getLsbD_append, BitVec.getLsbD_extractLsb']
  by_cases h : i < 8
  · simp [h]
  · simp [h, show i - 8 < 8 by omega, show 8 + (i - 8) = i by omega]

theorem sectionOf_addrField (n8 : Bytes8) (address : Half) (d : List Byte) (type : SectionType) :
    (sectionOf n8.toList address d type).addrField = if type = .exec then 0 else address := by
  have h9 := sectionOf_header_getD n8 address d type 8 (by omega)
  have h10 := sectionOf_header_getD n8 address d type 9 (by omega)
  refine Eq.trans ?_ (half_bytes _)
  exact congrArg₂ half h9 h10

theorem sectionOf_execField (n8 : Bytes8) (address : Half) (d : List Byte) (type : SectionType) :
    (sectionOf n8.toList address d type).execField = if type = .exec then address else 0 := by
  have h9 := sectionOf_header_getD n8 address d type 11 (by omega)
  have h10 := sectionOf_header_getD n8 address d type 12 (by omega)
  refine Eq.trans ?_ (half_bytes _)
  exact congrArg₂ half h9 h10

theorem sectionOf_drop (n8 : Bytes8) (address : Half) (d : List Byte) (type : SectionType) (j : Nat) :
    (sectionOf n8.toList address d type).wire.drop (17 + j) =
      (headerRegion n8 address d.length type ++ (d ++ checksum d)).drop j := by
  rw [sectionOf_eq, Nat.add_comm 17 j]; rfl

theorem sectionOf_hdrBody (n8 : Bytes8) (address : Half) (d : List Byte) (type : SectionType) :
    (sectionOf n8.toList address d type).hdrBody = hdrBodyBytes n8.toList address d.length type := by
  refine (congrArg (List.take 14) (sectionOf_drop n8 address d type 0)).trans ?_
  rw [List.drop_zero, headerRegion, List.append_assoc, List.take_left' (hdrBodyBytes_length ..)]

theorem sectionOf_nameField (n8 : Bytes8) (address : Half) (d : List Byte) (type : SectionType) :
    (sectionOf n8.toList address d type).nameField = n8.toList := by
  refine (congrArg (List.take 8) (sectionOf_drop n8 address d type 0)).trans ?_
  simp [headerRegion, hdrBodyBytes, List.take_append, Bytes8.toList]

theorem sectionOf_payload (n8 : Bytes8) (address : Half) (d : List Byte) (type : SectionType) :
    (sectionOf n8.toList address d type).payload = d := by
  refine (congrArg (List.take d.length) (sectionOf_drop n8 address d type 15)).trans ?_
  rw [List.drop_left' (headerRegion_length ..), List.take_left]

theorem sectionOf_hdrCk (n8 : Bytes8) (address : Half) (d : List Byte) (type : SectionType) :
    [(sectionOf n8.toList address d type).hdrCk] = checksum (hdrBodyBytes n8.toList address d.length type) := by
  have : (sectionOf n8.toList address d type).hdrCk = (headerRegion n8 address d.length type ++ (d ++ checksum d)).getD 14 0 := by
    rw [sectionOf_eq]; exact byteAt_tail 14
  rw [this, headerRegion, checksum_of_ne_nil (hdrBodyBytes_ne_nil n8 address d.length type), List.getD_eq_getElem?_getD,
    List.append_assoc, List.getElem?_append_right (by simp [hdrBodyBytes_length])]
  rfl

theorem sectionOf_payCk (n8 : Bytes8) (address : Half) {d : List Byte} (hd : d ≠ []) (type : SectionType) :
    [(sectionOf n8.toList address d type).payCk] = checksum d := by
  have : (sectionOf n8.toList address d type).payCk =
      (headerRegion n8 address d.length type ++ (d ++ checksum d)).getD (15 + d.length) 0 := by
    have e : (sectionOf n8.toList address d type).payCk = (sectionOf n8.toList address d type).byteAt (16 + 1 + (15 + d.length)) := by
      show Section.byteAt _ (16 + 16 + d.length) = _
      congr 1; omega
    rw [e, sectionOf_eq]; exact byteAt_tail _
  rw [this, checksum_of_ne_nil hd]
  simp [headerRegion_length]

/-- The checksum law of R59: a sequence and its checksum sum to 0 modulo 256. -/
theorem checksum_law {s : List Byte} {c : Byte} (h : [c] = checksum s) : (sumBytes s + c.toNat) % 256 = 0 := by
  have hne : s ≠ [] := by rintro rfl; simp at h
  rw [checksum_of_ne_nil hne] at h
  simp only [List.cons.injEq, and_true] at h
  subst h
  simp only [BitVec.toNat_ofNat]
  omega

theorem sectionOf_hdrOk (n8 : Bytes8) (address : Half) (d : List Byte) (type : SectionType) :
    (sectionOf n8.toList address d type).hdrOk = true := by
  simp only [Section.hdrOk, sectionOf_hdrBody, beq_iff_eq]
  exact checksum_law (sectionOf_hdrCk ..)

theorem sectionOf_payOk (n8 : Bytes8) (address : Half) (d : List Byte) (type : SectionType) :
    (sectionOf n8.toList address d type).payOk = true := by
  by_cases hd : d = []
  · subst hd; rfl
  · simp only [Section.payOk, sectionOf_payload, Bool.or_eq_true, beq_iff_eq]
    exact .inr (checksum_law (sectionOf_payCk _ _ hd _))

/-- When the parser reads an encoded section's length byte as its length (R80). -/
theorem sectionOf_roundTripSafe_iff {n8 : Bytes8} {address : Half} {d : List Byte} {type : SectionType} (h : d.length ≤ 256) :
    (sectionOf n8.toList address d type).roundTripSafe = true ↔
      ((type = .data ∨ type = .comment) ∧ 1 ≤ d.length) ∨ ((type = .end_ ∨ type = .exec) ∧ d.length ≤ 255) := by
  simp only [Section.roundTripSafe, sectionOf_lenByte, sectionOf_typeByte, beq_iff_eq]
  show loglen _ _ = d.length ↔ _
  have e0 : (BitVec.ofNat 8 (d.length % 256) ≠ 0) ↔ d.length % 256 ≠ 0 := by
    rw [ne_eq, ne_eq, ← BitVec.toNat_inj]; simp
  unfold loglen
  by_cases hz : d.length % 256 = 0
  · have hz' : ¬ (BitVec.ofNat 8 (d.length % 256) ≠ 0) := by simp [hz]
    rw [if_neg hz']
    rcases (show d.length = 0 ∨ d.length = 256 by omega) with h0 | h0 <;> cases type <;> simp [SectionType.code, h0]
  · have hz' : BitVec.ofNat 8 (d.length % 256) ≠ 0 := e0.mpr hz
    have hn : (BitVec.ofNat 8 (d.length % 256)).toNat = d.length := by simp; omega
    rw [if_pos hz', hn]
    cases type <;> simp <;> omega

/-! ### Beats -/

theorem sectionBeats_length (s : Section) : (sectionBeats s).length = s.wire.length := by simp [sectionBeats]

theorem sectionBeats_data (s : Section) : (sectionBeats s).map Beat.data = s.wire := by
  simp [sectionBeats, Function.comp_def]

theorem storeBeats_data (S : List Section) : (storeBeats S).map Beat.data = tapeImage S := by
  induction S with
  | nil => rfl
  | cons s S ih => simp [storeBeats, ← ih, sectionBeats_data] at ih ⊢

theorem sectionBeats_eq_mapIdx (s : Section) :
    sectionBeats s = s.wire.mapIdx fun i b => { data := b, sos := i == 0, eos := i + 1 == s.wire.length } := by
  simp [sectionBeats, List.mapIdx_eq_zipIdx_map]

/-- No beat has both flags set, since a section has at least 17 bytes (R31). -/
theorem storeBeats_flags {S : List Section} (hS : ∀ x ∈ S, x.wf = true) :
    ∀ b ∈ storeBeats S, ¬(b.sos = true ∧ b.eos = true) := by
  intro b hb
  simp only [storeBeats, List.mem_flatMap] at hb
  obtain ⟨s, hs, hb⟩ := hb
  have := s.wire_pos (hS s hs)
  simp only [sectionBeats, List.mem_map] at hb
  obtain ⟨c, -, rfl⟩ := hb
  simp
  omega

/-! ### Chunks and programs -/

theorem chunks_length (d : List Byte) : (chunks d).length = (d.length + 255) / 256 := by simp [chunks]

theorem chunks_getElem? (d : List Byte) (i : Nat) :
    (chunks d)[i]? = if i < (d.length + 255) / 256 then some ((d.drop (256 * i)).take 256) else none := by
  simp only [chunks, Config.chunkBytes, List.getElem?_map]
  split <;> rename_i h
  · simp [List.getElem?_range h]
  · rw [List.getElem?_eq_none (by simpa using h)]; rfl

theorem chunks_cons {d : List Byte} (h : d ≠ []) : chunks d = d.take 256 :: chunks (d.drop 256) := by
  have hpos := List.length_pos_iff.mpr h
  have e : (d.length + 255) / 256 = ((d.drop 256).length + 255) / 256 + 1 := by simp; omega
  simp only [chunks, e, List.range_succ_eq_map, List.map_cons, List.map_map, Config.chunkBytes]
  simp [Function.comp_def, Nat.mul_succ, Nat.add_comm]

@[simp] theorem chunks_nil : chunks [] = [] := rfl

theorem chunks_mem_length {d c : List Byte} (h : c ∈ chunks d) : 1 ≤ c.length ∧ c.length ≤ 256 := by
  simp only [chunks, List.mem_map, List.mem_range, Config.chunkBytes] at h
  obtain ⟨i, hi, rfl⟩ := h
  simp; omega

/-- An induction over a binary, 256 bytes at a time. -/
theorem chunk_induction {P : List Byte → Prop} (nil : P []) (cons : ∀ d, d ≠ [] → P (d.drop 256) → P d) (d : List Byte) : P d := by
  induction h : d.length using Nat.strong_induction_on generalizing d with
  | _ n ih =>
    by_cases hd : d = []
    · subst hd; exact nil
    · have hpos := List.length_pos_iff.mpr hd
      exact cons d hd (ih (d.drop 256).length (by simp; omega) _ rfl)

theorem chunks_flatten (d : List Byte) : (chunks d).flatten = d := by
  induction d using chunk_induction with
  | nil => rfl
  | cons d hd ih => rw [chunks_cons hd, List.flatten_cons, ih, List.take_append_drop]

theorem dataSections_length (n8 : List Byte) (address : Half) (d : List Byte) :
    (dataSections n8 address d).length = (d.length + 255) / 256 := by simp [dataSections, chunks_length]

theorem dataSections_mem {n8 : Bytes8} {address : Half} {d : List Byte} {x : Section}
    (h : x ∈ dataSections n8.toList address d) : ∃ a c, c ∈ chunks d ∧ x = sectionOf n8.toList a c .data := by
  simp only [dataSections, List.mem_map] at h
  obtain ⟨⟨c, i⟩, hc, rfl⟩ := h
  exact ⟨_, c, List.fst_mem_of_mem_zipIdx hc, rfl⟩

/-- Every section of a program is an encoded one with a payload the parser can frame. -/
theorem program_mem {n8 : Bytes8} {address : Half} {x : Bool} {e : Half} {d : List Byte} {s : Section}
    (h : s ∈ program n8.toList address x e d) :
    ∃ a c type, s = sectionOf n8.toList a c type ∧ c.length ≤ 256 ∧
      (((type = .data ∨ type = .comment) ∧ 1 ≤ c.length) ∨ ((type = .end_ ∨ type = .exec) ∧ c.length ≤ 255)) := by
  simp only [program, List.mem_append, List.mem_singleton] at h
  rcases h with ((rfl | h) | rfl) | rfl
  · exact ⟨_, _, _, rfl, by decide, .inl ⟨.inr rfl, by decide⟩⟩
  · obtain ⟨a, c, hc, rfl⟩ := dataSections_mem h
    obtain ⟨h1, h2⟩ := chunks_mem_length hc
    exact ⟨_, _, _, rfl, h2, .inl ⟨.inl rfl, h1⟩⟩
  · exact ⟨_, _, _, rfl, by decide, .inl ⟨.inr rfl, by decide⟩⟩
  · cases x
    · exact ⟨0, [], .end_, rfl, by decide, .inr ⟨.inl rfl, by decide⟩⟩
    · exact ⟨e, [], .exec, rfl, by decide, .inr ⟨.inr rfl, by decide⟩⟩

theorem program_safe {n8 : Bytes8} {address : Half} {x : Bool} {e : Half} {d : List Byte} :
    ∀ s ∈ program n8.toList address x e d, s.wf = true ∧ s.roundTripSafe = true := by
  intro s hs
  obtain ⟨a, c, type, rfl, hc, h⟩ := program_mem hs
  exact ⟨sectionOf_wf hc, (sectionOf_roundTripSafe_iff hc).mpr h⟩

/-- The wire lengths of the data sections are those of the chunks. -/
theorem dataSections_wireLengths (n8 : Bytes8) (address : Half) (d : List Byte) :
    (dataSections n8.toList address d).map (fun s => s.wire.length) =
      (chunks d).map fun c => 32 + c.length + (if c.length > 0 then 1 else 0) := by
  simp only [dataSections, List.map_map, Function.comp_def, sectionOf, frame_length]
  have := List.zipIdx_map_fst 0 (chunks d)
  conv_rhs => rw [← this, List.map_map]
  rfl

/-! ### The proposed name (R62) -/

theorem padname_toList {t : List Byte} (h : t.length ≤ 8) : ∃ n8, (padname t).map Bytes8.ofList = some n8 ∧ n8.toList = t ++ List.replicate (8 - t.length) 0x20#8 := by
  have h' : ¬ t.length > Config.nameBytes := by simp [Config.nameBytes]; omega
  refine ⟨Bytes8.ofList (t ++ List.replicate (8 - t.length) 0x20#8), by simp [padname, h', Config.nameBytes, Config.namePad], ?_⟩
  have : ∀ l : List Byte, l.length = 8 → (Bytes8.ofList l).toList = l := by
    intro l hl
    match l, hl with
    | [a,b,c,d,e,f,g,h], _ => rfl
  exact this _ (by simp; omega)

/-- The proposed name of at most 8 bytes, padded (R62). -/
theorem proposedName_some {b : Block} (h : b.nameLen.toNat ≤ 8) : ∃ n8, b.proposedName = some n8 ∧ n8.toList = b.nameBuf.toList.take b.nameLen.toNat ++ List.replicate (8 - b.nameLen.toNat) 0x20#8 := by
  have h' : ¬ b.nameLen.toNat > Config.nameBytes := by simp [Config.nameBytes]; omega
  have hl : (b.nameBuf.toList.take b.nameLen.toNat).length = b.nameLen.toNat := by simp [Bytes8.toList]; omega
  obtain ⟨n8, h1, h2⟩ := padname_toList (t := b.nameBuf.toList.take b.nameLen.toNat) (by omega)
  rw [hl] at h2
  exact ⟨n8, by simp only [Block.proposedName, h', if_false, h1], h2⟩

theorem proposedName_none {b : Block} (h : 8 < b.nameLen.toNat) : b.proposedName = none := by
  simp [Block.proposedName, Config.nameBytes, h]

/-! ### Lengths, fields and payloads of a program's sections -/

theorem wire_length_le_total {S : List Section} {x : Section} (h : x ∈ S) : x.wire.length ≤ total S := by
  induction S with
  | nil => simp at h
  | cons y S ih =>
    rcases List.mem_cons.mp h with rfl | h
    · simp
    · have := ih h; simp; omega

/-- The wire lengths of the Data sections: the full chunks, then the short one (R72). -/
theorem chunks_wireLengths (d : List Byte) : (chunks d).map (fun c => 32 + c.length + (if c.length > 0 then 1 else 0)) =
   List.replicate (d.length / 256) 289 ++ (if d.length % 256 > 0 then [33 + d.length % 256] else []) := by
  induction d using chunk_induction with
  | nil => rfl
  | cons d hd ih =>
    have hpos := List.length_pos_iff.mpr hd
    rw [chunks_cons hd, List.map_cons, ih]
    by_cases h : 256 ≤ d.length
    · have e1 : d.length / 256 = (d.length - 256) / 256 + 1 := by omega
      have e2 : (d.length - 256) % 256 = d.length % 256 := by omega
      simp only [List.length_drop, e1, e2, List.replicate_succ, List.length_take, Nat.min_eq_left h]; rfl
    · have e1 : d.length / 256 = 0 := by omega
      have e0 : d.length - 256 = 0 := by omega
      have e2 : d.length % 256 = d.length := by omega
      simp only [List.length_drop, e0, e1, e2, List.length_take, Nat.min_eq_right (show d.length ≤ 256 by omega)]
      simp [hpos]; omega

/-- Data section `i` (R70). -/
theorem dataSections_getElem? (n8 : Bytes8) (address : Half) (d : List Byte) (i : Nat) (hi : i < (d.length + 255) / 256) :
   (dataSections n8.toList address d)[i]? = some (sectionOf n8.toList (address + BitVec.ofNat 16 (256 * i)) ((d.drop (256 * i)).take 256) .data) := by
  simp only [dataSections, List.getElem?_map, List.getElem?_zipIdx, chunks_getElem?, if_pos hi]
  simp [Config.chunkBytes]

theorem dataSections_typeBytes (n8 : Bytes8) (address : Half) (d : List Byte) : (dataSections n8.toList address d).map (fun s => s.typeByte) = List.replicate ((d.length + 255) / 256) 0#8 := by
  apply List.ext_getElem?
  intro i
  by_cases hi : i < (d.length + 255) / 256
  · rw [List.getElem?_map, dataSections_getElem? _ _ _ _ hi]
    simp [sectionOf_typeByte, hi, SectionType.code]
  · rw [List.getElem?_eq_none (by simpa [dataSections_length] using hi), List.getElem?_eq_none (by simpa using hi)]

theorem dataSections_payloads (n8 : Bytes8) (address : Half) (d : List Byte) : (dataSections n8.toList address d).map (fun s => s.payload) = chunks d := by
  apply List.ext_getElem?
  intro i
  by_cases hi : i < (d.length + 255) / 256
  · rw [List.getElem?_map, dataSections_getElem? _ _ _ _ hi, chunks_getElem?, if_pos hi]
    simp [sectionOf_payload]
  · rw [List.getElem?_eq_none (by simpa [dataSections_length] using hi), List.getElem?_eq_none (by simpa [chunks_length] using hi)]

/-! ### The flags of the beats -/

theorem storeBeats_length (S : List Section) : (storeBeats S).length = total S := by
  rw [← tapeImage_length, ← storeBeats_data, List.length_map]

/-- A section's beats have one with sos (R31). -/
theorem sectionBeats_sos_count (sec : Section) (h : sec.wf = true) : ((sectionBeats sec).filter (fun b => b.sos)).length = 1 := by
  have := sec.wire_pos h
  cases hw : sec.wire with
  | nil => simp [hw] at this
  | cons b w =>
    simp only [sectionBeats, hw, List.zipIdx_cons, List.map_cons, Nat.zero_add, List.filter_cons]
    have : ((w.zipIdx 1).map fun c => ({ data := c.1, sos := c.2 == 0, eos := c.2 + 1 == (b :: w).length } : Beat)).filter (fun b => b.sos) = [] := by
      apply List.filter_eq_nil_iff.mpr
      intro x hx
      obtain ⟨⟨c, i⟩, hc, rfl⟩ := List.mem_map.mp hx
      have := List.le_snd_of_mem_zipIdx hc
      simp at this ⊢; omega
    rw [this]; rfl

/-- A section's last beat has eos, and no other (R31). -/
theorem sectionBeats_eos_last (sec : Section) (h : sec.wf = true) : ∃ l b, sectionBeats sec = l ++ [b] ∧ b.eos = true ∧ (∀ x ∈ l, x.eos = false) := by
  have hp := sec.wire_pos h
  refine ⟨(sectionBeats sec).dropLast, (sectionBeats sec).getLast (by intro hh; have := congrArg List.length hh; rw [sectionBeats_length] at this; simp at this; rw [this] at hp; simp at hp), (List.dropLast_append_getLast _).symm, ?_, ?_⟩
  · rw [List.getLast_eq_getElem]
    simp [sectionBeats]; omega
  · intro x hx
    obtain ⟨i, hi, rfl⟩ := List.mem_iff_getElem.mp hx
    rw [List.getElem_dropLast]
    rw [List.length_dropLast, sectionBeats_length] at hi
    simp [sectionBeats]; omega

end Sys2Proof.Machine
end

