-- ==== Sys2Proof/Laws/Downstream.lean ====
section
/-! SUPPORT. What the functions of the neighbours' contract can do (spec/48_downstream_consumers.md): writing in order to something that
may fail, the blocks' lengths and sample values, and that modulators exist. -/

namespace Sys2Proof.Machine.Downstream

/-! ### Writing in order -/

/-- Everything a write in order can do: the first `n` items are written, each answered yes; either that is all of them and there is no
error, or write `n` was answered no and that is the error. -/
theorem writeInOrder_spec {α : Type} (ok : Nat → Bool) (err : NeighbourError) (items : List α) : ∀ k,
    ∃ n ≤ items.length, (writeInOrder ok err k items).written = items.take n ∧ (∀ j < n, ok (k + j) = true) ∧
      ((n = items.length ∧ (writeInOrder ok err k items).error = none) ∨
       (n < items.length ∧ ok (k + n) = false ∧ (writeInOrder ok err k items).error = some err)) := by
  induction items with
  | nil => exact fun k => ⟨0, by simp, rfl, by simp, .inl ⟨rfl, rfl⟩⟩
  | cons x rest ih =>
    intro k
    cases hk : ok k
    · exact ⟨0, by simp, by simp [writeInOrder, hk], by simp, .inr ⟨by simp, hk, by simp [writeInOrder, hk]⟩⟩
    · obtain ⟨n, hn, hw, hok, hend⟩ := ih (k + 1)
      refine ⟨n + 1, by simpa using hn, by simp [writeInOrder, hk, hw], ?_, ?_⟩
      · intro j hj
        cases j with
        | zero => exact hk
        | succ j => have := hok j (by omega); rwa [Nat.add_right_comm] at this
      · obtain ⟨h, e⟩ | ⟨h, hf, e⟩ := hend
        · exact .inl ⟨by simp [h], by simp [writeInOrder, hk, e]⟩
        · exact .inr ⟨by simpa using h, by rwa [Nat.add_right_comm] at hf, by simp [writeInOrder, hk, e]⟩

/-- If every write is answered yes, all items are written. -/
theorem writeInOrder_all {α : Type} {ok : Nat → Bool} {items : List α} (err : NeighbourError)
    (h : ∀ k < items.length, ok k = true) : writeInOrder ok err 0 items = { written := items, error := none } := by
  obtain ⟨n, -, hw, -, ⟨hn, he⟩ | ⟨hn, hf, -⟩⟩ := writeInOrder_spec ok err items 0
  · rw [hn, List.take_length] at hw
    exact WriteRun.mk.injEq .. ▸ ⟨hw, he⟩
  · rw [Nat.zero_add, h n hn] at hf; cases hf

/-- If write `k` is the first answered no, the items before it are written and that is the error. -/
theorem writeInOrder_stops {α : Type} {ok : Nat → Bool} {items : List α} (err : NeighbourError) {k : Nat} (hk : k < items.length)
    (hf : ok k = false) (hb : ∀ j < k, ok j = true) :
    writeInOrder ok err 0 items = { written := items.take k, error := some err } := by
  obtain ⟨n, -, hw, hok, hend⟩ := writeInOrder_spec ok err items 0
  simp only [Nat.zero_add] at hok hend
  have hnk : n ≤ k := by
    by_contra hlt
    have := hok k (by omega)
    rw [hf] at this; cases this
  obtain ⟨hn, -⟩ | ⟨-, hn, he⟩ := hend
  · omega
  · have : n = k := by
      by_contra hne
      have := hb n (by omega)
      rw [hn] at this; cases this
    subst this
    exact WriteRun.mk.injEq .. ▸ ⟨hw, he⟩

/-! ### Blocks -/

theorem byteTones_length (b : Byte) : (byteTones b).length = 11 := by simp [byteTones]
theorem byteSquares_length (b : Byte) : (byteSquares b).length = 8 := by simp [byteSquares]
theorem toneSamples_length (m : Modulator) (t : Tone) : (m.toneSamples t).length = 160 := List.length_ofFn
theorem squareSamples_length (a : Config.Amplitude) (q : Square) : (squareSamples a q).length = 20 := by cases q <;> rfl

theorem byteEncoded_length (beats : List Beat) : (byteEncoded beats).length = 11 * beats.length := by
  induction beats with
  | nil => rfl
  | cons b rest ih => simp only [byteEncoded, List.flatMap_cons, List.length_append, byteTones_length, List.length_cons] at ih ⊢; omega

/-- The sample at `+amplitude` is the amplitude. -/
theorem highSample_toInt (a : Config.Amplitude) : (highSample a).toInt = ((a : Nat) : Int) := by
  have := a.isLt
  rw [highSample, BitVec.toInt_eq_toNat_of_lt (by rw [BitVec.toNat_ofNat]; omega), BitVec.toNat_ofNat]
  omega

/-- The sample at `-amplitude` is exactly the negation: no wrap at any amplitude (log 14). -/
theorem lowSample_toInt (a : Config.Amplitude) : (lowSample a).toInt = -((a : Nat) : Int) := by
  have := a.isLt
  simp only [lowSample, BitVec.toInt_ofInt, Int.bmod]
  omega

/-! ### Paced writes -/

theorem pacedWrites_length (t : Config.Transmitter) (total : Nat) (beats : List Beat) :
    (pacedWrites t total beats).length = beats.length := by simp [pacedWrites]

theorem pacedWrites_data (t : Config.Transmitter) (total : Nat) (beats : List Beat) :
    (pacedWrites t total beats).map PortWrite.data = beats.map Beat.data := by
  apply List.ext_getElem?
  intro i
  simp [pacedWrites, portWrite, Function.comp_def]

/-- The first writes of a beat stream are the writes of its first beats. -/
theorem pacedWrites_take (t : Config.Transmitter) (total : Nat) (beats : List Beat) (k : Nat) :
    (pacedWrites t total beats).take k = pacedWrites t total (beats.take k) := by
  apply List.ext_getElem?
  intro i
  simp only [pacedWrites, List.getElem?_take, List.getElem?_mapIdx]
  split <;> simp

/-! ### Modulators exist -/

/-- Rounding down is a rounding. -/
theorem isRounding_floor : IsRounding fun x => BitVec.ofInt 16 ⌊x⌋ := by
  intro x hx
  obtain ⟨h1, h2⟩ := abs_le.mp hx
  have a1 : (-32767 : Int) ≤ ⌊x⌋ := Int.le_floor.mpr (by exact_mod_cast h1)
  have a2 : ⌊x⌋ ≤ 32767 := by exact_mod_cast (Int.floor_le x).trans h2
  have e : (BitVec.ofInt 16 ⌊x⌋).toInt = ⌊x⌋ := by
    simp only [BitVec.toInt_ofInt, Int.bmod]
    omega
  rw [e, abs_lt]
  constructor <;> linarith [Int.floor_le x, Int.lt_floor_add_one x]

/-- Every choice of parameters with a rounding is that of some modulator. -/
theorem exists_modulator (p : Config.ModulatorParams) (h : IsRounding p.rounding) : ∃ m : Modulator, m.toModulatorParams = p :=
  ⟨⟨p, _, h, fun _ _ => rfl⟩, rfl⟩

end Sys2Proof.Machine.Downstream
end

