-- ==== Sys2Proof/Laws/Frames.lean ====
section
/-! SUPPORT. What the command bodies and exec leave alone, which errors a body ends with, and everything exec can do. -/

namespace Sys2Proof.Machine

/-- Everything exec can do: drop the command (busy, or the error gate), or run the body to its end (R84). -/
theorem exec_cases {s t : State} {i : Instr} (h : exec i s = .next t) :
    (t = s ∧ (s.blk.busy = true ∨ (s.blk.err = true ∧ i ≠ .clrErr))) ∨
    (s.blk.busy = false ∧ (s.blk.err = false ∨ i = .clrErr) ∧ t = endCommand (encode i) s (bodyOf i (s.withBlk s.blk.start))) := by
  rw [exec_eq_commandFrame] at h
  have := commandFrame_cases h
  rwa [ne_eq, encode_eq_clrErrWord_iff] at this

/-- A command that is neither busy nor gated runs its body from the started state (R84). -/
theorem exec_ready {s : State} (h : s.Ready) (i : Instr) : exec i s = .next (endCommand (encode i) s (bodyOf i (s.withBlk s.blk.start))) := by
  rw [exec_eq_commandFrame, commandFrame_ready h]

/-- The status flags and the error record. -/
structure SameStatus (s t : State) : Prop where
  busy : t.blk.busy = s.blk.busy
  done : t.blk.done = s.blk.done
  err : t.blk.err = s.blk.err
  errCode : t.blk.errCode = s.blk.errCode
  errOp : t.blk.errOp = s.blk.errOp
  errOffset : t.blk.errOffset = s.blk.errOffset

theorem SameStatus.refl (s : State) : SameStatus s s := ⟨rfl, rfl, rfl, rfl, rfl, rfl⟩

/-- No body but that of CLR_ERR writes the status flags or the error record. -/
theorem bodyOf_sameStatus {i : Instr} (hi : i ≠ .clrErr) (s : State) : SameStatus s (bodyOf i s).reached := by
  have app : ∀ type, SameStatus s (bodyAppend type s).reached := by
    intro type
    unfold bodyAppend
    split
    · exact .refl s
    · apply readInput_reached (P := SameStatus s)
      · constructor <;> simp
      · split
        · constructor <;> simp [BodyResult.reached]
        · apply replaceStore_reached (P := SameStatus s) <;> constructor <;> simp
  have fb : ∀ x, SameStatus s (bodyFromBinary x s).reached := by
    intro x
    unfold bodyFromBinary
    split
    · exact .refl s
    · apply readInput_reached (P := SameStatus s)
      · constructor <;> simp
      · apply replaceStore_reached (P := SameStatus s) <;> constructor <;> simp
  cases i with
  | setName => simp only [bodyOf, bodySetName]; split <;> constructor <;> simp [BodyResult.reached]
  | clear => constructor <;> simp [bodyOf, bodyClear, BodyResult.reached]
  | appendData => exact app _
  | appendComment => exact app _
  | appendEnd => exact app _
  | appendExec => exact app _
  | fromBinary => exact fb _
  | fromBinaryX => exact fb _
  | toBytes =>
    obtain ⟨n, h⟩ := bodyToBytes_reached s
    simp only [bodyOf, h]; constructor <;> rfl
  | decode =>
    simp only [bodyOf, bodyDecode]
    apply readInput_reached (P := SameStatus s)
    · constructor <;> simp
    · split
      · constructor <;> simp [BodyResult.reached]
      · apply replaceStore_reached (P := SameStatus s) <;> constructor <;> simp
  | verify => simp only [bodyOf, bodyVerify]; split <;> constructor <;> simp [BodyResult.reached]
  | checksum =>
    simp only [bodyOf, bodyChecksum]
    apply readInput_reached (P := SameStatus s)
    · constructor <;> simp
    · cases h : checksum s.inp.bytes <;> constructor <;> simp [BodyResult.reached]
  | clrErr => exact absurd rfl hi

/-- A body only adds beats, and only that of TO_BYTES adds any: beats of the store. -/
theorem bodyOf_out (i : Instr) (s : State) : ∃ beats, (bodyOf i s).reached.out = s.out ++ beats ∧ (i ≠ .toBytes → beats = []) ∧ (∀ b ∈ beats, b ∈ storeBeats s.blk.store) := by
  by_cases hi : i = .toBytes
  · subst hi
    obtain ⟨n, h⟩ := bodyToBytes_reached s
    exact ⟨(storeBeats s.blk.store).take n, by simp [bodyOf, h], by simp, fun b hb => List.mem_of_mem_take hb⟩
  · have app : ∀ type, (bodyAppend type s).reached.out = s.out := by
      intro type
      unfold bodyAppend
      split
      · rfl
      · apply readInput_reached (P := fun t => t.out = s.out)
        · rfl
        · split
          · rfl
          · apply replaceStore_reached (P := fun t => t.out = s.out) <;> rfl
    have fb : ∀ x, (bodyFromBinary x s).reached.out = s.out := by
      intro x
      unfold bodyFromBinary
      split
      · rfl
      · apply readInput_reached (P := fun t => t.out = s.out)
        · rfl
        · apply replaceStore_reached (P := fun t => t.out = s.out) <;> rfl
    refine ⟨[], ?_, fun _ => rfl, by simp⟩
    rw [List.append_nil]
    cases i with
    | setName => simp only [bodyOf, bodySetName]; split <;> rfl
    | clear => rfl
    | appendData => exact app _
    | appendComment => exact app _
    | appendEnd => exact app _
    | appendExec => exact app _
    | fromBinary => exact fb _
    | fromBinaryX => exact fb _
    | toBytes => exact absurd rfl hi
    | decode =>
      simp only [bodyOf, bodyDecode]
      apply readInput_reached (P := fun t => t.out = s.out)
      · rfl
      · split
        · rfl
        · apply replaceStore_reached (P := fun t => t.out = s.out) <;> rfl
    | verify => simp only [bodyOf, bodyVerify]; split <;> rfl
    | checksum =>
      simp only [bodyOf, bodyChecksum]
      apply readInput_reached (P := fun t => t.out = s.out) <;> rfl
    | clrErr => rfl

/-- What a command may write of the name, the store and the result registers. -/
structure CommandFrame (i : Instr) (s t : State) : Prop where
  name : i ≠ .setName → i ≠ .fromBinary → i ≠ .fromBinaryX → t.blk.name = s.blk.name ∧ t.blk.nameSet = s.blk.nameSet
  store : i = .setName ∨ i = .toBytes ∨ i = .verify ∨ i = .checksum ∨ i = .clrErr → t.blk.store = s.blk.store
  valid : t.blk.store = s.blk.store ∨ t.blk.verValid = false
  ck : i ≠ .checksum → t.blk.ckValue = s.blk.ckValue ∧ t.blk.ckEmpty = s.blk.ckEmpty
  ver : i ≠ .verify → t.blk.verHdrOk = s.blk.verHdrOk ∧ t.blk.verPayOk = s.blk.verPayOk ∧ (t.blk.verValid = s.blk.verValid ∨ t.blk.verValid = false)

theorem CommandFrame.refl (i : Instr) (s : State) : CommandFrame i s s := by constructor <;> simp

theorem bodyOf_frame (i : Instr) (s : State) : CommandFrame i s (bodyOf i s).reached := by
  have app : ∀ i type, i = .appendData ∨ i = .appendComment ∨ i = .appendEnd ∨ i = .appendExec → CommandFrame i s (bodyAppend type s).reached := by
    intro i type hi
    unfold bodyAppend
    split
    · exact .refl i s
    · apply readInput_reached (P := CommandFrame i s)
      · constructor <;> simp
      · split
        · constructor <;> simp [BodyResult.reached]
        · apply replaceStore_reached (P := CommandFrame i s) <;> constructor <;> rcases hi with rfl | rfl | rfl | rfl <;> simp
  have fb : ∀ i x, i = .fromBinary ∨ i = .fromBinaryX → CommandFrame i s (bodyFromBinary x s).reached := by
    intro i x hi
    unfold bodyFromBinary
    split
    · exact .refl i s
    · apply readInput_reached (P := CommandFrame i s)
      · constructor <;> simp
      · apply replaceStore_reached (P := CommandFrame i s) <;> constructor <;> rcases hi with rfl | rfl <;> simp
  cases i with
  | setName => simp only [bodyOf, bodySetName]; split <;> constructor <;> simp [BodyResult.reached]
  | clear => constructor <;> simp [bodyOf, bodyClear, BodyResult.reached]
  | appendData => exact app _ _ (by simp)
  | appendComment => exact app _ _ (by simp)
  | appendEnd => exact app _ _ (by simp)
  | appendExec => exact app _ _ (by simp)
  | fromBinary => exact fb _ _ (by simp)
  | fromBinaryX => exact fb _ _ (by simp)
  | toBytes =>
    obtain ⟨n, h⟩ := bodyToBytes_reached s
    simp only [bodyOf, h]; constructor <;> simp
  | decode =>
    simp only [bodyOf, bodyDecode]
    apply readInput_reached (P := CommandFrame .decode s)
    · constructor <;> simp
    · split
      · constructor <;> simp [BodyResult.reached]
      · apply replaceStore_reached (P := CommandFrame .decode s) <;> constructor <;> simp
  | verify => simp only [bodyOf, bodyVerify]; split <;> constructor <;> simp [BodyResult.reached]
  | checksum =>
    simp only [bodyOf, bodyChecksum]
    apply readInput_reached (P := CommandFrame .checksum s) <;> constructor <;> simp [BodyResult.reached]
  | clrErr => constructor <;> simp [bodyOf, bodyClrErr, BodyResult.reached]

theorem exec_frame {i : Instr} {s t : State} (h : exec i s = .next t) : CommandFrame i s t := by
  rcases exec_cases h with ⟨rfl, -⟩ | ⟨-, -, rfl⟩
  · exact .refl i _
  · have f := bodyOf_frame i (s.withBlk s.blk.start)
    cases hb : bodyOf i (s.withBlk s.blk.start) with
    | aborted e off u => constructor <;> simp [endCommand, raiseError]
    | finished u =>
      rw [hb] at f
      exact ⟨f.name, f.store, f.valid, f.ck, f.ver⟩

theorem exec_out {i : Instr} {s t : State} (h : exec i s = .next t) : ∃ beats, t.out = s.out ++ beats ∧ (i ≠ .toBytes → beats = []) ∧ ∀ b ∈ beats, b ∈ storeBeats s.blk.store := by
  rcases exec_cases h with ⟨rfl, -⟩ | ⟨-, -, rfl⟩
  · exact ⟨[], by simp⟩
  · obtain ⟨beats, h1, h2, h3⟩ := bodyOf_out i (s.withBlk s.blk.start)
    refine ⟨beats, ?_, h2, h3⟩
    rw [← show (s.withBlk s.blk.start).out = s.out from rfl, ← h1]
    cases bodyOf i (s.withBlk s.blk.start) <;> rfl

/-! ### Errors -/

theorem readInput_aborted {s : State} {rest : List Byte → State → BodyResult} {e off u} (h : readInput s rest = .aborted e off u) :
   e = .sourceReadFailure ∨ rest s.inp.bytes (s.withBlk (s.blk.countInput s.inp.bytes.length)) = .aborted e off u := by
  cases hf : s.inp.fails
  · rw [readInput_ok hf] at h; exact .inr h
  · rw [readInput_fails hf] at h; cases h; exact .inl rfl

theorem replaceStore_aborted {s : State} {S f} {e off u} (h : replaceStore s S f = .aborted e off u) : e = .storeOverflow := by
  unfold replaceStore at h; split at h <;> cases h; rfl

/-- Which commands raise an error: the Raised by column (R99). -/
def CmdError.raisedBy (i : Instr) : CmdError → Prop
  | .nameTooLong => i = .setName ∨ i = .fromBinary ∨ i = .fromBinaryX
  | .truncatedSection => i = .decode
  | .sinkWriteFailure => i = .toBytes
  | .sourceReadFailure => i = .checksum ∨ i = .appendData ∨ i = .appendComment ∨ i = .appendEnd ∨ i = .appendExec ∨
      i = .fromBinary ∨ i = .fromBinaryX ∨ i = .decode
  | .badFraming => i = .decode
  | .nameNotSet => i = .appendData ∨ i = .appendComment ∨ i = .appendEnd ∨ i = .appendExec
  | .payloadTooLong => i = .appendData ∨ i = .appendComment ∨ i = .appendEnd ∨ i = .appendExec
  | .illegalCommand => False
  | .badSelect => i = .verify
  | .storeOverflow => i = .appendData ∨ i = .appendComment ∨ i = .appendEnd ∨ i = .appendExec ∨
      i = .fromBinary ∨ i = .fromBinaryX ∨ i = .decode

/-- A body ends only with the errors of its command (R99). -/
theorem bodyOf_errors {i : Instr} {s u : State} {e : CmdError} {off : Nat} (h : bodyOf i s = .aborted e off u) : CmdError.raisedBy i e := by
  have app : ∀ type, bodyAppend type s = .aborted e off u → e = .nameNotSet ∨ e = .sourceReadFailure ∨ e = .payloadTooLong ∨ e = .storeOverflow := by
    intro type h
    unfold bodyAppend at h
    split at h
    · cases h; exact .inl rfl
    · rcases readInput_aborted h with h | h
      · exact .inr (.inl h)
      · split at h
        · cases h; exact .inr (.inr (.inl rfl))
        · exact .inr (.inr (.inr (replaceStore_aborted h)))
  have fb : ∀ x, bodyFromBinary x s = .aborted e off u → e = .nameTooLong ∨ e = .sourceReadFailure ∨ e = .storeOverflow := by
    intro x h
    unfold bodyFromBinary at h
    split at h
    · cases h; exact .inl rfl
    · rcases readInput_aborted h with h | h
      · exact .inr (.inl h)
      · exact .inr (.inr (replaceStore_aborted h))
  cases i with
  | setName => simp only [bodyOf, bodySetName] at h; split at h <;> cases h; exact .inl rfl
  | clear => cases h
  | appendData => rcases app _ h with rfl | rfl | rfl | rfl <;> simp [CmdError.raisedBy]
  | appendComment => rcases app _ h with rfl | rfl | rfl | rfl <;> simp [CmdError.raisedBy]
  | appendEnd => rcases app _ h with rfl | rfl | rfl | rfl <;> simp [CmdError.raisedBy]
  | appendExec => rcases app _ h with rfl | rfl | rfl | rfl <;> simp [CmdError.raisedBy]
  | fromBinary => rcases fb _ h with rfl | rfl | rfl <;> simp [CmdError.raisedBy]
  | fromBinaryX => rcases fb _ h with rfl | rfl | rfl <;> simp [CmdError.raisedBy]
  | toBytes =>
    simp only [bodyOf, bodyToBytes] at h
    rcases outWriteAll_cases 0 (storeBeats s.blk.store) s with h' | ⟨n, _, h'⟩ <;> rw [h'] at h <;> cases h
    rfl
  | decode =>
    simp only [bodyOf, bodyDecode] at h
    rcases readInput_aborted h with rfl | h
    · simp [CmdError.raisedBy]
    · split at h
      · rename_i e' he'
        cases h
        rcases parse_error (e := e'.1) (off := e'.2) he' with h | h <;> simp [h, CmdError.raisedBy]
      · rw [replaceStore_aborted h]; simp [CmdError.raisedBy]
  | verify => simp only [bodyOf, bodyVerify] at h; split at h <;> cases h; rfl
  | checksum =>
    simp only [bodyOf, bodyChecksum] at h
    rcases readInput_aborted h with rfl | h
    · simp [CmdError.raisedBy]
    · cases h
  | clrErr => cases h

theorem CmdError.code_range (e : CmdError) : 1 ≤ e.code.toNat ∧ e.code.toNat ≤ 10 := by cases e <;> decide

end Sys2Proof.Machine
end

