-- ==== Sys2Proof/Laws/Invariant.lean ====
section
/-! SUPPORT. The operations on the section store and the command bodies keep what is well formed about the store, the name, CK,
VERIFY and the accepted beats (R14, R15, R16, R25, R28, R31). -/

namespace Sys2Proof.Machine

/-- What a command body keeps, whether it ends in success or not. -/
structure BodyInv (s : State) : Prop where
  sections : ∀ sec ∈ s.blk.store, sec.wf = true
  withinCapacity : total s.blk.store ≤ s.capacity
  nameUnset : s.blk.nameSet = false → s.blk.name = Bytes8.zero
  checksumLatch : s.blk.ckEmpty = true → s.blk.ckValue = 0
  verify : s.blk.verifyCurrent = true
  beats : ∀ b ∈ s.out, ¬(b.sos = true ∧ b.eos = true)

theorem bodyInv_congr {s t : State} (h : BodyInv s) (h1 : t.blk.store = s.blk.store) (h2 : t.capacity = s.capacity) (h3 : t.blk.nameSet = s.blk.nameSet)
  (h4 : t.blk.name = s.blk.name) (h5 : t.blk.ckEmpty = s.blk.ckEmpty) (h6 : t.blk.ckValue = s.blk.ckValue)
  (h7 : t.blk.verifyCurrent = true) (h8 : t.out = s.out) : BodyInv t := by
  obtain ⟨a, b, c, d, e, f⟩ := h
  constructor
  · rw [h1]; exact a
  · rw [h1, h2]; exact b
  · rw [h3, h4]; exact c
  · rw [h5, h6]; exact d
  · exact h7
  · rw [h8]; exact f

theorem verifyCurrent_congr {b c : Block} (h1 : c.store = b.store) (h2 : c.secSel = b.secSel) (h3 : c.verHdrOk = b.verHdrOk) (h4 : c.verPayOk = b.verPayOk) (h5 : c.verValid = b.verValid) :
  c.verifyCurrent = b.verifyCurrent := by
  simp only [Block.verifyCurrent, Block.selected, h1, h2, h3, h4, h5]

theorem verifyCurrent_invalid {b : Block} (h : b.verValid = false) : b.verifyCurrent = true := by simp [Block.verifyCurrent, h]

theorem bodyInv_count {s : State} (h : BodyInv s) (n : Nat) : BodyInv (s.withBlk (s.blk.countInput n)) := bodyInv_congr h rfl rfl rfl rfl rfl rfl h.verify rfl

theorem bodyInv_setStore {s : State} {S : List Section} (h : BodyInv s) (hS : ∀ sec ∈ S, sec.wf = true) (hc : total S ≤ s.capacity) : BodyInv (s.withBlk (s.blk.setStore S)) :=
  ⟨hS, hc, h.nameUnset, h.checksumLatch, rfl, h.beats⟩

theorem bodyInv_commitName {s : State} (h : BodyInv s) (n8) : BodyInv (s.withBlk (s.blk.commitName n8)) :=
  ⟨h.sections, h.withinCapacity, by simp, h.checksumLatch, h.verify, h.beats⟩

theorem bodyOf_inv (i : Instr) {s : State} (h : BodyInv s) : BodyInv (bodyOf i s).reached := by
  have rep : ∀ {s : State} {S : List Section} {f : Block → Block}, BodyInv s → (∀ sec ∈ S, sec.wf = true) → 
      (∀ u : State, BodyInv u → BodyInv (u.withBlk (f u.blk))) → BodyInv (replaceStore s S f).reached := by
    intro s S f h hS hf
    by_cases hc : total S ≤ s.capacity
    · rw [replaceStore_fits hc]; exact hf _ (bodyInv_setStore h hS hc)
    · rw [replaceStore_overflows (Nat.not_le.mp hc)]; exact h
  have app : ∀ type, BodyInv (bodyAppend type s).reached := by
    intro type
    unfold bodyAppend
    split
    · exact h
    · apply readInput_reached (bodyInv_count h _)
      split
      · exact bodyInv_count h _
      · rename_i w hw
        refine rep (bodyInv_count h _) ?_ (fun u hu => hu)
        intro sec hs
        rcases List.mem_append.mp hs with hs | hs
        · exact h.sections sec hs
        · obtain rfl := List.mem_singleton.mp hs
          unfold encodeSection at hw
          split at hw
          · cases hw
          · cases hw
            exact sectionOf_wf (n8 := s.blk.name) (Nat.not_lt.mp ‹¬ _›)
  have fb : ∀ x, BodyInv (bodyFromBinary x s).reached := by
    intro x
    unfold bodyFromBinary
    split
    · exact h
    · apply readInput_reached (bodyInv_count h _)
      exact rep (bodyInv_count h _) (fun sec hs => (program_safe sec hs).1) (fun u hu => bodyInv_commitName hu _)
  cases i with
  | setName => simp only [bodyOf, bodySetName]; split; exact h; exact bodyInv_commitName h _
  | clear => exact bodyInv_setStore h (by simp) (by simp)
  | appendData => exact app _
  | appendComment => exact app _
  | appendEnd => exact app _
  | appendExec => exact app _
  | fromBinary => exact fb _
  | fromBinaryX => exact fb _
  | toBytes =>
    obtain ⟨n, hn⟩ := bodyToBytes_reached s
    simp only [bodyOf, hn]
    refine ⟨h.sections, h.withinCapacity, h.nameUnset, h.checksumLatch, h.verify, ?_⟩
    intro b hb
    rcases List.mem_append.mp hb with hb | hb
    · exact h.beats b hb
    · exact storeBeats_flags h.sections b (List.mem_of_mem_take hb)
  | decode =>
    simp only [bodyOf, bodyDecode]
    apply readInput_reached (bodyInv_count h _)
    split
    · exact bodyInv_count h _
    · rename_i S hS
      exact rep (bodyInv_count h _) (fun sec hs => ((parseLoop_ok _ _ _ _ hS).2 sec hs).1) (fun u hu => hu)
  | verify =>
    simp only [bodyOf, bodyVerify]
    split
    · exact h
    · rename_i sec hsec
      refine ⟨h.sections, h.withinCapacity, h.nameUnset, h.checksumLatch, ?_, h.beats⟩
      have : (s.blk.latchVerify sec.hdrOk sec.payOk).selected = some sec := hsec
      simp [BodyResult.reached, Block.verifyCurrent, this]
  | checksum =>
    simp only [bodyOf, bodyChecksum]
    apply readInput_reached (bodyInv_count h _)
    cases checksum s.inp.bytes with
    | nil => exact ⟨h.sections, h.withinCapacity, h.nameUnset, fun _ => rfl, h.verify, h.beats⟩
    | cons c t => exact ⟨h.sections, h.withinCapacity, h.nameUnset, fun h => absurd h (by simp [BodyResult.reached, Block.latchChecksum]), h.verify, h.beats⟩
  | clrErr => exact ⟨h.sections, h.withinCapacity, h.nameUnset, h.checksumLatch, h.verify, h.beats⟩

end Sys2Proof.Machine
end

