-- ==== Sys2Proof/Laws/PerInstr.lean ====
section
/-! SUPPORT. The family RoundTrip, one lemma for each constructor of Instr: its fields are legal, its word has exactly the fields of
its row, and its word decodes to it (spec/30_encoding.md R48, R49, R51). -/

namespace Sys2Proof.Laws.RoundTrip

/-- What is said of each instruction as syntax. -/
def Statement (i : Instr) : Prop :=
  i.wf = true ∧ fieldsOf (encode i) = i.fields ∧ decode (encode i) = .ok i

theorem setName : Statement .setName := ⟨by decide, by decide, by rfl⟩
theorem clear : Statement .clear := ⟨by decide, by decide, by rfl⟩
theorem appendData : Statement .appendData := ⟨by decide, by decide, by rfl⟩
theorem appendComment : Statement .appendComment := ⟨by decide, by decide, by rfl⟩
theorem appendEnd : Statement .appendEnd := ⟨by decide, by decide, by rfl⟩
theorem appendExec : Statement .appendExec := ⟨by decide, by decide, by rfl⟩
theorem fromBinary : Statement .fromBinary := ⟨by decide, by decide, by rfl⟩
theorem fromBinaryX : Statement .fromBinaryX := ⟨by decide, by decide, by rfl⟩
theorem toBytes : Statement .toBytes := ⟨by decide, by decide, by rfl⟩
theorem decode : Statement .decode := ⟨by decide, by decide, by rfl⟩
theorem verify : Statement .verify := ⟨by decide, by decide, by rfl⟩
theorem checksum : Statement .checksum := ⟨by decide, by decide, by rfl⟩
theorem clrErr : Statement .clrErr := ⟨by decide, by decide, by rfl⟩

end Sys2Proof.Laws.RoundTrip
end

