-- ==== Sys2Proof/Laws/Registers.lean ====
section
/-! SUPPORT. The registers: which accesses are admitted, what a register write leaves alone, and how the words of the registers
come apart into their fields. -/

namespace Sys2Proof.Machine

/-! ### Fields of a concatenated word -/

/-- The low part of a concatenation. -/
theorem extract_low_append {a b : Nat} (x : BitVec a) (y : BitVec b) : (x ++ y).extractLsb' 0 b = y := by
  apply BitVec.eq_of_getLsbD_eq; intro i hi; simp [BitVec.getLsbD_append, hi]

/-- A field that lies in the high part of a concatenation. -/
theorem extract_high_append {a b n i k : Nat} (x : BitVec a) (y : BitVec b) (h : i = b + k) : (x ++ y).extractLsb' i n = x.extractLsb' k n := by
  subst h
  apply BitVec.eq_of_getLsbD_eq; intro i hi
  simp only [BitVec.getLsbD_extractLsb', BitVec.getLsbD_append, show ¬ b + k + i < b by omega, show b + k + i - b = k + i by omega]
  simp

/-- A bit of the high part of a concatenation. -/
theorem bit_high_append {a b i k : Nat} (x : BitVec a) (y : BitVec b) (h : i = b + k) : (x ++ y).getLsbD i = x.getLsbD k := by
  subst h; simp [BitVec.getLsbD_append]

/-- A word is its four bytes (R36). -/
theorem wordOfBytes_bytes (w : Word) : wordOfBytes (byteOfWord w 0) (byteOfWord w 1) (byteOfWord w 2) (byteOfWord w 3) = w := by
  apply BitVec.eq_of_getLsbD_eq
  intro i hi
  simp only [wordOfBytes, byteOfWord, BitVec.getLsbD_append, BitVec.getLsbD_extractLsb']
  by_cases h1 : i < 8
  · simp [h1]
  · by_cases h2 : i < 16
    · simp [h1, show i - 8 < 8 by omega, show 8 + (i - 8) = i by omega]
    · by_cases h3 : i < 24
      · simp [h1, show ¬ i - 8 < 8 by omega, show i - 8 - 8 < 8 by omega, show 16 + (i - 8 - 8) = i by omega]
      · simp [h1, show ¬ i - 8 < 8 by omega, show ¬ i - 8 - 8 < 8 by omega, show i - 8 - 8 - 8 < 8 by omega, show 24 + (i - 8 - 8 - 8) = i by omega]

theorem zeroExtend16_toNat (h : Half) : (0#16 ++ h).toNat = h.toNat := by
  rw [BitVec.toNat_append]; simp

/-! ### Accesses -/

/-- The admitted accesses (R38). -/
theorem notAdmitted_eq_none_iff {off width : Nat} : notAdmitted off width = none ↔ off % 4 = 0 ∧ off ≤ 0xFF ∧ width = 32 := by
  unfold notAdmitted
  split_ifs <;> simp <;> omega

/-- An admitted offset is one of 64. -/
theorem forall_aligned_offset {off : Nat} (h4 : off % 4 = 0) (h : off ≤ 0xFF) {P : Nat → Prop} (hp : ∀ k, k < 64 → P (4 * k)) : P off := by
  have := hp (off / 4) (by omega)
  rwa [show 4 * (off / 4) = off by omega] at this

/-- What a register write leaves alone: everything but the writable registers and VERIFY.VALID, which only SEC_SEL clears (R18). -/
structure WriteFrame (b c : Block) : Prop where
  name : c.name = b.name
  nameSet : c.nameSet = b.nameSet
  store : c.store = b.store
  busy : c.busy = b.busy
  done : c.done = b.done
  err : c.err = b.err
  errCode : c.errCode = b.errCode
  errOp : c.errOp = b.errOp
  errOffset : c.errOffset = b.errOffset
  ckValue : c.ckValue = b.ckValue
  ckEmpty : c.ckEmpty = b.ckEmpty
  verHdrOk : c.verHdrOk = b.verHdrOk
  verPayOk : c.verPayOk = b.verPayOk
  verValid : (c.secSel = b.secSel ∧ c.verValid = b.verValid) ∨ c.verValid = false

theorem regWrite_frame (off : Nat) (w : Word) (b : Block) : WriteFrame b (regWrite off w b) := by
  unfold regWrite
  split
  · constructor <;> simp
  · split
    · rename_i r _
      cases r <;> constructor <;> simp [Reg.write]
    · constructor <;> simp

end Sys2Proof.Machine
end

