-- ==== Sys2Proof/Laws/Step.lean ====
section
/-! SUPPORT. Everything a step can do, said once. -/

namespace Sys2Proof.Machine

/-- A register write other than to CMD (R18, R38). -/
theorem step_write {s : State} {off : Nat} {w : Word} {inp refused rest} (h : s.accesses = .write off 32 w inp refused :: rest)
   (h4 : off % 4 = 0) (hle : off ≤ 0xFF) (h0 : off ≠ 0) : step s = .next { s with accesses := rest, blk := regWrite off w s.blk } := by
  simp [step, h, performAccess, notAdmitted_eq_none_iff.mpr ⟨h4, hle, rfl⟩, h0, State.withBlk, State.dropAccess]

/-- A CMD write presents the inputs and issues its word (R29, R84). -/
theorem step_cmd {s : State} {w : Word} {inp refused rest} (h : s.accesses = .write 0 32 w inp refused :: rest) :
   step s = issue w { s with accesses := rest, inp := inp, sinkRefuses := refused } := by
  simp [step, h, performAccess, notAdmitted, State.present, State.dropAccess]

/-- An illegal word is dropped, or latches IllegalCommand with offset 0 (R51, R84). -/
theorem execIllegal_cases {w : Word} {s t : State} (h : execIllegal w s = .next t) :
   (t = s ∧ (s.blk.busy = true ∨ s.blk.err = true ∧ w ≠ clrErrWord)) ∨ (s.blk.busy = false ∧ (s.blk.err = false ∨ w = clrErrWord) ∧ t = s.failedWith 8 (opField w) 0 0) := by
  rcases commandFrame_cases h with h | ⟨h1, h2, h3⟩
  · exact .inl h
  · exact .inr ⟨h1, h2, h3⟩

/-- Everything a step can do. -/
inductive StepCases (s t : State) : Prop
  | idle (h : s.accesses = []) (e : t = s)
  | rst (rest) (h : s.accesses = .rst :: rest) (e : t = { s with accesses := rest, blk := Block.reset })
  | read (off rest) (h : s.accesses = .read off 32 :: rest) (h4 : off % 4 = 0) (hle : off ≤ 0xFF)
      (e : t = { s with accesses := rest, reads := s.reads ++ [regRead off s.blk] })
  | write (off w inp refused rest) (h : s.accesses = .write off 32 w inp refused :: rest) (h4 : off % 4 = 0) (hle : off ≤ 0xFF) (h0 : off ≠ 0)
      (e : t = { s with accesses := rest, blk := regWrite off w s.blk })
  | command (i w inp refused rest) (h : s.accesses = .write 0 32 w inp refused :: rest) (hw : decode w = .ok i)
      (e : exec i { s with accesses := rest, inp := inp, sinkRefuses := refused } = .next t)
  | illegal (w inp refused rest) (h : s.accesses = .write 0 32 w inp refused :: rest) (er) (hw : decode w = .error er)
      (e : execIllegal w { s with accesses := rest, inp := inp, sinkRefuses := refused } = .next t)

theorem step_cases {s t : State} (h : step s = .next t) : StepCases s t := by
  cases ha : s.accesses with
  | nil => simp only [step, ha] at h; cases h; exact .idle ha rfl
  | cons a rest =>
    simp only [step, ha] at h
    cases a with
    | rst =>
      simp only [performAccess] at h; cases h
      exact .rst rest ha (by simp [resetBlock, State.dropAccess, State.withBlk, ha])
    | read off width =>
      simp only [performAccess] at h
      split at h
      · cases h
      · rename_i hn
        obtain ⟨h4, hle, rfl⟩ := notAdmitted_eq_none_iff.mp hn
        cases h
        exact .read off rest ha h4 hle (by simp [State.recordRead, State.dropAccess, ha])
    | write off width w inp refused =>
      simp only [performAccess] at h
      split at h
      · cases h
      · rename_i hn
        obtain ⟨h4, hle, rfl⟩ := notAdmitted_eq_none_iff.mp hn
        split at h
        · rename_i h0; subst h0
          have hs : s.dropAccess.present inp refused = { s with accesses := rest, inp := inp, sinkRefuses := refused } := by
            simp [State.present, State.dropAccess, ha]
          rw [hs] at h
          unfold issue at h
          split at h
          · rename_i i hi
            exact .command i w inp refused rest ha hi h
          · rename_i er hi
            exact .illegal w inp refused rest ha er hi h
        · rename_i h0
          cases h
          exact .write off w inp refused rest ha h4 hle h0 (by simp [State.withBlk, State.dropAccess, ha])

end Sys2Proof.Machine
end

