-- ==== Sys2Proof/Tests/Slice0.lean ====
section
/-! SUPPORT. The model's own tests: the WellFormed checks, words written out from spec/30_encoding.md R48 and R49, single steps with the
values of spec/95_test_vectors.md, and a witness for the hypotheses of each statement. -/

namespace Sys2Proof.Tests

open Sys2Proof.Machine

/-! ### WellFormed: an ill-formed word of fields for each check of R51 -/

theorem test_wf_op_reserved_low : (CmdFields.mk 0x00 0 false 0).legal = false ∧ (CmdFields.mk 0x00 0 false 0).opLegal = false := by decide
theorem test_wf_op_reserved_high : (CmdFields.mk 0x0A 0 false 0).legal = false ∧ (CmdFields.mk 0x0A 0 false 0).opLegal = false := by decide
theorem test_wf_type_set : (CmdFields.mk 0x04 1 true 0).legal = false ∧ (CmdFields.mk 0x04 1 true 0).typeLegal = false := by decide
theorem test_wf_x_set : (CmdFields.mk 0x03 3 true 0).legal = false ∧ (CmdFields.mk 0x03 3 true 0).xLegal = false := by decide
theorem test_wf_high_set : (CmdFields.mk 0x09 0 false 1).legal = false ∧ (CmdFields.mk 0x09 0 false 1).highLegal = false := by decide
theorem test_wf_every_row : ∀ i ∈ [Instr.setName, .clear, .appendData, .appendComment, .appendEnd, .appendExec, .fromBinary,
    .fromBinaryX, .toBytes, .decode, .verify, .checksum, .clrErr], i.wf = true := by decide

/-! ### Decode: bits 31:11 zero, X, TYPE, OP, as R48 lays them out, with the codes of R49 and R54 -/

theorem test_decode_setName : decode (0b000000000000000000000#21 ++ 0b0#1 ++ 0b00#2 ++ 0b00000001#8) = .ok .setName := by rfl
theorem test_decode_clear : decode (0b000000000000000000000#21 ++ 0b0#1 ++ 0b00#2 ++ 0b00000010#8) = .ok .clear := by rfl
theorem test_decode_appendData : decode (0b000000000000000000000#21 ++ 0b0#1 ++ 0b00#2 ++ 0b00000011#8) = .ok .appendData := by rfl
theorem test_decode_appendComment : decode (0b000000000000000000000#21 ++ 0b0#1 ++ 0b01#2 ++ 0b00000011#8) = .ok .appendComment := by rfl
theorem test_decode_appendEnd : decode (0b000000000000000000000#21 ++ 0b0#1 ++ 0b10#2 ++ 0b00000011#8) = .ok .appendEnd := by rfl
theorem test_decode_appendExec : decode (0b000000000000000000000#21 ++ 0b0#1 ++ 0b11#2 ++ 0b00000011#8) = .ok .appendExec := by rfl
theorem test_decode_fromBinary : decode (0b000000000000000000000#21 ++ 0b0#1 ++ 0b00#2 ++ 0b00000100#8) = .ok .fromBinary := by rfl
theorem test_decode_fromBinaryX : decode (0b000000000000000000000#21 ++ 0b1#1 ++ 0b00#2 ++ 0b00000100#8) = .ok .fromBinaryX := by rfl
theorem test_decode_toBytes : decode (0b000000000000000000000#21 ++ 0b0#1 ++ 0b00#2 ++ 0b00000101#8) = .ok .toBytes := by rfl
theorem test_decode_decode : decode (0b000000000000000000000#21 ++ 0b0#1 ++ 0b00#2 ++ 0b00000110#8) = .ok .decode := by rfl
theorem test_decode_verify : decode (0b000000000000000000000#21 ++ 0b0#1 ++ 0b00#2 ++ 0b00000111#8) = .ok .verify := by rfl
theorem test_decode_checksum : decode (0b000000000000000000000#21 ++ 0b0#1 ++ 0b00#2 ++ 0b00001000#8) = .ok .checksum := by rfl
theorem test_decode_clrErr : decode (0b000000000000000000000#21 ++ 0b0#1 ++ 0b00#2 ++ 0b00001001#8) = .ok .clrErr := by rfl

/-- The illegal words V-CTL-1 to V-CTL-10, each with its reason. -/
theorem test_decode_illegal :
    decode 0x00000000#32 = .error .reservedOpcode ∧ decode 0x0000000A#32 = .error .reservedOpcode ∧
    decode 0x000000FF#32 = .error .reservedOpcode ∧ decode 0x00000101#32 = .error .typeNotZero ∧
    decode 0x00000403#32 = .error .execFlagSet ∧ decode 0x00000104#32 = .error .typeNotZero ∧
    decode 0x00000809#32 = .error .reservedBitsSet ∧ decode 0x80000005#32 = .error .reservedBitsSet ∧
    decode 0x00000405#32 = .error .execFlagSet ∧ decode 0x00000703#32 = .error .execFlagSet :=
  ⟨rfl, rfl, rfl, rfl, rfl, rfl, rfl, rfl, rfl, rfl⟩

/-- A table word is decoded and run as the first instruction after reset. -/
theorem test_fetchWord_fromBinaryX : decodeTableWord 32 0x404 = some .fromBinaryX ∧
    step (State.reset.withFetchWord 32 0x404) = exec .fromBinaryX State.reset := ⟨rfl, rfl⟩
theorem test_fetchWord_clrErr : decodeTableWord 32 0x009 = some .clrErr ∧
    step (State.reset.withFetchWord 32 0x009) = exec .clrErr State.reset := ⟨rfl, rfl⟩

/-! ### Helpers -/

/-- The state a step or a command leaves, if it leaves one. -/
def nextOf (o : Host.Outcome State Fault Refusal) : Option State :=
  match o with
  | .next t => some t
  | .fault _ => none
  | .refused _ => none

/-- The words the given registers read after an outcome. -/
def regsAfter (o : Host.Outcome State Fault Refusal) (offs : List Nat) : Option (List Word) :=
  (nextOf o).map fun t => offs.map fun off => regRead off t.blk

/-- The name `AB`, padded (V-SRC-3). -/
abbrev nameAB : Bytes8 := ⟨0x41, 0x42, 0x20, 0x20, 0x20, 0x20, 0x20, 0x20⟩

/-- Reset, then a committed name, an ADDR, a store and an IN stream. -/
def withName (addr : Half) (store : List Section) (bytes : List Byte) : State :=
  { State.reset with
    blk := { Block.reset with name := nameAB, nameSet := true, addr := addr, store := store }
    inp := clauseIn bytes }

/-- Reset with an IN stream. -/
def withInput (bytes : List Byte) (fails : Bool := false) : State := { State.reset with inp := ⟨bytes, fails⟩ }

/-- Reset with a name proposed in NAME_LEN and NAME_BUF. -/
def proposing (len : Half) (buf : Bytes8) (bytes : List Byte := []) : State :=
  { State.reset with blk := { Block.reset with nameLen := len, nameBuf := buf }, inp := clauseIn bytes }

/-- Reset with a store, a name and SEC_SEL. -/
def withStore (store : List Section) (sel : Word := 0) : State :=
  { withName 0 store [] with blk := { (withName 0 store []).blk with secSel := sel } }

/-- The whole of V-ENC-1. -/
def wireEnc1 : List Byte := List.replicate 16 0xE6 ++
  [0x01, 0x41, 0x42, 0x20, 0x20, 0x20, 0x20, 0x20, 0x20, 0x34, 0x12, 0x03, 0x00, 0x00, 0x00, 0x74, 0x01, 0x02, 0x03, 0xFA]
def secEnc1 : Section := ⟨wireEnc1, 16, 3⟩
/-- V-ENC-3: ENDW. -/
def wireEnd : List Byte := List.replicate 16 0xE6 ++
  [0x01, 0x41, 0x42, 0x20, 0x20, 0x20, 0x20, 0x20, 0x20, 0x00, 0x00, 0x00, 0x00, 0x00, 0x02, 0xBB]
def secEnd : Section := ⟨wireEnd, 16, 0⟩

/-- A state with an error latched: IllegalCommand, OP 0x00 (V-CTL-1). -/
def latched : State := { State.reset with blk := { Block.reset with err := true, errCode := 8 } }

/-- The same state with one host access placed. -/
def placed (s : State) (a : HostAccess) : State := { s with accesses := [a] }

/-! ### One step of each instruction (spec/95_test_vectors.md) -/

/-- V-NAME-1: STATUS, NAME0, NAME1. -/
theorem test_setName_pads : regsAfter (exec .setName (proposing 2 ⟨0x41, 0x42, 0, 0, 0, 0, 0, 0⟩)) [0x04, 0x1C, 0x20] =
    some [0x0000000A, 0x20204241, 0x20202020] := by decide
/-- V-NAME-5: STATUS, ERR, ERR_OFFSET; the good name stays. -/
theorem test_setName_too_long :
    regsAfter (exec .setName { withName 0 [] [] with blk := { (withName 0 [] []).blk with nameLen := 9 } }) [0x04, 0x08, 0x0C, 0x1C] =
    some [0x0000000C, 0x00000101, 0, 0x20204241] := by decide
/-- V-CONT-11, with the store of V-ENC-1: SECTION_COUNT, STORE_BYTES, NAME0, STATUS. -/
theorem test_clear : regsAfter (exec .clear (withStore [secEnc1])) [0x2C, 0x30, 0x1C, 0x04] = some [0, 0, 0x20204241, 0x0000000A] := by
  decide
/-- V-ENC-1: the whole wire. -/
theorem test_appendData_wire : (nextOf (exec .appendData (withName 0x1234 [] [0x01, 0x02, 0x03]))).map (fun t => t.blk.store) =
    some [⟨List.replicate 16 0xE6 ++ [0x01, 0x41, 0x42, 0x20, 0x20, 0x20, 0x20, 0x20, 0x20, 0x34, 0x12, 0x03, 0x00, 0x00, 0x00, 0x74,
      0x01, 0x02, 0x03, 0xFA], 16, 3⟩] := by decide
/-- V-ENC-12: STATUS, ERR, ERR_OFFSET, IN_COUNT. -/
theorem test_appendData_too_long : regsAfter (exec .appendData (withName 0 [] (List.replicate 257 0))) [0x04, 0x08, 0x0C, 0x34] =
    some [0x0000000C, 0x00000307, 0x00000100, 0x00000101] := by decide +kernel
/-- V-ENC-4: SEC_INFO0, SEC_INFO1, SEC_INFO2, STORE_BYTES. -/
theorem test_appendComment : regsAfter (exec .appendComment (withName 0 [] Config.startText)) [0x40, 0x44, 0x48, 0x30] =
    some [0x020D0D01, 0x00000000, 0x001054AF, 46] := by decide
/-- V-ENC-13: no name; STATUS, ERR, IN_COUNT. -/
theorem test_appendComment_no_name : regsAfter (exec .appendComment (withInput [0x01, 0x02])) [0x04, 0x08, 0x34] =
    some [0x00000004, 0x00000306, 0] := by decide
/-- V-ENC-3: SEC_INFO0, SEC_INFO1, SEC_INFO2, STORE_BYTES. -/
theorem test_appendEnd : regsAfter (exec .appendEnd (withName 0 [] [])) [0x40, 0x44, 0x48, 0x30] =
    some [0x00000002, 0x00000000, 0x001000BB, 32] := by decide
/-- V-ENC-11: a 256-byte End payload. -/
theorem test_appendEnd_256 : regsAfter (exec .appendEnd (withName 0 [] (List.replicate 256 0xAA))) [0x40, 0x48, 0x30] =
    some [0x03000002, 0x001000BB, 289] := by decide +kernel
/-- V-ENC-2: the address goes to the exec field. -/
theorem test_appendExec : regsAfter (exec .appendExec (withName 0x2000 [] [])) [0x40, 0x44, 0x48, 0x30] =
    some [0x00000003, 0x20000000, 0x0010009A, 32] := by decide
/-- V-CONT-4: the section lengths and the address fields, wrapping past 0xFFFF. -/
theorem test_fromBinary_wraps :
    (nextOf (exec .fromBinary { proposing 2 ⟨0x41, 0x42, 0, 0, 0, 0, 0, 0⟩ (List.replicate 300 1) with
      blk := { Block.reset with nameLen := 2, nameBuf := ⟨0x41, 0x42, 0, 0, 0, 0, 0, 0⟩, addr := 0xFF00 } })).map
      (fun t => t.blk.store.map fun sec => (sec.wire.length, sec.addrField, sec.typeByte)) =
    some [(46, 0, 1), (289, 0xFF00, 0), (77, 0x0000, 0), (44, 0, 1), (32, 0, 2)] := by decide +kernel
/-- V-CONT-7: STATUS, ERR, ERR_OFFSET, IN_COUNT. -/
theorem test_fromBinary_long_name : regsAfter (exec .fromBinary (proposing 9 nameAB [0x01, 0x02, 0x03])) [0x04, 0x08, 0x0C, 0x34] =
    some [0x00000004, 0x00000401, 0, 0] := by decide
/-- V-CONT-6: types, exec fields and header checksums. -/
theorem test_fromBinaryX_empty :
    (nextOf (exec .fromBinaryX { State.reset with blk := { Block.reset with execAddr := 0x1234 } })).map
      (fun t => t.blk.store.map fun sec => (sec.typeByte, sec.execField, sec.hdrCk)) =
    some [(1, 0, 0xF2), (1, 0, 0xF4), (3, 0x1234, 0xB7)] := by decide
/-- R74's example: 36 beats, the first E6 with sos, the last FA with eos. -/
theorem test_toBytes_beats : (nextOf (exec .toBytes (withStore [secEnc1]))).map (fun t => (t.out.length, t.out.head?, t.out.getLast?)) =
    some (36, some ⟨0xE6, true, false⟩, some ⟨0xFA, false, true⟩) := by decide
/-- V-OUT-3, with the store of V-ENC-1: ten beats stay accepted. -/
theorem test_toBytes_refused :
    (nextOf (exec .toBytes { withStore [secEnc1] with sinkRefuses := clauseSinkRefuse 10 })).map
      (fun t => (t.out.length, [0x04, 0x08, 0x0C, 0x2C].map fun off => regRead off t.blk)) =
    some (10, [0x0000000C, 0x00000503, 0x0000000A, 1]) := by decide
/-- V-DEC-14: one section of 19 bytes with 3 sync bytes. -/
theorem test_decode_short_sync :
    (nextOf (exec .decode (withInput [0xE6, 0xE6, 0xE6, 0x01, 0x41, 0x42, 0x20, 0x20, 0x20, 0x20, 0x20, 0x20, 0x00, 0x00, 0x00, 0x00,
      0x00, 0x02, 0xBB]))).map (fun t => (t.blk.statusWord, t.blk.store.map fun sec => (sec.wire.length, sec.syncLen, sec.payLen))) =
    some (0x00000002, [(19, 3, 0)]) := by decide
/-- V-DEC-12: STATUS, ERR, ERR_OFFSET, IN_COUNT, SECTION_COUNT. -/
theorem test_decode_noise : regsAfter (exec .decode (withInput (wireEnd ++ [0x55] ++ wireEnd))) [0x04, 0x08, 0x0C, 0x34, 0x2C] =
    some [0x00000004, 0x00000605, 0x20, 65, 0] := by decide
/-- V-VER-2: a changed payload byte; STATUS (here with a name), VERIFY. -/
theorem test_verify_payload : regsAfter (exec .verify (withStore [⟨wireEnc1.set 33 0x03, 16, 3⟩])) [0x04, 0x50] =
    some [0x0000000A, 0x00000009] := by decide
/-- V-VER-9: SEC_SEL = 0xFFFFFFFF selects nothing. -/
theorem test_verify_bad_select : regsAfter (exec .verify (withStore [secEnc1] 0xFFFFFFFF)) [0x08, 0x0C, 0x50] =
    some [0x00000709, 0xFFFFFFFF, 0] := by decide
/-- V-CK-5 and V-CK-1: CK, IN_COUNT, STATUS. -/
theorem test_checksum : regsAfter (exec .checksum (withInput [0x01, 0x02, 0x03])) [0x38, 0x34, 0x04] = some [0x000000FA, 3, 2] ∧
    regsAfter (exec .checksum (withInput [])) [0x38, 0x34, 0x04] = some [0x00000100, 0, 2] := by decide
/-- V-CK-15: STATUS, ERR, ERR_OFFSET, IN_COUNT, CK. -/
theorem test_checksum_fails : regsAfter (exec .checksum (withInput [0x01, 0x02] true)) [0x04, 0x08, 0x0C, 0x34, 0x38] =
    some [0x00000004, 0x00000804, 2, 2, 0] := by decide
/-- V-CTL-14: STATUS, ERR, ERR_OFFSET. -/
theorem test_clrErr : regsAfter (exec .clrErr latched) [0x04, 0x08, 0x0C] = some [0x00000002, 0, 0] := by decide

/-! ### Register accesses, reset, the error gate and the neighbours' contract -/

/-- V-CTL-7: an illegal word's record, and its input not read. -/
theorem test_illegal_word : regsAfter (step (placed State.reset (lineCmdRaw 0x00000809 (clauseIn [0x01, 0x02])))) [0x04, 0x08, 0x0C, 0x34] =
    some [0x00000004, 0x00000908, 0, 0] := by decide
/-- V-CTL-11 and V-CTL-13: dropped while an error is latched. -/
theorem test_gate : regsAfter (step (placed latched (lineCmd .checksum (clauseIn [0x01])))) [0x38, 0x34, 0x08] = some [0, 0, 8] ∧
    regsAfter (step (placed latched (lineCmdRaw 0x80000009))) [0x04, 0x08] = some [4, 8] := by decide
/-- V-CTL-15: a register write takes effect while an error is latched. -/
theorem test_write_while_latched : regsAfter (step (placed latched (lineSel 5))) [0x3C] = some [5] := by decide
/-- V-NAME-6: bits 31:16 of NAME_LEN are not stored. -/
theorem test_nameLen_width : regsAfter (step (placed State.reset (lineWr .nameLen 0x10008))) [0x10] = some [8] := by decide
/-- V-RST-1: every register reads 0 after RST. -/
theorem test_rst : (regsAfter (step (placed latched .rst)) ((List.range 64).map fun k => 4 * k)) = some (List.replicate 64 0) := by decide
/-- V-DOWN-1: the blocks of byte 0x3E. -/
theorem test_byteTones : Downstream.byteTones 0x3E = [.tone0, .tone0, .tone1, .tone1, .tone1, .tone1, .tone1, .tone0, .tone0, .tone1, .tone1] := by
  decide
/-- V-DOWN-2: the blocks of byte 0x3E. -/
theorem test_byteSquares : Downstream.byteSquares 0x3E =
    [.highThenLow, .lowThenHigh, .lowThenHigh, .lowThenHigh, .lowThenHigh, .lowThenHigh, .highThenLow, .highThenLow] := by decide
/-- V-DOWN-3, after the third section: 12600/158 percent, 32 times 11/300 seconds. -/
theorem test_progress : Downstream.progressAt { readTimeout := 1, writeTimeout := 1 } 158 126 = ⟨12600 / 158, 32 * 11 / 300⟩ := by
  norm_num [Downstream.progressAt, Downstream.byteDelay]

/-! ### Witnesses: for each statement with hypotheses, a state and operands that meet them, clause by clause, at the edges -/

/-- The CMD write of any word, from a ready state. -/
theorem witness_EveryOtherWord_access (w : Word) :
    (placed State.reset (lineCmdRaw w)).accesses = .write 0 32 w InStream.empty [] :: [] ∧ (placed State.reset (lineCmdRaw w)).Ready :=
  ⟨rfl, rfl, rfl⟩

/-- Words at the edges of R51: the last legal ones of each shape, and an illegal one for each clause. -/
theorem witness_EveryOtherWord_legal : ∀ w ∈ [0x00000001#32, 0x00000009#32, 0x00000303#32, 0x00000404#32],
    (1 ≤ w.toNat % 256 ∧ w.toNat % 256 ≤ 9) ∧ (w.toNat / 256 % 4 = 0 ∨ w.toNat % 256 = 3) ∧
    (w.toNat / 1024 % 2 = 0 ∨ w.toNat % 256 = 4) ∧ w.toNat / 2048 = 0 := by simp
theorem witness_EveryOtherWord_illegal : ∀ w ∈ [0x00000000#32, 0x0000000A#32, 0x00000102#32, 0x00000703#32, 0x00000803#32],
    ¬ ((1 ≤ w.toNat % 256 ∧ w.toNat % 256 ≤ 9) ∧ (w.toNat / 256 % 4 = 0 ∨ w.toNat % 256 = 3) ∧
      (w.toNat / 1024 % 2 = 0 ∨ w.toNat % 256 = 4) ∧ w.toNat / 2048 = 0) := by simp

theorem witness_StepRunsTheDecodedCommand :
    (placed State.reset (lineCmd .appendExec)).accesses = .write 0 32 0x00000303 InStream.empty [] :: [] ∧
    decode 0x00000303 = .ok .appendExec := ⟨rfl, rfl⟩

theorem witness_FetchWordStepIsExec : decodeTableWord 32 0x00000303 = some .appendExec ∧ decodeTableWord 16 0x00000303 = some .appendExec :=
  ⟨rfl, rfl⟩

/-- Admitted at 0xFC, not at 0xFE, 0x100 or 16 bits, for reads and writes. -/
theorem witness_OnlyAlignedWordAccessesAreAdmitted :
    let admitted (off width : Nat) : Prop := off % 4 = 0 ∧ off ≤ 0xFF ∧ width = 32
    ((placed State.reset (.read 0xFC 32)).accesses = .read 0xFC 32 :: [] ∧ admitted 0xFC 32) ∧
    (∀ a ∈ [(0xFE, 32), (0x100, 32), (0xFC, 16)],
      (placed State.reset (.read a.1 a.2)).accesses = .read a.1 a.2 :: [] ∧ ¬ admitted a.1 a.2) ∧
    ((placed State.reset (.write 0xFC 32 5 InStream.empty [])).accesses = .write 0xFC 32 5 InStream.empty [] :: [] ∧ admitted 0xFC 32) ∧
    (∀ a ∈ [(0xFE, 32), (0x100, 32), (0xFC, 16)],
      (placed State.reset (.write a.1 a.2 5 InStream.empty [])).accesses = .write a.1 a.2 5 InStream.empty [] :: [] ∧
      ¬ admitted a.1 a.2) := by decide

/-- Offsets 0, 0x54 and 0xFC read 0; 0x50 and 0x54 ignore writes. -/
theorem witness_ReservedAndReadOnlyOffsetsAreInert :
    (∀ off ∈ [0, 0x54, 0xFC], off % 4 = 0 ∧ off ≤ 0xFF ∧ (off = 0 ∨ 0x54 ≤ off)) ∧
    (∀ off ∈ [0x04, 0x50, 0x54], off % 4 = 0 ∧ off ≤ 0xFF ∧ off ≠ 0 ∧ off ≠ 0x10 ∧ off ≠ 0x14 ∧ off ≠ 0x18 ∧ off ≠ 0x24 ∧ off ≠ 0x28 ∧
      off ≠ 0x3C ∧ (placed State.reset (.write off 32 7 InStream.empty [])).accesses = .write off 32 7 InStream.empty [] :: []) := by decide

/-- Every writable register, with a latched error, and a next state. -/
theorem witness_WritableRegistersStoreTheirFields :
    ∀ off ∈ [0x10, 0x14, 0x18, 0x24, 0x28, 0x3C],
      (placed latched (.write off 32 0xFFFFFFFF InStream.empty [])).accesses = .write off 32 0xFFFFFFFF InStream.empty [] :: [] ∧
      latched.blk.busy = false ∧ (nextOf (step (placed latched (.write off 32 0xFFFFFFFF InStream.empty [])))).isSome = true := by decide

theorem witness_SecSelWriteClearsVerifyValid :
    ((placed (withStore [secEnc1]) (lineSel 1)).accesses = .write 0x3C 32 1 InStream.empty [] :: [] ∧
      (withStore [secEnc1]).blk.busy = false) ∧
    ((withStore [secEnc1, secEnd] 1).Ready ∧ (withStore [secEnc1, secEnd] 1).blk.store[(withStore [secEnc1, secEnd] 1).blk.secSel.toNat]? =
      some secEnd ∧ (nextOf (exec .verify (withStore [secEnc1, secEnd] 1))).isSome = true) := by decide

theorem witness_NameRegistersPackBytesLowFirst : 0 < 4 ∧ 3 < 4 := by decide

/-- A state with a name and two sections meets the invariant. -/
theorem inv_withStore (sel : Word) : (withStore [secEnc1, secEnd] sel).Inv where
  idle := rfl
  sections := by show ∀ sec ∈ [secEnc1, secEnd], sec.wf = true; decide
  capacityRange := by show 1 ≤ Config.maxU32 ∧ Config.maxU32 ≤ Config.maxU32; decide
  withinCapacity := by show total [secEnc1, secEnd] ≤ Config.maxU32; decide
  errorLatch := rfl
  nameUnset := fun h => by cases h
  checksumLatch := fun h => by cases h
  verify := rfl
  beats := fun _ h => by cases h

theorem witness_CountRegistersCountTheStore : (withStore [secEnc1, secEnd] 0).Inv := inv_withStore 0

/-- SEC_SEL at the last section and one past it. -/
theorem witness_ViewRegistersShowTheSelectedSection :
    ((withStore [secEnc1, secEnd] 2).Inv ∧ (withStore [secEnc1, secEnd] 2).blk.store.length ≤ (withStore [secEnc1, secEnd] 2).blk.secSel.toNat) ∧
    ((withStore [secEnc1, secEnd] 1).Inv ∧
      (withStore [secEnc1, secEnd] 1).blk.store[(withStore [secEnc1, secEnd] 1).blk.secSel.toNat]? = some secEnd) :=
  ⟨⟨inv_withStore 2, by decide⟩, ⟨inv_withStore 1, by decide⟩⟩

theorem witness_RstResetsEveryElementOfTheBlock :
    (placed latched .rst).accesses = .rst :: [] ∧ 0xFC % 4 = 0 ∧ 0xFC ≤ 0xFF := by decide

theorem witness_BusyBlockIgnoresEveryWrite :
    ∀ off ∈ [0, 0x10, 0xFC],
      (placed { latched with blk := latched.blk.start } (.write off 32 9 InStream.empty [])).accesses =
        .write off 32 9 InStream.empty [] :: [] ∧
      off % 4 = 0 ∧ off ≤ 0xFF ∧ (placed { latched with blk := latched.blk.start } (.write off 32 9 InStream.empty [])).blk.busy = true := by
  decide

/-- The latched state, and any one access placed in it. -/
theorem witness_LatchedErrorStaysUntilClrErrOrReset (a : HostAccess) :
    latched.blk.busy = false ∧ latched.blk.err = true ∧ (placed latched a).accesses = a :: [] := ⟨rfl, rfl, rfl⟩

/-- Accesses other than RST that have a next state: a read, a register write, a dropped command, a dropped word. -/
theorem witness_LatchedErrorStays_accesses :
    ∀ a ∈ [HostAccess.read 0x04 32, lineSel 1, lineCmd .checksum, lineCmdRaw 0x80000009],
      a ≠ .rst ∧ (nextOf (step (placed latched a))).isSome = true := by decide

theorem witness_LatchedErrorStays_not_clrErr : ∀ (inp : InStream) (refused : List Nat),
    lineCmd .checksum ≠ .write 0 32 0x00000009#32 inp refused := by
  intro inp refused h
  have : encode .checksum = 0x00000009#32 := by injection h
  exact absurd this (by decide)

theorem witness_LatchedErrorStays_word : ∀ w ∈ [0x00000000#32, 0x00000008#32, 0x80000009#32], w ≠ 0x00000009#32 := by simp

theorem witness_ErrorGateDropsEveryOtherCommand : latched.blk.err = true ∧ Instr.setName ≠ .clrErr := by decide

/-- A failing command from a ready state, for each error but IllegalCommand. -/
theorem witness_FailedCommandRestoresTheSnapshot :
    (withStore [secEnc1]).Ready ∧ ((nextOf (exec .verify (withStore [secEnc1] 1))).map fun t => t.blk.err) = some true := by decide

theorem witness_SuccessfulCommandReportsDone :
    ((withStore [secEnc1, secEnd] 0).Inv ∧ (withStore [secEnc1, secEnd] 0).blk.err = false ∧
      ((nextOf (exec .verify (withStore [secEnc1, secEnd] 0))).map fun t => t.blk.err) = some false) :=
  ⟨inv_withStore 0, by decide, by decide⟩

/-- Each of the nine errors of R99 that a command raises, from a ready state. -/
theorem witness_EachCommandRaisesOnlyItsErrors :
    let raises (i : Instr) (s : State) (code : Byte) : Prop :=
      s.Ready ∧ (nextOf (exec i s)).map (fun t => (t.blk.err, t.blk.errCode)) = some (true, code)
    raises .setName (proposing 9 nameAB) 1 ∧ raises .decode (withInput [0xE6]) 2 ∧
    raises .toBytes { withStore [secEnd] with sinkRefuses := [0] } 3 ∧ raises .checksum (withInput [] true) 4 ∧
    raises .decode (withInput [0x01]) 5 ∧ raises .appendEnd (withInput []) 6 ∧
    raises .appendData (withName 0 [] (List.replicate 257 0)) 7 ∧ raises .verify State.reset 9 ∧
    raises .appendEnd { withName 0 [] [] with capacity := 31 } 10 := by decide +kernel

theorem witness_ChecksumLatchesTheInputsChecksum :
    ((withInput []).Ready ∧ (withInput []).inp.fails = false) ∧ ((withInput [1, 2] true).Ready ∧ (withInput [1, 2] true).inp.fails = true) := by
  decide

/-- NAME_LEN at 8 and at 9. -/
theorem witness_SetNameCommitsThePaddedName :
    ((proposing 8 nameAB).Ready ∧ (proposing 8 nameAB).blk.nameLen.toNat ≤ 8) ∧
    ((proposing 9 nameAB).Ready ∧ 8 < (proposing 9 nameAB).blk.nameLen.toNat) := by decide

/-- 256 and 257 bytes, capacity met exactly and missed by one. -/
theorem witness_AppendSectionAppendsTheEncodedSection :
    (Instr.appendExec, SectionType.exec) ∈ [(Instr.appendData, SectionType.data), (Instr.appendComment, SectionType.comment),
      (Instr.appendEnd, SectionType.end_), (Instr.appendExec, SectionType.exec)] ∧
    (let s := { withName 0 [] (List.replicate 256 0xAA) with capacity := 289 }
     s.Ready ∧ s.blk.nameSet = true ∧ s.inp.fails = false ∧ s.inp.bytes.length ≤ 256 ∧
     total s.blk.store + (frame s.blk.name.toList s.blk.addr s.inp.bytes .exec).length ≤ s.capacity) ∧
    (State.reset.Ready ∧ State.reset.blk.nameSet = false) ∧
    (let s := { withName 0 [] [] with inp := ⟨[1], true⟩ }; s.Ready ∧ s.blk.nameSet = true ∧ s.inp.fails = true) ∧
    (let s := withName 0 [] (List.replicate 257 0xAA)
     s.Ready ∧ s.blk.nameSet = true ∧ s.inp.fails = false ∧ 256 < s.inp.bytes.length) ∧
    (let s := { withName 0 [] (List.replicate 256 0xAA) with capacity := 288 }
     s.Ready ∧ s.blk.nameSet = true ∧ s.inp.fails = false ∧ s.inp.bytes.length ≤ 256 ∧
     s.capacity < total s.blk.store + (frame s.blk.name.toList s.blk.addr s.inp.bytes .exec).length) := by decide +kernel

theorem witness_ClearEmptiesTheStore : (withStore [secEnc1]).Ready := by decide

/-- An empty binary in a store of exactly 122 bytes, and one byte less; a failing input; a name of 8 and of 9 bytes. -/
theorem witness_FromBinaryReplacesTheStoreByTheProgram :
    (Instr.fromBinaryX, true) ∈ [(Instr.fromBinary, false), (Instr.fromBinaryX, true)] ∧
    (let s := { proposing 8 nameAB with capacity := 122 }
     s.Ready ∧ s.blk.nameLen.toNat ≤ 8 ∧ s.inp.fails = false ∧
     total (program nameAB.toList s.blk.addr true s.blk.execAddr s.inp.bytes) ≤ s.capacity) ∧
    (let s := { proposing 8 nameAB with inp := ⟨[1], true⟩ }; s.Ready ∧ s.blk.nameLen.toNat ≤ 8 ∧ s.inp.fails = true) ∧
    (let s := { proposing 8 nameAB with capacity := 121 }
     s.Ready ∧ s.blk.nameLen.toNat ≤ 8 ∧ s.inp.fails = false ∧
     s.capacity < total (program nameAB.toList s.blk.addr true s.blk.execAddr s.inp.bytes)) ∧
    ((proposing 9 nameAB).Ready ∧ 8 < (proposing 9 nameAB).blk.nameLen.toNat) := by decide

/-- A refusal one past the last beat is never met; a refusal of the first and of the last beat is. -/
theorem witness_ToBytesEmitsTheStoreBeatByBeat :
    (let s := { withStore [secEnd] with sinkRefuses := [32] }
     s.Ready ∧ (storeBeats s.blk.store).length = 32 ∧ ∀ k, k < 32 → k ∉ s.sinkRefuses) ∧
    (∀ k ∈ [0, 31], let s := { withStore [secEnd] with sinkRefuses := [k] }
     s.Ready ∧ k < (storeBeats s.blk.store).length ∧ k ∈ s.sinkRefuses ∧ ∀ j, j < k → j ∉ s.sinkRefuses) := by decide

/-- A parse that succeeds in a store of exactly its size, one that does not fit, each kind of error, and a failing input. -/
theorem witness_DecodeReplacesTheStoreByTheParse :
    (let s := { withInput wireEnd with capacity := 32 }
     s.Ready ∧ s.inp.fails = false ∧ parse s.inp.bytes = .ok [secEnd] ∧ total [secEnd] ≤ s.capacity) ∧
    (let s := withInput [1] true; s.Ready ∧ s.inp.fails = true) ∧
    (let s := withInput [0xE6]; s.Ready ∧ s.inp.fails = false ∧ parse s.inp.bytes = .error (.truncatedSection, 0)) ∧
    (let s := withInput (wireEnd ++ [0x55]); s.Ready ∧ s.inp.fails = false ∧ parse s.inp.bytes = .error (.badFraming, 32)) ∧
    (let s := { withInput wireEnd with capacity := 31 }
     s.Ready ∧ s.inp.fails = false ∧ parse s.inp.bytes = .ok [secEnd] ∧ s.capacity < total [secEnd]) :=
  ⟨⟨by decide, rfl, by rfl, by decide⟩, by decide, ⟨by decide, rfl, by rfl⟩, ⟨by decide, rfl, by rfl⟩, ⟨by decide, rfl, by rfl, by decide⟩⟩

/-- A section with a payload and one with none; SEC_SEL at the last section and one past it. -/
theorem witness_VerifyChecksTheSelectedSection :
    (secEnc1.wf = true ∧ secEnc1.payLen > 0) ∧ (secEnd.wf = true ∧ ¬ secEnd.payLen > 0) ∧ ([] : List Byte).length ≤ 256 ∧
    ((withStore [secEnc1, secEnd] 1).Ready ∧
      (withStore [secEnc1, secEnd] 1).blk.store[(withStore [secEnc1, secEnd] 1).blk.secSel.toNat]? = some secEnd) ∧
    ((withStore [secEnc1, secEnd] 2).Ready ∧
      (withStore [secEnc1, secEnd] 2).blk.store.length ≤ (withStore [secEnc1, secEnd] 2).blk.secSel.toNat) := by decide

/-- CLR_ERR with and without a latched error, and a word with OP = 0x09 that is not CLR_ERR. -/
theorem witness_ClrErrClearsTheErrorRecord :
    (latched.blk.busy = false ∧ latched.blk.err = true) ∧ (State.reset.blk.busy = false ∧ State.reset.blk.err = false) ∧
    (0x80000009#32).toNat % 256 = 9 ∧ 0x80000009#32 ≠ 0x00000009#32 := by simp [latched, State.reset, Block.reset]

theorem witness_CommandsKeepTheOperandRegisters : (nextOf (exec .clear (withStore [secEnc1]))).isSome = true ∧ Instr.clear ≠ .toBytes := by
  decide

/-- A SET_NAME and a RST that change the name, one access each. -/
theorem witness_NameChangesOnlyBySetNameAndFromBinary :
    (let s := placed (proposing 2 nameAB) (lineCmd .setName)
     s.accesses = lineCmd .setName :: [] ∧ (nextOf (step s)).map (fun t => (t.blk.name != s.blk.name, t.blk.nameSet)) = some (true, true)) ∧
    (let s := placed (withStore []) .rst
     s.accesses = .rst :: [] ∧ (nextOf (step s)).map (fun t => (t.blk.name != s.blk.name, t.blk.nameSet)) = some (true, false)) := by decide

theorem witness_StoreChangesOnlyByItsCommands :
    (let s := placed (withStore [secEnc1]) (lineCmd .clear)
     s.accesses = lineCmd .clear :: [] ∧ (nextOf (step s)).map (fun t => t.blk.store != s.blk.store) = some true) := by decide

theorem witness_ResultRegistersChangeOnlyByTheirCommands :
    (let s := placed State.reset (lineCmd .checksum (clauseIn [0x01]))
     s.accesses = lineCmd .checksum (clauseIn [0x01]) :: [] ∧ (nextOf (step s)).map (fun t => t.blk.ckValue != s.blk.ckValue) = some true) ∧
    (let s := placed (withStore [secEnc1]) (lineCmd .verify)
     s.accesses = lineCmd .verify :: [] ∧
     (nextOf (step s)).map (fun t => (t.blk.verHdrOk != s.blk.verHdrOk, s.blk.verValid, t.blk.verValid)) = some (true, false, true)) := by decide

theorem witness_InputsReachOnlyTheCommandsThatReadThem :
    Instr.verify ∈ [Instr.setName, .clear, .toBytes, .verify, .clrErr] ∧ Instr.decode ≠ .toBytes := by decide

/-- A command that reads its input, and two that fail or end before any read. -/
theorem witness_InCountTellsWhatWasRead :
    ((withInput [1, 2] true).Ready ∧ (nextOf (exec .decode (withInput [1, 2] true))).isSome = true) ∧
    ((withInput [1, 2]).Ready ∧ (withInput [1, 2]).blk.nameSet ≠ true ∧ (nextOf (exec .appendData (withInput [1, 2]))).isSome = true) ∧
    ((proposing 9 nameAB [1]).Ready ∧ ¬ (proposing 9 nameAB [1]).blk.nameLen.toNat ≤ 8 ∧
      (nextOf (exec .fromBinary (proposing 9 nameAB [1]))).isSome = true) := by decide

theorem witness_AcceptedBeatsAreNeverTakenBack :
    (nextOf (step (placed (withStore [secEnd]) (lineCmd .toBytes)))).map (fun t => t.out.length) = some 32 := by decide

theorem witness_ChecksumMakesTheSumZero : [0x00#8] ≠ [] := by decide

/-- Two sequences, a reordering, and a single-byte change. -/
theorem witness_ChecksumSeesTheSumAndEverySingleChange :
    [0x01#8] ≠ [] ∧ [0x80#8, 0x81#8] ≠ [] ∧ List.Perm [0x01#8, 0x02#8] [0x02#8, 0x01#8] ∧ (0x01#8 : Byte) ≠ 0xFF#8 := by decide

theorem witness_EncodedSectionHasTheWireLayout :
    ([] : List Byte).length ≤ 256 ∧ (List.replicate 256 (0xAA : Byte)).length ≤ 256 := ⟨by decide, by rw [List.length_replicate]⟩

theorem witness_EncodedSectionsAreWellFormedAndVerify :
    ([] : List Byte).length ≤ 256 ∧ (List.replicate 256 (0xAA : Byte)).length ≤ 256 := witness_EncodedSectionHasTheWireLayout

/-- Chunk 0 of a one-byte binary and chunk 1 of a 257-byte binary. -/
theorem witness_ProgramCarriesTheBinaryAtRisingAddresses :
    0 < (([0x01] : List Byte).length + 255) / 256 ∧ 1 < ((List.replicate 257 (0 : Byte)).length + 255) / 256 := by
  rw [List.length_replicate]; decide

theorem witness_RoundTripSafeSections :
    (parse wireEnd = .ok [secEnd] ∧ secEnd ∈ [secEnd]) ∧ ([] : List Byte).length ≤ 256 ∧
    terminator nameAB.toList true 0 ∈ program nameAB.toList 0 true 0 [] := ⟨⟨rfl, by decide⟩, by decide, by decide⟩

/-- A section cut after its first byte and before its last, behind one whole section. -/
theorem witness_CutSectionIsTruncated :
    (∀ x ∈ [secEnd], x.wf = true ∧ x.roundTripSafe = true) ∧ secEnc1.wf = true ∧ secEnc1.roundTripSafe = true ∧
    (0 < 1 ∧ 1 < secEnc1.wire.length) ∧ (0 < 35 ∧ 35 < secEnc1.wire.length) := by decide

/-- No sync byte and one sync byte before the wrong byte. -/
theorem witness_NoiseIsBadFraming :
    (∀ x ∈ [secEnd], x.wf = true ∧ x.roundTripSafe = true) ∧ (0x01#8 ≠ 0xE6#8 ∧ (0 > 0 → 0x01#8 ≠ 0x01#8)) ∧
    (0x02#8 ≠ 0xE6#8 ∧ (1 > 0 → 0x02#8 ≠ 0x01#8)) := by decide

theorem witness_UnsafeSectionsDoNotRoundTrip :
    (let sec := sectionOf nameAB.toList 0 [] .data; sec ∈ [secEnd, sec] ∧ sec.roundTripSafe = false) ∧
    (SectionType.comment = .data ∨ SectionType.comment = .comment) ∧ (SectionType.exec = .end_ ∨ SectionType.exec = .exec) ∧
    (List.replicate 255 (0xAA : Byte)).length = 255 ∧ 0xAA#8 ≠ 0xE6#8 :=
  ⟨by decide, by decide, by decide, by rw [List.length_replicate], by decide⟩

theorem witness_DecodeOfToBytesRestoresTheStore :
    (withStore [secEnc1, secEnd] 0).Inv ∧ (withStore [secEnc1, secEnd] 0).blk.err = false ∧
    (withStore [secEnc1, secEnd] 0).sinkRefuses = [] ∧ ∀ sec ∈ (withStore [secEnc1, secEnd] 0).blk.store, sec.roundTripSafe = true :=
  ⟨inv_withStore 0, by decide, by decide, by decide⟩

/-- An empty binary, its program exactly as large as the capacity. -/
theorem witness_FromBinaryRoundTrips :
    let s : State := { State.reset with capacity := 122 }
    s.Inv ∧ s.blk.err = false ∧ s.inp.fails = false ∧ s.sinkRefuses = [] ∧
    (Instr.fromBinary, false) ∈ [(Instr.fromBinary, false), (Instr.fromBinaryX, true)] ∧ s.blk.nameLen.toNat ≤ 8 ∧
    (122 + 289 * (s.inp.bytes.length / 256) +
      (if s.inp.bytes.length % 256 > 0 then 33 + s.inp.bytes.length % 256 else 0)) ≤ s.capacity := by
  constructor
  · exact { idle := rfl, sections := (by decide), capacityRange := (by decide), withinCapacity := (by decide), errorLatch := rfl,
            nameUnset := fun _ => rfl, checksumLatch := fun _ => rfl, verify := rfl, beats := (by decide) }
  · decide

theorem witness_EveryStepKeepsInvariant :
    (withStore [secEnc1, secEnd] 0).Inv ∧ (nextOf (step ((withStore [secEnc1, secEnd] 0).withFetchWord 32 5))).isSome = true :=
  ⟨inv_withStore 0, by decide⟩

/-- A text of 8 bytes. -/
theorem witness_SetNamePseudoInstructionCommitsTheText :
    State.reset.Ready ∧ nameAB.toList.length ≤ 8 ∧
    ({ State.reset with accesses := lineSetName nameAB.toList ++ [.rst] } : State).accesses = lineSetName nameAB.toList ++ [.rst] := by decide

/-- Modulators of both variants exist, at the default rate, with the sine of full amplitude rounded down. -/
theorem exists_modulator_of_variant (v : Config.Variant) :
    ∃ m : Downstream.Modulator, m.variant = v ∧ m.sampleRate = 48000 ∧ m.polyPreambleReps = 1200 ∧ m.toneAmplitude = 32767 := by
  obtain ⟨m, hm⟩ := Downstream.exists_modulator
    { variant := v, toneAmplitude := 32767, tonePhase := 0, rounding := _, polyAmplitude := 32767 } Downstream.isRounding_floor
  exact ⟨m, by simp [hm], by simp [hm], by simp [hm], by simp [hm]⟩

theorem witness_ModulatorSampleCounts :
    (∀ sec ∈ [secEnc1, secEnd], sec.wf = true) ∧ (∃ m : Downstream.Modulator, m.variant = .byte ∧ m.sampleRate = 48000) ∧
    (∃ m : Downstream.Modulator, m.variant = .poly) ∧ (∃ t : Config.Transmitter, t.baud = 300) :=
  ⟨by decide, (exists_modulator_of_variant .byte).imp fun _ h => ⟨h.1, h.2.1⟩, (exists_modulator_of_variant .poly).imp fun _ h => h.1,
    { readTimeout := 1, writeTimeout := 1 }, rfl⟩

/-- Source: R93, the extreme amplitude of the model's range. -/
theorem test_squareSamples : Downstream.squareSamples 32767 .highThenLow = List.replicate 10 0x7FFF#16 ++ List.replicate 10 0x8001#16 := by
  decide

theorem witness_ToneBlocksAreSampledSines : ∃ m : Downstream.Modulator, m.variant = .byte ∧ m.toneAmplitude = 32767 :=
  (exists_modulator_of_variant .byte).imp fun _ h => ⟨h.1, h.2.2.2⟩

theorem witness_PolyEncodedBlocksOfAStore :
    (∀ sec ∈ [secEnc1, secEnd], sec.wf = true) ∧ ∃ m : Downstream.Modulator, m.variant = .poly :=
  ⟨by decide, (exists_modulator_of_variant .poly).imp fun _ h => h.1⟩

/-- The clauses' hypotheses at no failure, at a failed first write (k = 0) and at a failed last write (k = 10) of one byte. -/
theorem witness_ModulatorStopsAtAFailedWrite :
    (∀ k < 11, (fun _ : Nat => true) k = true) ∧
    ∃ (m : Downstream.Modulator) (b : Beat), ∀ k ∈ [0, 10],
      k < (m.blocks [b]).length ∧ decide (k ≠ k) = false ∧ ∀ j < k, decide (j ≠ k) = true := by
  refine ⟨fun _ _ => rfl, ?_⟩
  obtain ⟨m, hv, -⟩ := exists_modulator_of_variant .byte
  refine ⟨m, ⟨0x3E, true, false⟩, fun k hk => ⟨?_, by simp, fun j hj => by simp; omega⟩⟩
  simp only [Downstream.Modulator.blocks, hv, List.length_map, Downstream.byteEncoded_length]
  revert k
  decide

theorem witness_PacedTransmissionOfAStore : (∀ sec ∈ [secEnc1, secEnd], sec.wf = true) ∧ [secEnc1, secEnd] ≠ [] ∧
    (∃ t : Config.Transmitter, t.baud = 300) := ⟨by decide, by decide, { readTimeout := 1, writeTimeout := 1 }, rfl⟩

/-- Source: R96, "{baud=300, stop_bits=2, read_timeout, write_timeout}". -/
theorem test_portConfig : Downstream.portConfig { readTimeout := 5, writeTimeout := 7 } = ⟨300, 2, 5, 7⟩ := by decide

/-- Source: R96 to R98: the third of three bytes is refused, so two are sent, and the second, which ends its section, is reported. -/
theorem test_transmit_refused :
    Downstream.transmit { readTimeout := 1, writeTimeout := 1 } 3 (fun k => k < 2) [⟨1, true, false⟩, ⟨2, false, true⟩, ⟨3, true, false⟩] =
      ⟨[⟨1, 11 / 300, none⟩, ⟨2, 11 / 300, some ⟨200 / 3, 11 / 300⟩⟩], some .portWriteFailure⟩ := by
  norm_num [Downstream.transmit, Downstream.pacedWrites, Downstream.portWrite, Downstream.writeInOrder, Downstream.progressAt,
    Downstream.byteDelay]

/-- The clauses' hypotheses at a failed first write (k = 0) and at a failed last write (k = 35) of a section of 36 beats; with no
failure they are met by the constant answer `true`. -/
theorem witness_TransmissionStopsAtAFailedWrite : ∀ k ∈ [0, 35],
    k < (storeBeats [secEnc1]).length ∧ decide (k ≠ k) = false ∧ ∀ j < k, decide (j ≠ k) = true := by decide

end Sys2Proof.Tests
end

section
/-! The invariant of a run is kept by every step (O53): what a command body keeps (`BodyInv`), the end of a command, and the other
accesses, put together along `StepCases`. -/

namespace Sys2Proof.Machine

/-! ### The invariant and its parts -/

theorem State.Inv.bodyInv {s : State} (h : s.Inv) : BodyInv s :=
  ⟨h.sections, h.withinCapacity, h.nameUnset, h.checksumLatch, h.verify, h.beats⟩

/-- The invariant is about the block, the capacity and the accepted beats alone. -/
theorem State.Inv.congr {s t : State} (h : s.Inv) (hb : t.blk = s.blk) (hc : t.capacity = s.capacity) (ho : t.out = s.out) :
    t.Inv := by
  obtain ⟨blk, cap, out, _, _, _, _⟩ := t
  subst hb hc ho
  exact ⟨h.idle, h.sections, h.capacityRange, h.withinCapacity, h.errorLatch, h.nameUnset, h.checksumLatch, h.verify, h.beats⟩

theorem BodyInv.inv {s : State} (h : BodyInv s) (hidle : s.blk.busy = false) (hcap : 1 ≤ s.capacity ∧ s.capacity ≤ Config.maxU32)
    (hlatch : s.blk.errorLatchOk = true) : s.Inv :=
  ⟨hidle, h.sections, hcap, h.withinCapacity, hlatch, h.nameUnset, h.checksumLatch, h.verify, h.beats⟩

/-! ### The error record -/

theorem errorLatchOk_congr {b c : Block} (herr : c.err = b.err) (hcode : c.errCode = b.errCode) (hop : c.errOp = b.errOp)
    (hoff : c.errOffset = b.errOffset) (hdone : c.done = b.done ∨ b.err = false) : c.errorLatchOk = b.errorLatchOk := by
  simp only [Block.errorLatchOk, herr, hcode, hop, hoff]
  rcases hdone with hdone | hdone
  · rw [hdone]
  · simp only [hdone, Bool.false_eq_true, if_false]

/-- `raise` latches a code of R99 with DONE = 0 (R103). -/
theorem errorLatchOk_abort (b : Block) (count : Word) (e : CmdError) (op : Byte) (off : Nat) :
    (b.abort count e op off).errorLatchOk = true := by
  have hrange := e.code_range
  simp [Block.errorLatchOk, hrange.1, hrange.2]

/-! ### Commands -/

/-- A body that the gate lets run reaches a state with no error latched and a sound record: only CLR_ERR runs on a latched error,
and it clears it (R84, R86). -/
theorem bodyOf_started_errorRecord {i : Instr} {s : State} (hs : s.Inv) (hgate : s.blk.err = false ∨ i = .clrErr) :
    (bodyOf i (s.withBlk s.blk.start)).reached.blk.err = false ∧
    (bodyOf i (s.withBlk s.blk.start)).reached.blk.errorLatchOk = true := by
  by_cases hi : i = .clrErr
  · subst hi; exact ⟨rfl, rfl⟩
  · have herr : s.blk.err = false := hgate.resolve_right hi
    have hst := bodyOf_sameStatus hi (s.withBlk s.blk.start)
    refine ⟨hst.err.trans herr, ?_⟩
    rw [errorLatchOk_congr (b := s.blk) hst.err hst.errCode hst.errOp hst.errOffset (.inr herr)]
    exact hs.errorLatch

/-- `raise` goes back to the snapshot, so only the beats accepted meanwhile need a word (R103). -/
theorem raiseError_inv {s u : State} (hs : s.Inv) (hbeats : ∀ b ∈ u.out, ¬(b.sos = true ∧ b.eos = true)) (w : Word) (e : CmdError)
    (off : Nat) : (raiseError w s e off u).Inv :=
  ⟨rfl, hs.sections, hs.capacityRange, hs.withinCapacity, errorLatchOk_abort .., hs.nameUnset, hs.checksumLatch, hs.verify, hbeats⟩

/-- `finish` keeps what the body has kept (R85). -/
theorem finish_inv {u : State} (hu : BodyInv u) (hcap : 1 ≤ u.capacity ∧ u.capacity ≤ Config.maxU32) (herr : u.blk.err = false)
    (hlatch : u.blk.errorLatchOk = true) : (u.withBlk u.blk.finish).Inv := by
  have hbody : BodyInv (u.withBlk u.blk.finish) := bodyInv_congr hu rfl rfl rfl rfl rfl rfl hu.verify rfl
  refine hbody.inv rfl hcap ?_
  exact (errorLatchOk_congr (b := u.blk) (c := u.blk.finish) rfl rfl rfl rfl (.inr herr)).trans hlatch

theorem start_bodyInv {s : State} (hs : s.Inv) : BodyInv (s.withBlk s.blk.start) :=
  bodyInv_congr hs.bodyInv rfl rfl rfl rfl rfl rfl hs.verify rfl

theorem exec_inv {i : Instr} {s t : State} (hs : s.Inv) (h : exec i s = .next t) : t.Inv := by
  rcases exec_cases h with ⟨rfl, -⟩ | ⟨-, hgate, rfl⟩
  · exact hs
  · have hbody := bodyOf_inv i (start_bodyInv hs)
    have hcap := (bodyOf_sameOperands i (s.withBlk s.blk.start)).capacity
    obtain ⟨herr, hlatch⟩ := bodyOf_started_errorRecord hs hgate
    cases hr : bodyOf i (s.withBlk s.blk.start) with
    | finished u =>
      rw [hr] at hbody hcap herr hlatch
      exact finish_inv hbody (by rw [show u.capacity = s.capacity from hcap]; exact hs.capacityRange) herr hlatch
    | aborted e off u =>
      rw [hr] at hbody
      exact raiseError_inv hs hbody.beats _ e off

theorem execIllegal_inv {w : Word} {s t : State} (hs : s.Inv) (h : execIllegal w s = .next t) : t.Inv := by
  rcases commandFrame_cases h with ⟨rfl, -⟩ | ⟨-, -, rfl⟩
  · exact hs
  · exact raiseError_inv (u := s.withBlk s.blk.start) hs hs.beats w .illegalCommand 0

/-! ### The other accesses -/

theorem reset_inv {s : State} (hs : s.Inv) : (resetBlock s).Inv :=
  ⟨rfl, by simp [Block.reset], hs.capacityRange, by simp [Block.reset], rfl, fun _ => rfl, fun _ => rfl, rfl, hs.beats⟩

/-- A register write keeps VERIFY about the selected section: one that changes SEC_SEL clears VALID (R26, R116). -/
theorem WriteFrame.verifyCurrent {b c : Block} (h : WriteFrame b c) (hb : b.verifyCurrent = true) : c.verifyCurrent = true := by
  rcases h.verValid with ⟨hsel, hvalid⟩ | hvalid
  · rw [verifyCurrent_congr h.store hsel h.verHdrOk h.verPayOk hvalid, hb]
  · exact verifyCurrent_invalid hvalid

theorem regWrite_inv {s : State} (hs : s.Inv) (off : Nat) (w : Word) : (s.withBlk (regWrite off w s.blk)).Inv := by
  have hw := regWrite_frame off w s.blk
  have hbody : BodyInv (s.withBlk (regWrite off w s.blk)) :=
    bodyInv_congr hs.bodyInv hw.store rfl hw.nameSet hw.name hw.ckEmpty hw.ckValue (hw.verifyCurrent hs.verify) rfl
  refine hbody.inv (hw.busy.trans hs.idle) hs.capacityRange ?_
  exact (errorLatchOk_congr hw.err hw.errCode hw.errOp hw.errOffset (.inl hw.done)).trans hs.errorLatch

/-- Settles O53, along everything a step can do. -/
theorem everyStepKeepsInvariant : Obligations.EveryStepKeepsInvariant := by
  intro s t hs h
  cases step_cases h with
  | idle _ e => exact e ▸ hs
  | rst rest _ e => subst e; exact (reset_inv hs).congr rfl rfl rfl
  | read off rest _ _ _ e => subst e; exact hs.congr rfl rfl rfl
  | write off w inp refused rest _ _ _ _ e => subst e; exact (regWrite_inv hs off w).congr rfl rfl rfl
  | command i w inp refused rest _ _ e => refine exec_inv ?_ e; exact hs.congr rfl rfl rfl
  | illegal w inp refused rest _ er _ e => refine execIllegal_inv ?_ e; exact hs.congr rfl rfl rfl

end Sys2Proof.Machine
end

section
/-! The registers (O7 to O13): which offset is which register, what a write stores and a read returns, and the words of the flag, name,
count and view registers as numbers and fields. -/

namespace Sys2Proof.Machine

/-! ### Offsets and registers (R17) -/

theorem regAt_offset (r : Reg) : regAt r.offset = some r := by cases r <;> rfl

/-- Each row of the register map gives its register's offset. -/
theorem regMap_offset : ∀ e ∈ regMap, e.2.offset = e.1 := by decide

theorem offset_eq_of_regAt {off : Nat} {r : Reg} (h : regAt off = some r) : off = r.offset := by
  obtain ⟨e, he, rfl⟩ := Option.map_eq_some_iff.mp h
  have hoff : e.1 = off := by simpa using List.find?_some he
  rw [← hoff, regMap_offset e (List.mem_of_find?_eq_some he)]

theorem Reg.offset_admitted (r : Reg) : r.offset % 4 = 0 ∧ r.offset < 0x54 := by cases r <;> decide

theorem Reg.offset_ne_zero {r : Reg} (hr : r ≠ .cmd) : r.offset ≠ 0 := by
  intro h
  exact hr (Option.some.inj ((regAt_offset r).symm.trans (congrArg regAt h)))

/-- The registers end at 0x50 (R17, R41). -/
theorem regAt_reserved {off : Nat} (h : 0x54 ≤ off) : regAt off = none := by
  cases hr : regAt off with
  | none => rfl
  | some r =>
    have hoff := offset_eq_of_regAt hr
    have hlt := r.offset_admitted.2
    omega

theorem regRead_offset (r : Reg) (b : Block) : regRead r.offset b = r.read b := by simp only [regRead, regAt_offset]

theorem regRead_reserved {off : Nat} (h : 0x54 ≤ off) (b : Block) : regRead off b = 0 := by simp only [regRead, regAt_reserved h]

/-! ### Writes (R18, R21, R23, R26) -/

/-- The registers a write stores into; CMD issues a command instead. -/
def Reg.Writable (r : Reg) : Prop := r ∈ [Reg.nameLen, .nameBuf0, .nameBuf1, .addr, .exec, .secSel]

theorem Reg.write_eq_self {r : Reg} (hr : ¬ r.Writable) (w : Word) (b : Block) : r.write w b = b := by
  cases r <;> simp [Reg.Writable, Reg.write] at hr ⊢

/-- A write at an offset that is no writable register's stores nothing. -/
theorem regWrite_eq_self {off : Nat} (hoff : ∀ r : Reg, r.Writable → off ≠ r.offset) (w : Word) (b : Block) :
    regWrite off w b = b := by
  unfold regWrite
  split
  · rfl
  · split
    · rename_i r hr
      exact Reg.write_eq_self (fun hw => hoff r hw (offset_eq_of_regAt hr)) w b
    · rfl

theorem regWrite_offset {b : Block} (hb : b.busy = false) (r : Reg) (w : Word) : regWrite r.offset w b = r.write w b := by
  simp only [regWrite, hb, Bool.false_eq_true, if_false, regAt_offset]

/-- The step that writes a register other than CMD of a block that is not busy. -/
theorem step_write_reg {s : State} (r : Reg) {w : Word} {inp : InStream} {refused : List Nat} {rest : List HostAccess}
    (h : s.accesses = .write r.offset 32 w inp refused :: rest) (hr : r ≠ .cmd) (hb : s.blk.busy = false) :
    step s = .next { s with accesses := rest, blk := r.write w s.blk } := by
  obtain ⟨h4, hlt⟩ := r.offset_admitted
  rw [step_write h h4 (by omega) (Reg.offset_ne_zero hr), regWrite_offset hb]

/-- The registers of 32 defined bits read back the word written. -/
theorem Reg.read_write_word {r : Reg} (hr : r = .nameBuf0 ∨ r = .nameBuf1 ∨ r = .secSel) (w : Word) (b : Block) :
    r.read (r.write w b) = w := by
  rcases hr with rfl | rfl | rfl
  · exact wordOfBytes_bytes w
  · exact wordOfBytes_bytes w
  · rfl

/-- The registers of 16 defined bits read back those, and zero above them. -/
theorem Reg.read_write_half {r : Reg} (hr : r = .nameLen ∨ r = .addr ∨ r = .exec) (w : Word) (b : Block) :
    (r.read (r.write w b)).toNat = w.toNat % 65536 := by
  have hread : r.read (r.write w b) = 0#16 ++ w.extractLsb' 0 16 := by rcases hr with rfl | rfl | rfl <;> rfl
  rw [hread, zeroExtend16_toNat]
  simp

/-- Settles O7: no register has such an offset, or its write is ignored. -/
theorem reservedAndReadOnlyOffsetsAreInert : Obligations.ReservedAndReadOnlyOffsetsAreInert := by
  intro s off w inp refused rest h4 hle
  refine ⟨?_, ?_⟩
  · rintro (rfl | hres)
    · exact regRead_offset .cmd s.blk
    · exact regRead_reserved hres s.blk
  · intro h0 hNameLen hNameBuf0 hNameBuf1 hAddr hExec hSecSel h
    have hoff : ∀ r : Reg, r.Writable → off ≠ r.offset := by
      intro r hr
      simp only [Reg.Writable, List.mem_cons, List.not_mem_nil, or_false] at hr
      rcases hr with rfl | rfl | rfl | rfl | rfl | rfl
      exacts [hNameLen, hNameBuf0, hNameBuf1, hAddr, hExec, hSecSel]
    rw [step_write h h4 hle h0, regWrite_eq_self hoff]

/-- Settles O8: one write per register, then the two read-back lemmas. -/
theorem writableRegistersStoreTheirFields : Obligations.WritableRegistersStoreTheirFields := by
  intro s off w inp refused rest h hb
  refine ⟨?_, ?_, ?_, ?_, ?_, ?_⟩
  · rintro rfl; exact step_write_reg .nameLen h (by decide) hb
  · rintro rfl; exact ⟨s.blk.nameBuf.setWord0 w, step_write_reg .nameBuf0 h (by decide) hb, rfl⟩
  · rintro rfl; exact ⟨s.blk.nameBuf.setWord1 w, step_write_reg .nameBuf1 h (by decide) hb, rfl⟩
  · rintro rfl; exact step_write_reg .addr h (by decide) hb
  · rintro rfl; exact step_write_reg .exec h (by decide) hb
  · intro t ht
    have readBack : ∀ r : Reg, r ≠ .cmd → off = r.offset → regRead off t.blk = r.read (r.write w s.blk) := by
      rintro r hr rfl
      rw [step_write_reg r h hr hb] at ht
      cases ht
      exact regRead_offset r _
    refine ⟨?_, ?_⟩
    · rintro (hoff | hoff | hoff)
      · exact (readBack .nameBuf0 (by decide) hoff).trans (Reg.read_write_word (by decide) w s.blk)
      · exact (readBack .nameBuf1 (by decide) hoff).trans (Reg.read_write_word (by decide) w s.blk)
      · exact (readBack .secSel (by decide) hoff).trans (Reg.read_write_word (by decide) w s.blk)
    · rintro (hoff | hoff | hoff)
      · rw [readBack .nameLen (by decide) hoff, Reg.read_write_half (by decide)]
      · rw [readBack .addr (by decide) hoff, Reg.read_write_half (by decide)]
      · rw [readBack .exec (by decide) hoff, Reg.read_write_half (by decide)]

/-! ### The selected section (R26, R27) -/

theorem Block.view_some {b : Block} {sec : Section} (h : b.store[b.secSel.toNat]? = some sec) (f : Section → Word) :
    b.view f = f sec := by
  simp only [Block.view, Block.selected, h]

theorem Block.view_none {b : Block} (h : b.store.length ≤ b.secSel.toNat) (f : Section → Word) : b.view f = 0 := by
  simp only [Block.view, Block.selected, List.getElem?_eq_none h]

/-- VERIFY latches the two checks of the section at index SEC_SEL (R83). -/
theorem exec_verify_selected {s t : State} {sec : Section} (hr : s.Ready) (hsec : s.blk.store[s.blk.secSel.toNat]? = some sec)
    (h : exec .verify s = .next t) : t.blk = (s.blk.start.latchVerify sec.hdrOk sec.payOk).finish := by
  have hsel : s.blk.start.selected = some sec := hsec
  rw [exec_ready hr] at h
  simp only [bodyOf, bodyVerify, State.withBlk_blk, hsel, endCommand] at h
  cases h
  rfl

/-- Settles O9. -/
theorem secSelWriteClearsVerifyValid : Obligations.SecSelWriteClearsVerifyValid := by
  refine ⟨?_, regRead_offset .secSel, rfl, ?_, ?_⟩
  · intro s w inp refused rest h hb
    exact step_write_reg .secSel h (by decide) hb
  · intro b sec hsec
    exact ⟨Block.view_some hsec _, Block.view_some hsec _, Block.view_some hsec _, Block.view_some hsec _⟩
  · intro s t sec hr hsec h
    rw [exec_verify_selected hr hsec h]
    exact ⟨rfl, rfl, rfl⟩

/-! ### Fields at their bits (R19, R20, R22, R25, R28) -/

theorem toNat_append_eq_add {m n : Nat} (x : BitVec m) (y : BitVec n) : (x ++ y).toNat = x.toNat * 2 ^ n + y.toNat := by
  rw [BitVec.toNat_append, ← Nat.shiftLeft_add_eq_or_of_lt y.isLt, Nat.shiftLeft_eq]

theorem Block.statusWord_toNat (b : Block) :
    b.statusWord.toNat = b.busy.toNat + 2 * b.done.toNat + 4 * b.err.toNat + 8 * b.nameSet.toNat := by
  simp only [Block.statusWord, toNat_append_eq_add, BitVec.toNat_ofBool, BitVec.toNat_ofNat]
  omega

theorem Block.errWord_toNat (b : Block) : b.errWord.toNat = b.errCode.toNat + 256 * b.errOp.toNat := by
  simp only [Block.errWord, toNat_append_eq_add, BitVec.toNat_ofNat]
  omega

theorem Block.ckWord_toNat (b : Block) : b.ckWord.toNat = b.ckValue.toNat + 256 * b.ckEmpty.toNat := by
  simp only [Block.ckWord, toNat_append_eq_add, BitVec.toNat_ofBool, BitVec.toNat_ofNat]
  omega

theorem Block.verifyWord_toNat (b : Block) :
    b.verifyWord.toNat = b.verHdrOk.toNat + 2 * b.verPayOk.toNat + 8 * b.verValid.toNat := by
  simp only [Block.verifyWord, toNat_append_eq_add, BitVec.toNat_ofBool, BitVec.toNat_ofNat]
  omega

/-- Settles O10. -/
theorem flagRegistersHoldTheirBits : Obligations.FlagRegistersHoldTheirBits := fun b =>
  ⟨b.statusWord_toNat, b.errWord_toNat, rfl, b.ckWord_toNat, b.verifyWord_toNat⟩

/-- A register's word gives back its bytes, the lowest-numbered one lowest (R36). -/
theorem byteOfWord_wordOfBytes (b0 b1 b2 b3 : Byte) {i : Nat} (hi : i < 4) :
    some (byteOfWord (wordOfBytes b0 b1 b2 b3) i) = [b0, b1, b2, b3][i]? := by
  match i, hi with
  | 0, _ => exact congrArg some (extract_low_append _ _)
  | 1, _ => exact congrArg some ((extract_high_append (k := 0) _ _ rfl).trans (extract_low_append _ _))
  | 2, _ =>
    exact congrArg some ((extract_high_append (k := 8) _ _ rfl).trans
      ((extract_high_append (k := 0) _ _ rfl).trans (extract_low_append _ _)))
  | 3, _ =>
    exact congrArg some ((extract_high_append (k := 16) _ _ rfl).trans
      ((extract_high_append (k := 8) _ _ rfl).trans ((extract_high_append (k := 0) _ _ rfl).trans (by simp))))

/-- Settles O11. -/
theorem nameRegistersPackBytesLowFirst : Obligations.NameRegistersPackBytesLowFirst := by
  refine ⟨?_, rfl, rfl⟩
  intro b i hi
  have hlo : b.name.toList[i]? = [b.name.b0, b.name.b1, b.name.b2, b.name.b3][i]? :=
    List.getElem?_append_left (l₁ := [b.name.b0, b.name.b1, b.name.b2, b.name.b3]) hi
  have hhi : b.name.toList[4 + i]? = [b.name.b4, b.name.b5, b.name.b6, b.name.b7][i]? := by
    rw [Nat.add_comm]; rfl
  rw [hlo, hhi]
  exact ⟨byteOfWord_wordOfBytes _ _ _ _ hi, byteOfWord_wordOfBytes _ _ _ _ hi⟩

/-! ### Counts (R24) -/

theorem State.Inv.total_le {s : State} (h : s.Inv) : total s.blk.store ≤ 0xFFFFFFFF :=
  h.withinCapacity.trans h.capacityRange.2

/-- Settles O12: the capacity keeps the total within 32 bits (R7, R15). -/
theorem countRegistersCountTheStore : Obligations.CountRegistersCountTheStore := by
  intro s hs
  refine ⟨sat32_toNat _, ?_, rfl⟩
  have hlt : total s.blk.store < 2 ^ 32 := by have := hs.total_le; omega
  exact (BitVec.toNat_ofNat ..).trans (Nat.mod_eq_of_lt hlt)

/-! ### Views (R27) -/

theorem Section.wf_payLen_le {sec : Section} (h : sec.wf = true) : sec.payLen ≤ 256 := ((Section.wf_iff sec).mp h).2.1

/-- The fields of SEC_INFO0. -/
theorem Section.info0_fields (sec : Section) (hp : sec.payLen ≤ 256) :
    sec.info0.extractLsb' 0 8 = sec.typeByte ∧ sec.info0.extractLsb' 8 8 = sec.lenByte ∧
    (sec.info0.extractLsb' 16 9).toNat = sec.payLen ∧ sec.info0.getLsbD 25 = decide (sec.payLen > 0) ∧
    sec.info0.extractLsb' 26 6 = 0 := by
  refine ⟨extract_low_append _ _, ?_, ?_, ?_, ?_⟩
  · exact (extract_high_append (k := 0) _ _ rfl).trans (extract_low_append _ _)
  · rw [Section.info0, extract_high_append (k := 8) _ _ rfl, extract_high_append (k := 0) _ _ rfl, extract_low_append,
      BitVec.toNat_ofNat]
    omega
  · rw [Section.info0, bit_high_append (k := 17) _ _ rfl, bit_high_append (k := 9) _ _ rfl, bit_high_append (k := 0) _ _ rfl,
      BitVec.getLsbD_append]
    simp
  · rw [Section.info0, extract_high_append (k := 18) _ _ rfl, extract_high_append (k := 10) _ _ rfl,
      extract_high_append (k := 1) _ _ rfl, extract_high_append (k := 0) _ _ rfl]
    rfl

/-- The fields of SEC_INFO1. -/
theorem Section.info1_fields (sec : Section) :
    sec.info1.extractLsb' 0 16 = sec.addrField ∧ sec.info1.extractLsb' 16 16 = sec.execField := by
  refine ⟨extract_low_append _ _, ?_⟩
  exact (extract_high_append (k := 0) _ _ rfl).trans (by simp)

/-- The fields of SEC_INFO2. -/
theorem Section.info2_fields (sec : Section) :
    sec.info2.extractLsb' 0 8 = sec.hdrCk ∧ sec.info2.extractLsb' 8 8 = (if sec.payLen > 0 then sec.payCk else 0) ∧
    (sec.info2.extractLsb' 16 16).toNat = min sec.syncLen 0xFFFF := by
  refine ⟨extract_low_append _ _, ?_, ?_⟩
  · exact (extract_high_append (k := 0) _ _ rfl).trans (extract_low_append _ _)
  · rw [Section.info2, extract_high_append (k := 8) _ _ rfl, extract_high_append (k := 0) _ _ rfl, BitVec.extractLsb'_eq_self,
      BitVec.toNat_ofNat]
    omega

theorem Section.wireLen_toNat {sec : Section} (h : sec.wire.length ≤ 0xFFFFFFFF) : sec.wireLen.toNat = sec.wire.length := by
  rw [Section.wireLen, BitVec.toNat_ofNat]
  omega

/-- Settles O13: the view shows the selected section, whose lengths the invariant keeps within their fields. -/
theorem viewRegistersShowTheSelectedSection : Obligations.ViewRegistersShowTheSelectedSection := by
  refine ⟨?_, ?_, rfl, rfl, rfl, rfl⟩
  · intro s h
    exact ⟨Block.view_none h _, Block.view_none h _, Block.view_none h _, Block.view_none h _⟩
  · intro s sec hs hsec
    have hmem : sec ∈ s.blk.store := List.mem_of_getElem? hsec
    have hwire : sec.wire.length ≤ 0xFFFFFFFF := (wire_length_le_total hmem).trans hs.total_le
    have h0 : regRead 0x40 s.blk = sec.info0 := Block.view_some hsec _
    have h1 : regRead 0x44 s.blk = sec.info1 := Block.view_some hsec _
    have h2 : regRead 0x48 s.blk = sec.info2 := Block.view_some hsec _
    have h3 : regRead 0x4C s.blk = sec.wireLen := Block.view_some hsec _
    obtain ⟨hType, hLenb, hPaylen, hPresent, hZero⟩ := sec.info0_fields (Section.wf_payLen_le (hs.sections sec hmem))
    obtain ⟨hAddr, hExec⟩ := sec.info1_fields
    obtain ⟨hHck, hPck, hSync⟩ := sec.info2_fields
    rw [h0, h1, h2, h3]
    exact ⟨hType, hLenb, hPaylen, hPresent, hZero, hAddr, hExec, hHck, hPck, hSync, Section.wireLen_toNat hwire⟩

end Sys2Proof.Machine
end

section
/-! What changes what (O31, O32, O33, O36): a word that decodes is its instruction's word, so each change of the name, the store,
the result registers and the accepted beats is traced to the words that can make it. -/

namespace Sys2Proof.Machine

/-! ### A word that decodes is the word of its instruction (R48, R49) -/

/-- A word whose bits 31:11 are zero is packed from its other fields. -/
theorem packWord_fieldsOf {w : Word} (h : (fieldsOf w).high = 0) : packWord (fieldsOf w).op (fieldsOf w).type (fieldsOf w).x = w := by
  have hbits : w.extractLsb' 11 21 = 0#21 := h
  apply BitVec.eq_of_getLsbD_eq
  intro i hi
  simp only [packWord, fieldsOf, BitVec.getLsbD_append, BitVec.getLsbD_extractLsb', BitVec.getLsbD_ofBool]
  by_cases h1 : i < 8
  · simp [h1]
  · by_cases h2 : i < 10
    · simp [h1, show i - 8 < 2 by omega, show 8 + (i - 8) = i by omega]
    · by_cases h3 : i = 10
      · subst h3; simp
      · have hbit := congrArg (fun v => v.getLsbD (i - 11)) hbits
        simp only [BitVec.getLsbD_extractLsb', show i - 11 < 21 by omega, show 11 + (i - 11) = i by omega, decide_true,
          Bool.true_and, BitVec.getLsbD_zero] at hbit
        simp [h1, show ¬ i - 8 < 2 by omega, show ¬ i - 8 - 2 < 1 by omega, hbit]

/-- An opcode's word with TYPE = 0 and X = 0. -/
theorem packWord_of_instrOfOp_plain {op : Byte} {i : Instr} (h : instrOfOp op.toNat 0 false = some i) :
    packWord op 0 false = encode i := by
  have hop : op = BitVec.ofNat 8 op.toNat := by simp
  unfold instrOfOp at h
  split at h <;> rename_i hn
  case h_10 => cases h
  all_goals
    rw [hn] at hop
    subst hop
    cases h
    rfl

/-- The fields of a legal word are those of the row its opcode names (R50, R51). -/
theorem packWord_of_instrOfOp {op : Byte} {type : BitVec 2} {x : Bool} {i : Instr} (htype : type = 0 ∨ op = 3) (hx : x = false ∨ op = 4)
    (h : instrOfOp op.toNat type.toNat x = some i) : packWord op type x = encode i := by
  have typeRows : ∀ t : BitVec 2, ∀ j ∈ instrOfOp 3 t.toNat false, packWord 3 t false = encode j := by decide
  have xRows : ∀ j ∈ instrOfOp 4 0 true, packWord 4 0 true = encode j := by decide
  rcases htype with rfl | rfl
  · rcases hx with rfl | rfl
    · exact packWord_of_instrOfOp_plain h
    · cases x
      · exact packWord_of_instrOfOp_plain h
      · exact xRows i h
  · obtain rfl : x = false := hx.resolve_right (by decide)
    exact typeRows type i h

theorem eq_encode_of_decode {w : Word} {i : Instr} (h : decode w = .ok i) : w = encode i := by
  unfold decode at h
  dsimp only at h
  split at h
  · cases h
  · rename_i hhigh
    split at h
    · cases h
    · rename_i htype
      split at h
      · cases h
      · rename_i hx
        split at h
        · rename_i j hj
          cases h
          have htype' : (fieldsOf w).type = 0 ∨ (fieldsOf w).op = 3 := by tauto
          have hx' : (fieldsOf w).x = false ∨ (fieldsOf w).op = 4 := by rw [← Bool.not_eq_true]; tauto
          rw [← packWord_of_instrOfOp htype' hx' hj, packWord_fieldsOf (not_not.mp hhigh)]
        · cases h

/-! ### What a step leaves of the name, the store and the result registers -/

/-- The name, the store and the results stay, but that VERIFY.VALID may be cleared. -/
structure ResultsKept (b c : Block) : Prop where
  name : c.name = b.name
  nameSet : c.nameSet = b.nameSet
  store : c.store = b.store
  ckValue : c.ckValue = b.ckValue
  ckEmpty : c.ckEmpty = b.ckEmpty
  verHdrOk : c.verHdrOk = b.verHdrOk
  verPayOk : c.verPayOk = b.verPayOk
  verValid : c.verValid = b.verValid ∨ c.verValid = false

theorem ResultsKept.refl (b : Block) : ResultsKept b b := ⟨rfl, rfl, rfl, rfl, rfl, rfl, rfl, .inl rfl⟩

theorem WriteFrame.resultsKept {b c : Block} (h : WriteFrame b c) : ResultsKept b c :=
  ⟨h.name, h.nameSet, h.store, h.ckValue, h.ckEmpty, h.verHdrOk, h.verPayOk, h.verValid.imp_left And.right⟩

theorem execIllegal_resultsKept {w : Word} {s t : State} (h : execIllegal w s = .next t) : ResultsKept s.blk t.blk := by
  rcases execIllegal_cases h with ⟨rfl, -⟩ | ⟨-, -, rfl⟩
  · exact .refl _
  · exact ⟨rfl, rfl, rfl, rfl, rfl, rfl, rfl, .inl rfl⟩

/-- A step is RST, or the CMD write of a command's word in that command's frame, or it keeps the name, the store and the results. -/
theorem step_changes {s t : State} {a : HostAccess} {rest : List HostAccess} (ha : s.accesses = a :: rest) (h : step s = .next t) :
    (a = .rst ∧ t.blk = Block.reset) ∨
    (∃ i inp refused, a = .write 0 32 (encode i) inp refused ∧ CommandFrame i s t) ∨ ResultsKept s.blk t.blk := by
  cases step_cases h with
  | idle ha' _ => rw [ha] at ha'; cases ha'
  | rst rest' ha' e => rw [ha] at ha'; cases ha'; subst e; exact .inl ⟨rfl, rfl⟩
  | read off rest' _ _ _ e => subst e; exact .inr (.inr (.refl _))
  | write off w inp refused rest' _ _ _ _ e => subst e; exact .inr (.inr (regWrite_frame off w s.blk).resultsKept)
  | command i w inp refused rest' ha' hw e =>
    rw [ha] at ha'; cases ha'
    obtain ⟨hname, hstore, hvalid, hck, hver⟩ := exec_frame e
    exact .inr (.inl ⟨i, inp, refused, by rw [eq_encode_of_decode hw], hname, hstore, hvalid, hck, hver⟩)
  | illegal w inp refused rest' _ er _ e =>
    have hk := execIllegal_resultsKept e
    exact .inr (.inr hk)

/-- Settles O31. -/
theorem nameChangesOnlyBySetNameAndFromBinary : Obligations.NameChangesOnlyBySetNameAndFromBinary := by
  intro s t a rest ha h hch
  rcases step_changes ha h with ⟨rfl, -⟩ | ⟨i, inp, refused, rfl, hf⟩ | hk
  · exact .inl rfl
  · refine .inr ⟨encode i, inp, refused, rfl, ?_⟩
    by_contra hw
    have hsame := hf.name (by rintro rfl; exact hw (.inl rfl)) (by rintro rfl; exact hw (.inr (.inl rfl)))
      (by rintro rfl; exact hw (.inr (.inr rfl)))
    exact hch.elim (absurd hsame.1) (absurd hsame.2)
  · exact Or.elim hch (absurd hk.name) (absurd hk.nameSet)

/-- Settles O32. -/
theorem storeChangesOnlyByItsCommands : Obligations.StoreChangesOnlyByItsCommands := by
  intro s t a rest ha h hch
  rcases step_changes ha h with ⟨rfl, hb⟩ | ⟨i, inp, refused, rfl, hf⟩ | hk
  · exact ⟨by rw [hb]; rfl, .inl rfl⟩
  · refine ⟨hf.valid.resolve_left hch, .inr ⟨encode i, inp, refused, rfl, ?_⟩⟩
    have hi : ¬(i = .setName ∨ i = .toBytes ∨ i = .verify ∨ i = .checksum ∨ i = .clrErr) := fun hi => hch (hf.store hi)
    revert hi
    cases i <;> decide
  · exact absurd hk.store hch

/-- Settles O33. -/
theorem resultRegistersChangeOnlyByTheirCommands : Obligations.ResultRegistersChangeOnlyByTheirCommands := by
  intro s t a rest ha h
  rcases step_changes ha h with ⟨rfl, -⟩ | ⟨i, inp, refused, rfl, hf⟩ | hk
  · exact ⟨fun _ => .inl rfl, fun _ => .inl rfl⟩
  · refine ⟨fun hch => .inr ⟨inp, refused, ?_⟩, fun hch => .inr ⟨inp, refused, ?_⟩⟩
    · have hi : i = .checksum := by
        by_contra hne
        have hsame := hf.ck hne
        exact hch.elim (absurd hsame.1) (absurd hsame.2)
      subst hi; rfl
    · have hi : i = .verify := by
        by_contra hne
        obtain ⟨hHdr, hPay, hValid⟩ := hf.ver hne
        rcases hch with hch | hch | ⟨hs, ht⟩
        · exact hch hHdr
        · exact hch hPay
        · simp [hs, ht] at hValid
      subst hi; rfl
  · refine ⟨fun hch => Or.elim hch (absurd hk.ckValue) (absurd hk.ckEmpty), fun hch => ?_⟩
    rcases hch with hch | hch | ⟨hs, ht⟩
    · exact absurd hk.verHdrOk hch
    · exact absurd hk.verPayOk hch
    · have hValid := hk.verValid
      simp [hs, ht] at hValid

/-! ### The accepted beats (R32) -/

/-- A step adds beats only by the CMD write of TO_BYTES, and takes none back. -/
theorem step_out {s t : State} (h : step s = .next t) :
    t.out = s.out ∨ ∃ beats inp refused rest, t.out = s.out ++ beats ∧
      s.accesses = .write 0 32 (encode .toBytes) inp refused :: rest := by
  cases step_cases h with
  | idle _ e => subst e; exact .inl rfl
  | rst rest _ e => subst e; exact .inl rfl
  | read off rest _ _ _ e => subst e; exact .inl rfl
  | write off w inp refused rest _ _ _ _ e => subst e; exact .inl rfl
  | command i w inp refused rest ha hw e =>
    obtain ⟨beats, hout, hnil, -⟩ := exec_out e
    by_cases hi : i = .toBytes
    · subst hi
      exact .inr ⟨beats, inp, refused, rest, hout, by rw [ha, eq_encode_of_decode hw]⟩
    · exact .inl (by simpa [hnil hi] using hout)
  | illegal w inp refused rest _ er _ e =>
    rcases execIllegal_cases e with ⟨rfl, -⟩ | ⟨-, -, rfl⟩
    · exact .inl rfl
    · exact .inl rfl

/-- Settles O36. -/
theorem acceptedBeatsAreNeverTakenBack : Obligations.AcceptedBeatsAreNeverTakenBack := by
  intro s t h
  rcases step_out h with hout | ⟨beats, inp, refused, rest, hout, ha⟩
  · exact ⟨[], by simpa using hout, by simp⟩
  · exact ⟨beats, hout, fun _ => ⟨inp, refused, rest, ha⟩⟩

end Sys2Proof.Machine
end

section
/-! What IN_COUNT tells (O35), body by body, and the encoder's sections (O40). -/

namespace Sys2Proof.Machine

/-! ### IN_COUNT (R24, R30, R119) -/

/-- The commands that reach their ReadInput: a name error comes before it (R63, R67, R73, R119). -/
def ReachesReadInput (i : Instr) (s : State) : Prop :=
  i = .checksum ∨ i = .decode ∨
    (i ∈ [Instr.appendData, .appendComment, .appendEnd, .appendExec] ∧ s.blk.nameSet = true) ∨
    ((i = .fromBinary ∨ i = .fromBinaryX) ∧ s.blk.nameLen.toNat ≤ 8)

theorem readInput_inCount {s : State} {rest : List Byte → State → BodyResult}
    (hrest : ∀ d u, (rest d u).reached.blk.inCount = u.blk.inCount) :
    (readInput s rest).reached.blk.inCount = sat32 s.inp.bytes.length :=
  readInput_reached (P := fun t => t.blk.inCount = sat32 s.inp.bytes.length) rfl (hrest _ _)

theorem replaceStore_inCount {s : State} {S : List Section} {f : Block → Block} (hf : ∀ b, (f b).inCount = b.inCount) :
    (replaceStore s S f).reached.blk.inCount = s.blk.inCount :=
  replaceStore_reached (P := fun t => t.blk.inCount = s.blk.inCount) rfl (hf _)

theorem bodyAppend_inCount (type : SectionType) {s : State} (h : s.blk.nameSet = true) :
    (bodyAppend type s).reached.blk.inCount = sat32 s.inp.bytes.length := by
  unfold bodyAppend
  rw [if_neg (by simp [h])]
  refine readInput_inCount fun d u => ?_
  split
  · rfl
  · exact replaceStore_inCount fun _ => rfl

theorem bodyAppend_unnamed (type : SectionType) {s : State} (h : s.blk.nameSet = false) :
    bodyAppend type s = .aborted .nameNotSet 0 s := by
  simp only [bodyAppend, h, if_true]

theorem bodyFromBinary_inCount (x : Bool) {s : State} (h : s.blk.nameLen.toNat ≤ 8) :
    (bodyFromBinary x s).reached.blk.inCount = sat32 s.inp.bytes.length := by
  obtain ⟨n8, hn8, -⟩ := proposedName_some h
  simp only [bodyFromBinary, hn8]
  exact readInput_inCount fun d u => replaceStore_inCount fun _ => rfl

theorem bodyFromBinary_nameTooLong (x : Bool) {s : State} (h : 8 < s.blk.nameLen.toNat) :
    bodyFromBinary x s = .aborted .nameTooLong 0 s := by
  simp only [bodyFromBinary, proposedName_none h]

theorem bodyDecode_inCount (s : State) : (bodyDecode s).reached.blk.inCount = sat32 s.inp.bytes.length := by
  refine readInput_inCount fun d u => ?_
  split
  · rfl
  · exact replaceStore_inCount fun _ => rfl

theorem bodyChecksum_inCount (s : State) : (bodyChecksum s).reached.blk.inCount = sat32 s.inp.bytes.length :=
  readInput_inCount fun d u => u.blk.latchChecksum_inCount (checksum d)

theorem bodySetName_inCount (s : State) : (bodySetName s).reached.blk.inCount = s.blk.inCount := by
  unfold bodySetName; split <;> rfl

theorem bodyVerify_inCount (s : State) : (bodyVerify s).reached.blk.inCount = s.blk.inCount := by
  unfold bodyVerify; split <;> rfl

/-- A body that reaches its ReadInput counts the input, and no other writes IN_COUNT. -/
theorem bodyOf_inCount (i : Instr) (s : State) :
    (ReachesReadInput i s → (bodyOf i s).reached.blk.inCount = sat32 s.inp.bytes.length) ∧
    (¬ ReachesReadInput i s → (bodyOf i s).reached.blk.inCount = s.blk.inCount) := by
  have app : ∀ type, (s.blk.nameSet = true → (bodyAppend type s).reached.blk.inCount = sat32 s.inp.bytes.length) ∧
      (¬ s.blk.nameSet = true → (bodyAppend type s).reached.blk.inCount = s.blk.inCount) := by
    refine fun type => ⟨bodyAppend_inCount type, fun h => ?_⟩
    rw [bodyAppend_unnamed type (by simpa using h)]; rfl
  have fb : ∀ x, (s.blk.nameLen.toNat ≤ 8 → (bodyFromBinary x s).reached.blk.inCount = sat32 s.inp.bytes.length) ∧
      (¬ s.blk.nameLen.toNat ≤ 8 → (bodyFromBinary x s).reached.blk.inCount = s.blk.inCount) := by
    refine fun x => ⟨bodyFromBinary_inCount x, fun h => ?_⟩
    rw [bodyFromBinary_nameTooLong x (by omega)]; rfl
  cases i with
  | setName => simp [ReachesReadInput, bodyOf, bodySetName_inCount]
  | clear => simp [ReachesReadInput, bodyOf, bodyClear, BodyResult.reached]
  | appendData => simpa [ReachesReadInput, bodyOf] using app .data
  | appendComment => simpa [ReachesReadInput, bodyOf] using app .comment
  | appendEnd => simpa [ReachesReadInput, bodyOf] using app .end_
  | appendExec => simpa [ReachesReadInput, bodyOf] using app .exec
  | fromBinary => simpa [ReachesReadInput, bodyOf] using fb false
  | fromBinaryX => simpa [ReachesReadInput, bodyOf] using fb true
  | toBytes =>
    obtain ⟨n, hn⟩ := bodyToBytes_reached s
    simp [ReachesReadInput, bodyOf, hn]
  | decode => simp [ReachesReadInput, bodyOf, bodyDecode_inCount]
  | verify => simp [ReachesReadInput, bodyOf, bodyVerify_inCount]
  | checksum => simp [ReachesReadInput, bodyOf, bodyChecksum_inCount]
  | clrErr => simp [ReachesReadInput, bodyOf, bodyClrErr, BodyResult.reached]

/-- `finish` and `raise` both keep the IN_COUNT the body has left (R85, R103). -/
theorem endCommand_inCount (w : Word) (s : State) (r : BodyResult) : (endCommand w s r).blk.inCount = r.reached.blk.inCount := by
  cases r <;> rfl

/-- Settles O35. -/
theorem inCountTellsWhatWasRead : Obligations.InCountTellsWhatWasRead := by
  intro s t i hr h
  rw [exec_ready hr] at h
  cases h
  rw [endCommand_inCount]
  obtain ⟨hread, hskip⟩ := bodyOf_inCount i (s.withBlk s.blk.start)
  refine ⟨fun h => ?_, hskip⟩
  rw [hread h]
  exact sat32_toNat _

/-! ### Encoder-made sections (R14, R83) -/

/-- Settles O40. -/
theorem encodedSectionsAreWellFormedAndVerify : Obligations.EncodedSectionsAreWellFormedAndVerify := by
  intro n8 address d type hd
  exact ⟨sectionOf_wf hd, sectionOf_hdrOk .., sectionOf_payOk .., sectionOf_payload .., sectionOf_nameField .., sectionOf_typeByte ..⟩

end Sys2Proof.Machine
end

section
/-! Host accesses: which of them have a next state (O6), and the step of a command word placed as the next access (O5). -/

namespace Sys2Proof.Machine

/-! ### Admitted and refused accesses (R38) -/

/-- An access that is not admitted has a reason. -/
theorem exists_notAdmitted {off width : Nat} (h : ¬ (off % 4 = 0 ∧ off ≤ 0xFF ∧ width = 32)) :
    ∃ r, notAdmitted off width = some r :=
  Option.ne_none_iff_exists'.mp (mt notAdmitted_eq_none_iff.mp h)

/-- The step of a read or a write that is not admitted is refused, for the reason `notAdmitted` names. -/
theorem step_refused {s : State} {off width : Nat} {r : Refusal} {rest : List HostAccess} (hr : notAdmitted off width = some r)
    (h : s.accesses = .read off width :: rest ∨ ∃ w inp refused, s.accesses = .write off width w inp refused :: rest) :
    step s = .refused r := by
  rcases h with h | ⟨w, inp, refused, h⟩
  · simp only [step, h, performAccess, hr]
  · simp only [step, h, performAccess, hr]

theorem step_read {s : State} {off : Nat} {rest : List HostAccess} (h : s.accesses = .read off 32 :: rest) (h4 : off % 4 = 0)
    (hle : off ≤ 0xFF) : step s = .next { s with accesses := rest, reads := s.reads ++ [regRead off s.blk] } := by
  have hn : notAdmitted off 32 = none := notAdmitted_eq_none_iff.mpr ⟨h4, hle, rfl⟩
  simp only [step, h, performAccess, hn, State.recordRead, State.dropAccess, List.tail_cons]

/-- An admitted write is a command issue at offset 0 and a register write elsewhere; both answer a next state. -/
theorem step_write_next {s : State} {off : Nat} {w : Word} {inp : InStream} {refused : List Nat} {rest : List HostAccess}
    (h : s.accesses = .write off 32 w inp refused :: rest) (h4 : off % 4 = 0) (hle : off ≤ 0xFF) : ∃ t, step s = .next t := by
  by_cases h0 : off = 0
  · subst h0
    rw [step_cmd h]
    exact issue_next _ _
  · exact ⟨_, step_write h h4 hle h0⟩

/-- Settles O6. -/
theorem onlyAlignedWordAccessesAreAdmitted : Obligations.OnlyAlignedWordAccessesAreAdmitted := by
  intro s off width w inp refused rest
  refine ⟨fun h => ⟨?_, fun hn => ?_⟩, fun h => ⟨?_, fun hn => ?_⟩⟩
  · rintro ⟨h4, hle, rfl⟩
    exact step_read h h4 hle
  · obtain ⟨r, hr⟩ := exists_notAdmitted hn
    exact ⟨r, step_refused hr (.inl h)⟩
  · rintro ⟨h4, hle, rfl⟩
    exact step_write_next h h4 hle
  · obtain ⟨r, hr⟩ := exists_notAdmitted hn
    exact ⟨r, step_refused hr (.inr ⟨w, inp, refused, h⟩)⟩

/-! ### A placed command word (R46) -/

theorem issue_decoded {w : Word} {i : Instr} (h : decode w = .ok i) (s : State) : issue w s = exec i s := by
  simp only [issue, h]

theorem decode_of_decodeTableWord {nbits w : Nat} {i : Instr} (h : decodeTableWord nbits w = some i) :
    decode (tableWord nbits w) = .ok i := by
  unfold decodeTableWord at h
  cases hd : decode (tableWord nbits w) with
  | ok j => rw [hd] at h; exact congrArg Except.ok (Option.some.inj h)
  | error e => rw [hd] at h; cases h

/-- The placed access presents the inputs the state already holds, so its step issues the word from that very state. -/
theorem step_withFetchWord (s : State) (nbits w : Nat) : step (s.withFetchWord nbits w) = issue (tableWord nbits w) s :=
  step_cmd rfl

/-- Settles O5. -/
theorem fetchWordStepIsExec : Obligations.FetchWordStepIsExec := by
  intro s nbits w i h
  rw [step_withFetchWord, issue_decoded (decode_of_decodeTableWord h)]

end Sys2Proof.Machine
end

section
/-! Command words (O1, O2, O3): decode and encode are inverse, a word decodes exactly when it is legal, and every other word raises
IllegalCommand. -/

namespace Sys2Proof.Machine

/-! ### Decode and encode (R48, R49) -/

/-- The row of the opcode table holds of every instruction: legal fields, a word with exactly those fields, decoded back. -/
theorem roundTrip_statement (i : Instr) : Laws.RoundTrip.Statement i := by
  cases i
  exacts [Laws.RoundTrip.setName, Laws.RoundTrip.clear, Laws.RoundTrip.appendData, Laws.RoundTrip.appendComment,
    Laws.RoundTrip.appendEnd, Laws.RoundTrip.appendExec, Laws.RoundTrip.fromBinary, Laws.RoundTrip.fromBinaryX,
    Laws.RoundTrip.toBytes, Laws.RoundTrip.decode, Laws.RoundTrip.verify, Laws.RoundTrip.checksum, Laws.RoundTrip.clrErr]

@[simp] theorem decode_encode (i : Instr) : decode (encode i) = .ok i := (roundTrip_statement i).2.2

theorem fieldsOf_encode (i : Instr) : fieldsOf (encode i) = i.fields := (roundTrip_statement i).2.1

theorem instrFields_legal (i : Instr) : i.fields.legal = true := (roundTrip_statement i).1

/-- Settles O2: a word that decodes is packed from its fields, and every instruction's word decodes back. -/
theorem decodeAndEncodeAreInverse : Obligations.DecodeAndEncodeAreInverse := by
  intro w i
  constructor
  · exact eq_encode_of_decode
  · rintro rfl
    exact decode_encode i

/-- Settles O1: each tabulated word is its instruction's word. -/
theorem commandWordsDecodeAsTabulated : Obligations.CommandWordsDecodeAsTabulated :=
  ⟨decode_encode .setName, decode_encode .clear, decode_encode .appendData, decode_encode .appendComment, decode_encode .appendEnd,
    decode_encode .appendExec, decode_encode .fromBinary, decode_encode .fromBinaryX, decode_encode .toBytes, decode_encode .decode,
    decode_encode .verify, decode_encode .checksum, decode_encode .clrErr⟩

/-! ### Legal words (R51) -/

/-- Each of the opcodes 1..9 names an instruction, whatever TYPE and X are. -/
theorem exists_instrOfOp {op : Nat} (h : 1 ≤ op ∧ op ≤ 9) (type : Nat) (x : Bool) : ∃ i, instrOfOp op type x = some i := by
  unfold instrOfOp
  split
  case h_3 => split <;> exact ⟨_, rfl⟩
  case h_4 => split <;> exact ⟨_, rfl⟩
  case h_10 => grind
  all_goals exact ⟨_, rfl⟩

/-- The clauses of R51, one for each check of the decoder. -/
theorem cmdFields_legal_iff (f : CmdFields) :
    f.legal = true ↔ (1 ≤ f.op.toNat ∧ f.op.toNat ≤ 9) ∧ (f.type = 0 ∨ f.op = 3) ∧ (f.x = false ∨ f.op = 4) ∧ f.high = 0 := by
  simp [CmdFields.legal, CmdFields.opLegal, CmdFields.typeLegal, CmdFields.xLegal, CmdFields.highLegal, and_assoc]

/-- The decoder accepts exactly the legal words. -/
theorem exists_decode_iff_legal (w : Word) : (∃ i, decode w = .ok i) ↔ (fieldsOf w).legal = true := by
  constructor
  · rintro ⟨i, h⟩
    rw [eq_encode_of_decode h, fieldsOf_encode]
    exact instrFields_legal i
  · intro h
    obtain ⟨hop, htype, hx, hhigh⟩ := (cmdFields_legal_iff _).mp h
    obtain ⟨i, hi⟩ := exists_instrOfOp hop (fieldsOf w).type.toNat (fieldsOf w).x
    have htype' : ¬ ((fieldsOf w).type ≠ 0 ∧ (fieldsOf w).op ≠ 3) := by tauto
    have hx' : ¬ ((fieldsOf w).x = true ∧ (fieldsOf w).op ≠ 4) := by rw [← Bool.not_eq_true] at hx; tauto
    exact ⟨i, by simp only [decode, hhigh, htype', hx', hi, ne_eq, not_true_eq_false, if_false]⟩

/-- The fields of a word as numbers (R48). -/
theorem fieldsOf_legal_iff (w : Word) :
    (fieldsOf w).legal = true ↔
      (1 ≤ w.toNat % 256 ∧ w.toNat % 256 ≤ 9) ∧ (w.toNat / 256 % 4 = 0 ∨ w.toNat % 256 = 3) ∧
      (w.toNat / 1024 % 2 = 0 ∨ w.toNat % 256 = 4) ∧ w.toNat / 2048 = 0 := by
  have hop : (fieldsOf w).op.toNat = w.toNat % 256 := by simp [fieldsOf]
  have htype : (fieldsOf w).type.toNat = w.toNat / 256 % 4 := by simp [fieldsOf, Nat.shiftRight_eq_div_pow]
  have hx : (fieldsOf w).x = false ↔ w.toNat / 1024 % 2 = 0 := by
    simp [fieldsOf, BitVec.getLsbD, Nat.testBit_eq_decide_div_mod_eq]
  have hhigh : (fieldsOf w).high.toNat = w.toNat / 2048 := by
    have hw := w.isLt
    simp only [fieldsOf, BitVec.extractLsb'_toNat, Nat.shiftRight_eq_div_pow]
    omega
  simp only [cmdFields_legal_iff, hx, ← BitVec.toNat_inj, hop, htype, hhigh]
  rfl

/-! ### Illegal words (R51) -/

/-- A word that does not decode leaves a ready block with IllegalCommand latched, and nothing else changed but DONE and IN_COUNT. -/
theorem issue_illegal {w : Word} (h : ¬ ∃ i, decode w = .ok i) {s : State} (hr : s.Ready) :
    issue w s = .next (s.failedWith 8 (opField w) 0 0) := by
  cases hd : decode w with
  | ok i => exact absurd ⟨i, hd⟩ h
  | error e =>
    simp only [issue, hd, execIllegal, commandFrame_ready hr]
    rfl

theorem opField_eq_ofNat (w : Word) : opField w = BitVec.ofNat 8 (w.toNat % 256) := by
  apply BitVec.eq_of_toNat_eq
  simp [opField]

/-- Settles O3: the decoder accepts the legal words, and the frame runs what it answers. -/
theorem everyOtherWordRaisesIllegalCommand : Obligations.EveryOtherWordRaisesIllegalCommand := by
  intro s w inp refused rest h hr
  have hlegal := (exists_decode_iff_legal w).trans (fieldsOf_legal_iff w)
  rw [step_cmd h]
  refine ⟨fun hl => ?_, fun hl => ?_⟩
  · obtain ⟨i, hi⟩ := hlegal.mpr hl
    exact ⟨i, hi, issue_decoded hi _⟩
  · rw [← opField_eq_ofNat]
    exact issue_illegal (mt hlegal.mp hl) hr

end Sys2Proof.Machine
end

section
/-! The wire layout of an encoded section, offset by offset (O39). -/

namespace Sys2Proof.Machine

/-! ### The two bytes of a field (R35) -/

theorem extract_low_byte (v : Half) : v.extractLsb' 0 8 = BitVec.ofNat 8 (v.toNat % 256) := by
  apply BitVec.eq_of_toNat_eq
  simp

theorem extract_high_byte (v : Half) : v.extractLsb' 8 8 = BitVec.ofNat 8 (v.toNat / 256) := by
  apply BitVec.eq_of_toNat_eq
  simp [Nat.shiftRight_eq_div_pow]

theorem le16_eq (v : Half) : le16 v = [BitVec.ofNat 8 (v.toNat % 256), BitVec.ofNat 8 (v.toNat / 256)] := by
  rw [le16, extract_low_byte, extract_high_byte]

/-! ### Offsets of a frame (R55, R56) -/

section FrameOffsets

variable (n8 : Bytes8) (address : Half) (d : List Byte) (type : SectionType)

theorem frame_take_sync : (frame n8.toList address d type).take 16 = List.replicate 16 0xE6#8 := by
  rw [frame_eq, List.take_left' List.length_replicate]

theorem frame_getElem?_soh : (frame n8.toList address d type)[16]? = some 0x01#8 := by
  rw [frame_eq]
  rfl

/-- Everything after SOH. -/
theorem frame_drop (j : Nat) :
    (frame n8.toList address d type).drop (17 + j) = (headerRegion n8 address d.length type ++ (d ++ checksum d)).drop j :=
  sectionOf_drop n8 address d type j

/-- Bytes 17 to 30 are the header body. -/
theorem frame_getElem?_header {j : Nat} (hj : j < 14) :
    (frame n8.toList address d type)[17 + j]? = (hdrBodyBytes n8.toList address d.length type)[j]? := by
  have h := congrArg (·[j]?) (frame_drop n8 address d type 0)
  simp only [List.getElem?_drop, List.drop_zero, Nat.add_zero] at h
  rw [h, headerRegion, List.append_assoc, List.getElem?_append_left (by simpa [hdrBodyBytes_length] using hj)]

theorem frame_take_hdrCk :
    ((frame n8.toList address d type).drop 31).take 1 = checksum (hdrBodyBytes n8.toList address d.length type) := by
  have hlen : (checksum (hdrBodyBytes n8.toList address d.length type)).length = 1 := by rw [checksum_length]; rfl
  rw [frame_drop n8 address d type 14, headerRegion, List.append_assoc, List.drop_left' (hdrBodyBytes_length ..),
    List.take_left' hlen]

theorem frame_drop_payload : (frame n8.toList address d type).drop (32 + d.length) = checksum d := by
  rw [show 32 + d.length = 17 + (15 + d.length) by omega, frame_drop, ← List.append_assoc]
  exact List.drop_left' (by rw [List.length_append, headerRegion_length])

end FrameOffsets

/-- Settles O39: the header's bytes one by one, and the laws of an encoded section's fields for the rest. -/
theorem encodedSectionHasTheWireLayout : Obligations.EncodedSectionHasTheWireLayout := by
  intro n8 address d type _ w a e
  have hbody : hdrBodyBytes n8.toList address d.length type =
      n8.toList ++ [BitVec.ofNat 8 (a.toNat % 256), BitVec.ofNat 8 (a.toNat / 256), BitVec.ofNat 8 (d.length % 256),
        BitVec.ofNat 8 (e.toNat % 256), BitVec.ofNat 8 (e.toNat / 256), type.code] := by
    simp only [hdrBodyBytes, le16_eq, a, e, List.append_assoc, List.cons_append, List.nil_append]
  have header : ∀ j < 14, w[17 + j]? = (hdrBodyBytes n8.toList address d.length type)[j]? := fun _ hj =>
    frame_getElem?_header n8 address d type hj
  rw [hbody] at header
  refine ⟨frame_length n8 address d type, frame_take_sync n8 address d type, frame_getElem?_soh n8 address d type,
    sectionOf_nameField n8 address d type, header 8 (by omega), header 9 (by omega), header 10 (by omega), header 11 (by omega),
    header 12 (by omega), (header 13 (by omega)).trans (by cases type <;> rfl), ?_, sectionOf_payload n8 address d type,
    frame_drop_payload n8 address d type⟩
  exact (frame_take_hdrCk n8 address d type).trans (congrArg checksum (sectionOf_hdrBody n8 address d type).symm)

end Sys2Proof.Machine
end

section
/-! The pseudo-instruction SETNAME (O54): three register writes propose the text, and SET_NAME commits it. -/

namespace Sys2Proof.Machine

/-! ### The words NAME writes (R53) -/

theorem byteOfWord_nameWord (t : List Byte) (base : Nat) {i : Nat} (hi : i < 4) :
    byteOfWord (nameWord t base) i = t.getD (base + i) 0 := by
  refine Option.some.inj ((byteOfWord_wordOfBytes _ _ _ _ hi).trans ?_)
  match i, hi with
  | 0, _ | 1, _ | 2, _ | 3, _ => rfl

/-- The name buffer that NAME leaves, whatever stood in it before. -/
theorem nameBuf_nameWords_toList (t : List Byte) (n : Bytes8) :
    ((n.setWord0 (nameWord t 0)).setWord1 (nameWord t 4)).toList = (List.range 8).map fun i => t.getD i 0 := by
  simp [Bytes8.toList, Bytes8.setWord0, Bytes8.setWord1, byteOfWord_nameWord, List.range_succ]

theorem map_getD_range_length (t : List Byte) : ((List.range t.length).map fun i => t.getD i 0) = t := by
  apply List.ext_getElem
  · simp
  · intro i _ hi
    simp [hi]

/-- The name buffer that NAME leaves begins with the text. -/
theorem nameBuf_nameWords_take {t : List Byte} (ht : t.length ≤ 8) (n : Bytes8) :
    ((n.setWord0 (nameWord t 0)).setWord1 (nameWord t 4)).toList.take t.length = t := by
  rw [nameBuf_nameWords_toList, ← List.map_take, List.take_range, Nat.min_eq_left ht, map_getD_range_length]

/-! ### The block after NAME (R21, R53) -/

/-- The block after the three register writes of NAME. -/
def Block.proposeText (b : Block) (t : List Byte) : Block :=
  Reg.nameBuf1.write (nameWord t 4) (Reg.nameBuf0.write (nameWord t 0) (Reg.nameLen.write (BitVec.ofNat 32 t.length) b))

theorem Block.proposeText_nameLen {t : List Byte} (ht : t.length ≤ 8) (b : Block) :
    (b.proposeText t).nameLen.toNat = t.length := by
  simp only [proposeText, Reg.write, writeNameBuf1_nameLen, writeNameBuf0_nameLen, writeNameLen_nameLen, BitVec.extractLsb'_toNat,
    BitVec.toNat_ofNat]
  omega

theorem Block.proposeText_nameBuf (b : Block) (t : List Byte) :
    (b.proposeText t).nameBuf = (b.nameBuf.setWord0 (nameWord t 0)).setWord1 (nameWord t 4) := rfl

/-- The text of up to 8 bytes is the proposed name, padded (R62). -/
theorem Block.proposedName_proposeText {t : List Byte} (ht : t.length ≤ 8) (b : Block) :
    ∃ n8, (b.proposeText t).proposedName = some n8 ∧ n8.toList = t ++ List.replicate (8 - t.length) 0x20#8 := by
  have hlen := b.proposeText_nameLen ht
  obtain ⟨n8, hname, hbytes⟩ := proposedName_some (b := b.proposeText t) (by omega)
  rw [hlen, b.proposeText_nameBuf, nameBuf_nameWords_take ht] at hbytes
  exact ⟨n8, hname, hbytes⟩

/-! ### Steps -/

theorem run_succ_of_step {M : Host.Core} {s t : M.State} (h : M.step s = .next t) (k : Nat) : M.run (k + 1) s = M.run k t := by
  simp only [Host.Core.run, h]

/-- The step of a line `WR <REG>, <value>` (R52). -/
theorem run_lineWr {s : State} {r : Reg} {w : Word} {rest : List HostAccess} (h : s.accesses = lineWr r w :: rest) (hr : r ≠ .cmd)
    (hb : s.blk.busy = false) (k : Nat) :
    Host.Core.run core (k + 1) s = Host.Core.run core k { s with accesses := rest, blk := r.write w s.blk } :=
  run_succ_of_step (M := core) (step_write_reg r h hr hb) k

/-- Three steps make the accesses of NAME; none of the writes makes the block busy. -/
theorem run_lineName {s : State} {t : List Byte} {rest : List HostAccess} (hb : s.blk.busy = false)
    (h : s.accesses = lineName t ++ rest) (k : Nat) :
    Host.Core.run core (k + 3) s = Host.Core.run core k { s with accesses := rest, blk := s.blk.proposeText t } := by
  refine (run_lineWr h (by decide) hb _).trans ?_
  refine (run_lineWr (r := .nameBuf0) (by rfl) (by decide) (by exact hb) _).trans ?_
  exact run_lineWr (r := .nameBuf1) (by rfl) (by decide) (by exact hb) _

/-- The step of SET_NAME on a ready block with a proposed name (R63). -/
theorem step_setName {s : State} {n8 : Bytes8} {rest : List HostAccess} (hr : s.Ready) (hname : s.blk.proposedName = some n8)
    (h : s.accesses = lineCmd .setName :: rest) :
    step s = .next { s with accesses := rest, inp := InStream.empty, sinkRefuses := [],
                            blk := (s.blk.start.commitName n8).finish } := by
  have hstart : s.blk.start.proposedName = some n8 := hname
  rw [step_cmd h, issue_decoded (decode_encode .setName), exec_ready (by exact hr)]
  simp only [bodyOf, bodySetName, State.withBlk_blk, hstart]
  rfl

/-- Settles O54: NAME proposes the text, and the step of SET_NAME commits it. -/
theorem setNamePseudoInstructionCommitsTheText : Obligations.SetNamePseudoInstructionCommitsTheText := by
  intro s text rest hr htext h
  obtain ⟨n8, hname, hbytes⟩ := s.blk.proposedName_proposeText htext
  rw [lineSetName, List.append_assoc] at h
  refine ⟨_, (run_lineName hr.1 h 1).trans (run_succ_of_step (M := core) (step_setName ?_ hname rfl) 0), rfl, hbytes, rfl, rfl, ?_, rfl⟩
  · exact hr
  · exact hr.2

end Sys2Proof.Machine
end

section
/-! The checksum unit: the law of R59 (O37), what the checksum sees of a sequence (O38), the command CHECKSUM (O21), and the
operands that every command keeps (O30). -/

namespace Sys2Proof.Machine

/-! ### The checksum (R58, R59, R60) -/

/-- Settles O37. -/
theorem checksumMakesTheSumZero : Obligations.ChecksumMakesTheSumZero := by
  refine ⟨fun s hs => ?_, checksum_nil⟩
  have hc := checksum_of_ne_nil hs
  exact ⟨_, hc, checksum_law hc.symm⟩

theorem checksum_eq_nil_iff (s : List Byte) : checksum s = [] ↔ s = [] := by
  refine ⟨fun h => ?_, fun h => h ▸ checksum_nil⟩
  by_contra hs
  simp [checksum_of_ne_nil hs] at h

/-- The checksum is the negated sum modulo 256, so it determines the sum and nothing more. -/
theorem checksum_eq_iff {s t : List Byte} (hs : s ≠ []) (ht : t ≠ []) :
    checksum s = checksum t ↔ sumBytes s % 256 = sumBytes t % 256 := by
  simp only [checksum_of_ne_nil hs, checksum_of_ne_nil ht, List.cons.injEq, and_true, ← BitVec.toNat_inj, BitVec.toNat_ofNat]
  omega

theorem sumBytes_perm {s t : List Byte} (h : s.Perm t) : sumBytes s = sumBytes t := (h.map BitVec.toNat).sum_eq

theorem sumBytes_replicate (n : Nat) (b : Byte) : sumBytes (List.replicate n b) = n * b.toNat := by simp [sumBytes]

theorem checksum_perm {s t : List Byte} (h : s.Perm t) : checksum s = checksum t := by
  by_cases hs : s = []
  · subst hs
    rw [h.nil_eq]
  · have ht : t ≠ [] := fun ht => hs (by subst ht; exact h.eq_nil)
    rw [checksum_eq_iff hs ht, sumBytes_perm h]

/-- Zero bytes are not seen, but in the empty sequence. -/
theorem checksum_append_zeros {s : List Byte} (hs : s ≠ []) (n : Nat) : checksum (s ++ List.replicate n 0) = checksum s := by
  rw [checksum_eq_iff (by simp [hs]) hs, sumBytes_append, sumBytes_replicate]
  simp

/-- Two bytes that differ do so modulo 256, and no other byte makes up for it. -/
theorem checksum_ne_of_byte_ne (p q : List Byte) {b c : Byte} (h : b ≠ c) : checksum (p ++ b :: q) ≠ checksum (p ++ c :: q) := by
  have hbc : b.toNat ≠ c.toNat := mt BitVec.eq_of_toNat_eq h
  have hb := b.isLt
  have hc := c.isLt
  rw [ne_eq, checksum_eq_iff (by simp) (by simp)]
  simp only [sumBytes_append, sumBytes_cons]
  omega

/-- Settles O38: all but the examples follows from how the sum modulo 256 behaves. -/
theorem checksumSeesTheSumAndEverySingleChange : Obligations.ChecksumSeesTheSumAndEverySingleChange := by
  refine ⟨checksum_eq_nil_iff, fun s t hs ht => checksum_eq_iff hs ht, fun s t h => checksum_perm h,
    fun s hs => checksum_append_zeros hs 256, fun p q b c h => checksum_ne_of_byte_ne p q h, by decide, by decide, by decide, ?_,
    by decide, by decide, by decide⟩
  exact checksum_append_zeros (s := [0]) (by simp) 187

/-! ### How a command on a ready block ends (R84, R85, R103) -/

/-- `finish` sets DONE; BUSY is again 0, as it was before. -/
theorem exec_finished {s u : State} {i : Instr} (hr : s.Ready) (h : bodyOf i (s.withBlk s.blk.start) = .finished u) :
    exec i s = .next { u with blk := { u.blk with done := true, busy := s.blk.busy } } := by
  rw [exec_ready hr, h, hr.1]
  rfl

theorem exec_aborted {s u : State} {i : Instr} {e : CmdError} {off : Nat} (hr : s.Ready)
    (h : bodyOf i (s.withBlk s.blk.start) = .aborted e off u) :
    exec i s = .next { s.failedWith e.code (opField (encode i)) off u.blk.inCount with out := u.out } := by
  rw [exec_ready hr, h]
  rfl

/-! ### CHECKSUM (R61) -/

theorem latchChecksum_checksum (b : Block) (d : List Byte) :
    b.latchChecksum (checksum d) =
      { b with ckEmpty := decide (d = []), ckValue := if d = [] then 0 else BitVec.ofNat 8 ((256 - sumBytes d % 256) % 256) } := by
  by_cases hd : d = []
  · subst hd
    rfl
  · simp only [checksum_of_ne_nil hd, Block.latchChecksum, hd, decide_false, if_false]

theorem bodyChecksum_ok {s : State} (h : s.inp.fails = false) :
    bodyChecksum s =
      .finished (s.withBlk ((s.blk.countInput s.inp.bytes.length).latchChecksum (checksum s.inp.bytes))) :=
  readInput_ok h _

theorem bodyChecksum_fails {s : State} (h : s.inp.fails = true) :
    bodyChecksum s =
      .aborted .sourceReadFailure s.inp.bytes.length (s.withBlk (s.blk.countInput s.inp.bytes.length)) :=
  readInput_fails h _

/-- Settles O21: the body reads the whole input or fails, and the frame ends it. -/
theorem checksumLatchesTheInputsChecksum : Obligations.ChecksumLatchesTheInputsChecksum := by
  refine ⟨rfl, fun s hr => ⟨fun hok => ?_, fun hfail => ?_⟩⟩
  · have hbody := bodyChecksum_ok (s := s.withBlk s.blk.start) hok
    rw [latchChecksum_checksum] at hbody
    exact exec_finished (i := .checksum) hr hbody
  · exact exec_aborted (i := .checksum) hr (bodyChecksum_fails hfail)

/-! ### The operands -/

/-- Neither the start nor the end of a command writes an operand: `finish` sets status flags, and `raise` goes back to the
snapshot. -/
theorem endCommand_sameOperands {s : State} {r : BodyResult} (h : SameOperands (s.withBlk s.blk.start) r.reached) (w : Word) :
    SameOperands s (endCommand w s r) := by
  cases r with
  | finished u => exact ⟨h.nameLen, h.nameBuf, h.addr, h.execAddr, h.secSel, h.capacity, h.reads, h.inp, h.sinkRefuses, h.accesses⟩
  | aborted e off u => exact ⟨rfl, rfl, rfl, rfl, rfl, rfl, rfl, rfl, rfl, rfl⟩

theorem exec_sameOperands {i : Instr} {s t : State} (h : exec i s = .next t) : SameOperands s t := by
  rcases exec_cases h with ⟨rfl, -⟩ | ⟨-, -, rfl⟩
  · exact .refl _
  · exact endCommand_sameOperands (bodyOf_sameOperands i _) _

/-- Settles O30. -/
theorem commandsKeepTheOperandRegisters : Obligations.CommandsKeepTheOperandRegisters := by
  intro i s t h
  obtain ⟨hlen, hbuf, haddr, hexec, hsel, hcap, hreads, hinp, hsink, hacc⟩ := exec_sameOperands h
  obtain ⟨beats, hout, hnil, -⟩ := exec_out h
  refine ⟨hlen, hbuf, haddr, hexec, hsel, hcap, hreads, hinp, hsink, hacc, fun hi => ?_⟩
  rw [hout, hnil hi, List.append_nil]

end Sys2Proof.Machine
end

section
/-! The section encoder's commands: SET_NAME (O22) and the four APPEND_SECTION commands (O23). -/

namespace Sys2Proof.Machine

/-! ### SET_NAME (R63) -/

theorem bodySetName_commits {s : State} {n8 : Bytes8} (h : s.blk.proposedName = some n8) :
    bodySetName s = .finished (s.withBlk (s.blk.commitName n8)) := by
  simp only [bodySetName, h]

theorem bodySetName_nameTooLong {s : State} (h : 8 < s.blk.nameLen.toNat) : bodySetName s = .aborted .nameTooLong 0 s := by
  simp only [bodySetName, proposedName_none h]

/-- Settles O22: the body commits the proposed name or there is none, and the frame ends it. -/
theorem setNameCommitsThePaddedName : Obligations.SetNameCommitsThePaddedName := by
  refine ⟨rfl, fun s hr => ⟨fun hshort => ?_, fun hlong => ?_⟩⟩
  · obtain ⟨n8, hname, hbytes⟩ := proposedName_some hshort
    exact ⟨n8, hbytes, exec_finished (i := .setName) hr (bodySetName_commits hname)⟩
  · exact exec_aborted (i := .setName) hr (bodySetName_nameTooLong hlong)

/-! ### The encoder's limit of 256 payload bytes (R65) -/

theorem encodeSection_some {d : List Byte} (h : d.length ≤ 256) (n8 : List Byte) (address : Half) (type : SectionType) :
    encodeSection n8 address d type = some (frame n8 address d type) :=
  if_neg (Nat.not_lt.mpr h)

theorem encodeSection_none {d : List Byte} (h : 256 < d.length) (n8 : List Byte) (address : Half) (type : SectionType) :
    encodeSection n8 address d type = none :=
  if_pos h

/-! ### APPEND_SECTION (R67) -/

/-- What the four APPEND_SECTION rows share: one body for each type, and the OP field an error records (R48, R67). -/
theorem appendCommand_body {i : Instr} {type : SectionType}
    (h : (i, type) ∈ [(Instr.appendData, SectionType.data), (Instr.appendComment, SectionType.comment),
      (Instr.appendEnd, SectionType.end_), (Instr.appendExec, SectionType.exec)]) :
    bodyOf i = bodyAppend type ∧ opField (encode i) = 0x03 := by
  simp only [List.mem_cons, Prod.mk.injEq, List.not_mem_nil, or_false] at h
  rcases h with ⟨rfl, rfl⟩ | ⟨rfl, rfl⟩ | ⟨rfl, rfl⟩ | ⟨rfl, rfl⟩ <;> exact ⟨rfl, rfl⟩

section BodyAppend

variable {s : State} (type : SectionType) (hname : s.blk.nameSet = true)
include hname

theorem bodyAppend_fails (hfail : s.inp.fails = true) :
    bodyAppend type s =
      .aborted .sourceReadFailure s.inp.bytes.length (s.withBlk (s.blk.countInput s.inp.bytes.length)) := by
  rw [bodyAppend, if_neg (by simp [hname]), readInput_fails hfail]

variable (hok : s.inp.fails = false)
include hok

theorem bodyAppend_payloadTooLong (hlen : 256 < s.inp.bytes.length) :
    bodyAppend type s = .aborted .payloadTooLong 256 (s.withBlk (s.blk.countInput s.inp.bytes.length)) := by
  rw [bodyAppend, if_neg (by simp [hname]), readInput_ok hok, encodeSection_none hlen]

variable (hlen : s.inp.bytes.length ≤ 256)
include hlen

/-- A payload within the encoder's limit leaves only the capacity to be checked. -/
theorem bodyAppend_encoded :
    bodyAppend type s = replaceStore (s.withBlk (s.blk.countInput s.inp.bytes.length))
      (s.blk.store ++ [sectionOf s.blk.name.toList s.blk.addr s.inp.bytes type]) id := by
  rw [bodyAppend, if_neg (by simp [hname]), readInput_ok hok, encodeSection_some hlen]
  rfl

theorem bodyAppend_fits
    (hcap : total s.blk.store + (frame s.blk.name.toList s.blk.addr s.inp.bytes type).length ≤ s.capacity) :
    bodyAppend type s = .finished (s.withBlk ((s.blk.countInput s.inp.bytes.length).setStore
      (s.blk.store ++ [sectionOf s.blk.name.toList s.blk.addr s.inp.bytes type]))) := by
  rw [bodyAppend_encoded type hname hok hlen, replaceStore_fits (by simpa [sectionOf] using hcap)]
  rfl

theorem bodyAppend_overflows
    (hcap : s.capacity < total s.blk.store + (frame s.blk.name.toList s.blk.addr s.inp.bytes type).length) :
    bodyAppend type s = .aborted .storeOverflow 0 (s.withBlk (s.blk.countInput s.inp.bytes.length)) := by
  rw [bodyAppend_encoded type hname hok hlen, replaceStore_overflows (by simpa [sectionOf] using hcap)]

end BodyAppend

/-- An APPEND_SECTION command whose body aborts with no beat offered leaves R103's state, with OP = 0x03. -/
theorem exec_append_aborted {s u : State} {i : Instr} {type : SectionType} {e : CmdError} {off : Nat} (hr : s.Ready)
    (hi : bodyOf i = bodyAppend type ∧ opField (encode i) = 0x03)
    (h : bodyAppend type (s.withBlk s.blk.start) = .aborted e off u) (hout : u.out = s.out) :
    exec i s = .next (s.failedWith e.code 0x03 off u.blk.inCount) := by
  obtain ⟨hbody, hop⟩ := hi
  rw [exec_aborted hr (hbody ▸ h), hop, hout]
  rfl

/-- Settles O23: the body's outcomes in the order of R67, each ended by the frame. -/
theorem appendSectionAppendsTheEncodedSection : Obligations.AppendSectionAppendsTheEncodedSection := by
  refine ⟨rfl, fun s i type hr hmem => ?_⟩
  have hi := appendCommand_body hmem
  refine ⟨fun hname hok hlen hcap => ?_, fun hname => ?_, fun hname hfail => ?_, fun hname hok hlen => ?_,
    fun hname hok hlen hcap => ?_⟩
  · have hbody := bodyAppend_fits (s := s.withBlk s.blk.start) type hname hok hlen hcap
    rw [← hi.1] at hbody
    exact exec_finished hr hbody
  · exact exec_append_aborted hr hi (bodyAppend_unnamed type hname) rfl
  · exact exec_append_aborted hr hi (bodyAppend_fails type hname hfail) rfl
  · exact exec_append_aborted hr hi (bodyAppend_payloadTooLong type hname hok hlen) rfl
  · exact exec_append_aborted hr hi (bodyAppend_overflows type hname hok hlen hcap) rfl

end Sys2Proof.Machine
end

section
/-! The program a binary becomes (R69 to R72): the terminator that ends it (O43), its section lengths (O41), and the texts, chunks
and addresses its sections carry (O42). -/

namespace Sys2Proof.Machine

/-! ### The terminator and the shape of a program (R70, R71) -/

/-- Both terminators are encoded sections with no payload; they differ in the type and in the address they carry. -/
theorem terminator_eq_sectionOf (n8 : List Byte) (x : Bool) (e : Half) :
    terminator n8 x e = sectionOf n8 (if x then e else 0) [] (if x then .exec else .end_) := by
  cases x <;> rfl

theorem terminator_typeByte (n8 : Bytes8) (x : Bool) (e : Half) :
    (terminator n8.toList x e).typeByte = if x then 3 else 2 := by
  rw [terminator_eq_sectionOf, sectionOf_typeByte]
  cases x <;> rfl

theorem terminator_payload (n8 : Bytes8) (x : Bool) (e : Half) : (terminator n8.toList x e).payload = [] := by
  rw [terminator_eq_sectionOf, sectionOf_payload]

theorem terminator_wireLength (n8 : Bytes8) (x : Bool) (e : Half) : (terminator n8.toList x e).wire.length = 32 := by
  rw [terminator_eq_sectionOf]
  exact frame_length n8 _ [] _

/-- The sections before the terminator: the start comment, the data sections, the end comment. -/
def programFront (n8 : List Byte) (address : Half) (d : List Byte) : List Section :=
  sectionOf n8 0 Config.startText .comment :: dataSections n8 address d ++ [sectionOf n8 0 Config.endText .comment]

theorem program_eq_front (n8 : List Byte) (address : Half) (x : Bool) (e : Half) (d : List Byte) :
    program n8 address x e d = programFront n8 address d ++ [terminator n8 x e] := rfl

theorem programFront_typeBytes (n8 : Bytes8) (address : Half) (d : List Byte) :
    (programFront n8.toList address d).map (fun sec => sec.typeByte) =
      0x01#8 :: List.replicate ((d.length + 255) / 256) 0x00#8 ++ [0x01#8] := by
  simp [programFront, dataSections_typeBytes, sectionOf_typeByte, SectionType.code]

theorem programFront_payloads (n8 : Bytes8) (address : Half) (d : List Byte) :
    (programFront n8.toList address d).map (fun sec => sec.payload) = Config.startText :: chunks d ++ [Config.endText] := by
  simp [programFront, dataSections_payloads, sectionOf_payload]

/-- No section before the terminator has a terminator's type. -/
theorem programFront_no_terminator {n8 : Bytes8} {address : Half} {d : List Byte} {sec : Section}
    (h : sec ∈ programFront n8.toList address d) : ¬ (sec.typeByte == 2#8 || sec.typeByte == 3#8) = true := by
  have hmem := List.mem_map_of_mem (f := fun sec : Section => sec.typeByte) h
  have htype : sec.typeByte = 0x01#8 ∨ sec.typeByte = 0x00#8 := by
    simp only [programFront_typeBytes, List.cons_append, List.mem_cons, List.mem_append, List.mem_replicate, List.not_mem_nil,
      or_false] at hmem
    tauto
  rcases htype with hcomment | hdata
  · simp [hcomment]
  · simp [hdata]

/-- Settles O43: the terminator is the last section, and no section before it has a terminator's type. -/
theorem programEndsWithExactlyOneTerminator : Obligations.ProgramEndsWithExactlyOneTerminator := by
  intro n8 address x e d
  refine ⟨terminator n8.toList x e, ?_, ?_, terminator_typeByte n8 x e, ?_, ?_, ?_, terminator_wireLength n8 x e⟩
  · rw [program_eq_front, List.filter_append, List.filter_eq_nil_iff.mpr fun sec => programFront_no_terminator, List.nil_append,
      List.filter_singleton, terminator_typeByte]
    cases x <;> rfl
  · rw [program_eq_front, List.getLast?_concat]
  · rw [terminator_eq_sectionOf, sectionOf_addrField]
    cases x <;> rfl
  · rw [terminator_eq_sectionOf, sectionOf_execField]
    cases x <;> rfl
  · rw [terminator_eq_sectionOf]
    rfl

/-! ### Lengths (R72) -/

theorem program_length (n8 : List Byte) (address : Half) (x : Bool) (e : Half) (d : List Byte) :
    (program n8 address x e d).length = 3 + (d.length + 255) / 256 := by
  simp only [program, List.length_append, List.length_singleton, dataSections_length]
  omega

theorem program_wireLengths (n8 : Bytes8) (address : Half) (x : Bool) (e : Half) (d : List Byte) :
    (program n8.toList address x e d).map (fun sec => sec.wire.length) =
      [46] ++ List.replicate (d.length / 256) 289 ++ (if d.length % 256 > 0 then [33 + d.length % 256] else []) ++ [44, 32] := by
  have hstart : (sectionOf n8.toList 0 Config.startText .comment).wire.length = 46 := frame_length n8 0 _ _
  have hend : (sectionOf n8.toList 0 Config.endText .comment).wire.length = 44 := frame_length n8 0 _ _
  simp only [program, List.map_append, List.map_cons, List.map_nil, hstart, hend, terminator_wireLength,
    dataSections_wireLengths, chunks_wireLengths, List.append_assoc, List.cons_append, List.nil_append]

/-- Settles O41: the image's length is the sum of the sections' lengths. -/
theorem programHasTheStatedSectionLengths : Obligations.ProgramHasTheStatedSectionLengths := by
  intro n8 address x e d
  refine ⟨program_length _ address x e d, program_wireLengths n8 address x e d, ?_⟩
  rw [tapeImage_length, total, program_wireLengths]
  split <;> simp <;> omega

/-! ### Contents (R69, R70) -/

theorem program_nameField {n8 : Bytes8} {address : Half} {x : Bool} {e : Half} {d : List Byte} {sec : Section}
    (h : sec ∈ program n8.toList address x e d) : sec.nameField = n8.toList := by
  obtain ⟨a, c, type, rfl, -⟩ := program_mem h
  exact sectionOf_nameField n8 a c type

/-- Section `1 + i` of a program is Data section `i`. -/
theorem program_getElem?_data (n8 : Bytes8) (address : Half) (x : Bool) (e : Half) {d : List Byte} {i : Nat}
    (hi : i < (d.length + 255) / 256) :
    (program n8.toList address x e d)[1 + i]? =
      some (sectionOf n8.toList (address + BitVec.ofNat 16 (256 * i)) ((d.drop (256 * i)).take 256) .data) := by
  rw [← dataSections_getElem? n8 address d i hi, Nat.add_comm 1 i]
  simp only [program, List.append_assoc, List.cons_append, List.nil_append, List.getElem?_cons_succ]
  exact List.getElem?_append_left (by rwa [dataSections_length])

/-- Settles O42. -/
theorem programCarriesTheBinaryAtRisingAddresses : Obligations.ProgramCarriesTheBinaryAtRisingAddresses := by
  intro n8 address x e d
  refine ⟨?_, ?_, fun i hi => ?_, fun sec => program_nameField⟩
  · rw [program_eq_front, List.map_append, programFront_typeBytes, List.map_singleton, terminator_typeByte]
    rfl
  · simp [program_eq_front, programFront_payloads, terminator_payload, chunks_flatten]
  · refine ⟨_, program_getElem?_data n8 address x e hi, sectionOf_payload .., ?_⟩
    simp [sectionOf_addrField]

end Sys2Proof.Machine
end

section
/-! The commands on the whole store: CLEAR (O24), FROM_BINARY (O25) and TO_BYTES (O26). -/

namespace Sys2Proof.Machine

/-! ### CLEAR (R68) -/

/-- Settles O24: the body has one outcome, and `finish` ends it. -/
theorem clearEmptiesTheStore : Obligations.ClearEmptiesTheStore :=
  ⟨rfl, fun _ hr => exec_finished (i := .clear) hr rfl⟩

/-! ### FROM_BINARY (R73) -/

/-- What the two FROM_BINARY rows share: one body for each value of X, and the OP field an error records (R48, R73). -/
theorem fromBinaryCommand_body {i : Instr} {x : Bool} (h : (i, x) ∈ [(Instr.fromBinary, false), (Instr.fromBinaryX, true)]) :
    bodyOf i = bodyFromBinary x ∧ opField (encode i) = 0x04 := by
  simp only [List.mem_cons, Prod.mk.injEq, List.not_mem_nil, or_false] at h
  rcases h with ⟨rfl, rfl⟩ | ⟨rfl, rfl⟩ <;> exact ⟨rfl, rfl⟩

section BodyFromBinary

variable {s : State} {n8 : Bytes8} (x : Bool) (hname : s.blk.proposedName = some n8)
include hname

theorem bodyFromBinary_fails (hfail : s.inp.fails = true) :
    bodyFromBinary x s =
      .aborted .sourceReadFailure s.inp.bytes.length (s.withBlk (s.blk.countInput s.inp.bytes.length)) := by
  simp only [bodyFromBinary, hname, readInput_fails hfail]

variable (hok : s.inp.fails = false)
include hok

theorem bodyFromBinary_fits (hcap : total (program n8.toList s.blk.addr x s.blk.execAddr s.inp.bytes) ≤ s.capacity) :
    bodyFromBinary x s = .finished (s.withBlk (((s.blk.countInput s.inp.bytes.length).setStore
      (program n8.toList s.blk.addr x s.blk.execAddr s.inp.bytes)).commitName n8)) := by
  simp only [bodyFromBinary, hname, readInput_ok hok]
  exact replaceStore_fits (s := s.withBlk (s.blk.countInput s.inp.bytes.length)) hcap _

theorem bodyFromBinary_overflows (hcap : s.capacity < total (program n8.toList s.blk.addr x s.blk.execAddr s.inp.bytes)) :
    bodyFromBinary x s = .aborted .storeOverflow 0 (s.withBlk (s.blk.countInput s.inp.bytes.length)) := by
  simp only [bodyFromBinary, hname, readInput_ok hok]
  exact replaceStore_overflows (s := s.withBlk (s.blk.countInput s.inp.bytes.length)) hcap _

end BodyFromBinary

/-- A FROM_BINARY command whose body aborts with no beat offered leaves R103's state, with OP = 0x04. -/
theorem exec_fromBinary_aborted {s u : State} {i : Instr} {x : Bool} {e : CmdError} {off : Nat} (hr : s.Ready)
    (hi : bodyOf i = bodyFromBinary x ∧ opField (encode i) = 0x04)
    (h : bodyFromBinary x (s.withBlk s.blk.start) = .aborted e off u) (hout : u.out = s.out) :
    exec i s = .next (s.failedWith e.code 0x04 off u.blk.inCount) := by
  obtain ⟨hbody, hop⟩ := hi
  rw [exec_aborted hr (hbody ▸ h), hop, hout]
  rfl

/-- Settles O25: the body's outcomes in the order of R73, each ended by the frame. -/
theorem fromBinaryReplacesTheStoreByTheProgram : Obligations.FromBinaryReplacesTheStoreByTheProgram := by
  refine ⟨rfl, rfl, fun s i x hr hmem => ?_⟩
  have hi := fromBinaryCommand_body hmem
  refine ⟨fun hshort => ?_, fun hlong => exec_fromBinary_aborted hr hi (bodyFromBinary_nameTooLong x hlong) rfl⟩
  obtain ⟨n8, hname, hbytes⟩ := proposedName_some hshort
  refine ⟨n8, hbytes, fun hok hcap => ?_, fun hfail => ?_, fun hok hcap => ?_⟩
  · have hbody := bodyFromBinary_fits (s := s.withBlk s.blk.start) x hname hok hcap
    rw [← hi.1] at hbody
    exact exec_finished hr hbody
  · exact exec_fromBinary_aborted hr hi (bodyFromBinary_fails x hname hfail) rfl
  · exact exec_fromBinary_aborted hr hi (bodyFromBinary_overflows x hname hok hcap) rfl

/-! ### TO_BYTES (R74) -/

theorem State.sinkOk_eq_true_iff (s : State) (k : Nat) : s.sinkOk k = true ↔ k ∉ s.sinkRefuses := by simp [State.sinkOk]

theorem State.sinkOk_eq_false_iff (s : State) (k : Nat) : s.sinkOk k = false ↔ k ∈ s.sinkRefuses := by simp [State.sinkOk]

theorem storeBeats_eq_mapIdx (S : List Section) :
    storeBeats S = S.flatMap fun sec =>
      sec.wire.mapIdx fun i b => { data := b, sos := i == 0, eos := i + 1 == sec.wire.length } := by
  simp only [storeBeats, funext sectionBeats_eq_mapIdx]

theorem bodyToBytes_accepts {s : State} (h : ∀ k, k < (storeBeats s.blk.store).length → k ∉ s.sinkRefuses) :
    bodyToBytes s = .finished { s with out := s.out ++ storeBeats s.blk.store } :=
  outWriteAll_accepts _ 0 s fun j hj => by simpa [State.sinkOk_eq_true_iff] using h j hj

theorem bodyToBytes_refuses {s : State} {k : Nat} (hk : k < (storeBeats s.blk.store).length) (hrefused : k ∈ s.sinkRefuses)
    (hfirst : ∀ j, j < k → j ∉ s.sinkRefuses) :
    bodyToBytes s = .aborted .sinkWriteFailure k { s with out := s.out ++ (storeBeats s.blk.store).take k } := by
  have hbody := outWriteAll_refuses (storeBeats s.blk.store) 0 k s hk
    (fun j hj => by simpa [State.sinkOk_eq_true_iff] using hfirst j hj) (by simpa [State.sinkOk_eq_false_iff] using hrefused)
  rwa [Nat.zero_add] at hbody

/-- Settles O26: the sink takes every beat or refuses a first one, and the frame ends the command. -/
theorem toBytesEmitsTheStoreBeatByBeat : Obligations.ToBytesEmitsTheStoreBeatByBeat := by
  refine ⟨rfl, fun s hr => ?_⟩
  rw [← storeBeats_eq_mapIdx]
  exact ⟨fun h => exec_finished (i := .toBytes) hr (bodyToBytes_accepts (s := s.withBlk s.blk.start) h),
    fun k hk hrefused hfirst =>
      exec_aborted (i := .toBytes) hr (bodyToBytes_refuses (s := s.withBlk s.blk.start) hk hrefused hfirst)⟩

end Sys2Proof.Machine
end

section
/-! The stream parser: what it accepts (O44, O45, O46), where it refuses (O47, O48), and which images do not come back (O49). -/

namespace Sys2Proof.Machine

/-! ### Logical lengths and safe sections (R75, R80) -/

/-- Settles O44: the length byte 0 is read by the type byte, and every other one as it stands. -/
theorem logicalLengthFollowsLengthAndTypeByte : Obligations.LogicalLengthFollowsLengthAndTypeByte := by
  intro lb ty
  have hlb : lb ≠ 0 ↔ ¬ lb.toNat = 0 := not_congr BitVec.toNat_inj.symm
  have hty : (ty = SectionType.end_.code ∨ ty = SectionType.exec.code) ↔ (ty.toNat = 2 ∨ ty.toNat = 3) :=
    or_congr BitVec.toNat_inj.symm BitVec.toNat_inj.symm
  simp only [loglen, hlb, hty, ite_not]

theorem Section.roundTripSafe_iff (sec : Section) : sec.roundTripSafe = true ↔ loglen sec.lenByte sec.typeByte = sec.payLen :=
  beq_iff_eq

/-- Settles O46: the loop's answer is an image of safe sections, and the loop runs through every such image. -/
theorem parseSucceedsExactlyOnSafeImages : Obligations.ParseSucceedsExactlyOnSafeImages := by
  intro buf S
  constructor
  · exact parseLoop_ok _ _ _ _
  · rintro ⟨rfl, hS⟩
    exact parse_image hS

theorem parse_ok_safe {buf : List Byte} {S : List Section} (h : parse buf = .ok S) :
    ∀ sec ∈ S, sec.wf = true ∧ sec.roundTripSafe = true :=
  ((parseSucceedsExactlyOnSafeImages buf S).mp h).2

/-- STORE_BYTES after a parse is the length of what was parsed (R79). -/
theorem total_of_parse_ok {buf : List Byte} {S : List Section} (h : parse buf = .ok S) : total S = buf.length := by
  rw [← tapeImage_length, ((parseSucceedsExactlyOnSafeImages buf S).mp h).1]

/-- Settles O45. -/
theorem roundTripSafeSections : Obligations.RoundTripSafeSections := by
  refine ⟨fun buf S h sec hsec => ?_, fun n8 address d type hd => ?_, fun n8 address x e d sec hsec => ?_⟩
  · exact sec.roundTripSafe_iff.mp (parse_ok_safe h sec hsec).2
  · exact (Section.roundTripSafe_iff _).symm.trans (sectionOf_roundTripSafe_iff hd)
  · exact sec.roundTripSafe_iff.mp (program_safe sec hsec).2

/-! ### Truncation and noise (R78) -/

/-- Settles O47: the turn behind the image is the one that meets the cut. -/
theorem cutSectionIsTruncated : Obligations.CutSectionIsTruncated := by
  intro S sec n hS hwf hsafe h0 hn
  have hne : sec.wire.take n ≠ [] := by simp [sec.wire_ne_nil hwf, Nat.ne_of_gt h0]
  exact parse_error_after_image hS hne (parseOne_cut hwf hsafe _ h0 hn)

/-- Settles O48: with no sync byte the turn refuses its first byte, and behind a sync run the byte that is not SOH. -/
theorem noiseIsBadFraming : Obligations.NoiseIsBadFraming := by
  intro S b k rest hS hsync hsoh
  rw [List.append_assoc]
  refine parse_error_after_image hS (by simp) ?_
  rcases Nat.eq_zero_or_pos k with rfl | hk
  · exact parseOne_no_sync _ hsync rest
  · exact parseOne_bad_soh _ hk hsync (hsoh hk) rest

/-! ### Sections that are not round-trip safe (R82) -/

/-- A length of a multiple of 256 has the length byte 0, so such a frame begins with the frame of no payload. -/
theorem frame_eq_append_of_length_mod {d : List Byte} (h : d.length % 256 = 0) (n8 : Bytes8) (address : Half)
    (type : SectionType) : frame n8.toList address d type = frame n8.toList address [] type ++ (d ++ checksum d) := by
  have hbody : hdrBodyBytes n8.toList address d.length type = hdrBodyBytes n8.toList address 0 type := by
    simp only [hdrBodyBytes, h, Nat.zero_mod]
  simp only [frame, hbody, List.length_nil, checksum_nil, List.append_nil, List.append_assoc]

theorem frame_nil_length (n8 : Bytes8) (address : Half) (type : SectionType) : (frame n8.toList address [] type).length = 32 :=
  frame_length n8 address [] type

/-- An empty Data or Comment section reads as one of 256 payload bytes cut behind its header. -/
theorem parse_frame_empty_data {type : SectionType} (h : type = .data ∨ type = .comment) (n8 : Bytes8) (address : Half) :
    parse (frame n8.toList address [] type) = .error (.truncatedSection, 0) := by
  have hlen : (List.replicate 256 (0 : Byte)).length = 256 := List.length_replicate
  have hframe := frame_eq_append_of_length_mod (d := List.replicate 256 0) (by rw [hlen]) n8 address type
  have hcut := cutSectionIsTruncated [] (sectionOf n8.toList address (List.replicate 256 0) type) 32 (by simp)
    (sectionOf_wf hlen.le) ((sectionOf_roundTripSafe_iff hlen.le).mpr (.inl ⟨h, by omega⟩)) (by omega)
    (by simp only [sectionOf, frame_length, hlen]; omega)
  simp only [sectionOf, hframe] at hcut
  rwa [List.take_left' (frame_nil_length n8 address type)] at hcut

/-- An End or Exec section of 256 payload bytes reads as an empty one with noise behind it. -/
theorem parse_frame_long_terminator {type : SectionType} (h : type = .end_ ∨ type = .exec) {b : Byte} {d : List Byte}
    (hd : d.length = 255) (hb : b ≠ 0xE6#8) (n8 : Bytes8) (address : Half) :
    parse (frame n8.toList address (b :: d) type) = .error (.badFraming, 32) := by
  have hsafe : ∀ x ∈ [sectionOf n8.toList address [] type], x.wf = true ∧ x.roundTripSafe = true := by
    simp only [List.forall_mem_singleton]
    exact ⟨sectionOf_wf (by simp), (sectionOf_roundTripSafe_iff (by simp)).mpr (.inr ⟨h, by simp⟩)⟩
  have hnoise := noiseIsBadFraming _ b 0 (d ++ checksum (b :: d)) hsafe hb (by simp)
  rw [frame_eq_append_of_length_mod (by simp [hd])]
  simpa [sectionOf, frame_nil_length] using hnoise

/-- Settles O49: a parse answers safe sections only, and the two special images are cut and noisy ones. -/
theorem unsafeSectionsDoNotRoundTrip : Obligations.UnsafeSectionsDoNotRoundTrip := by
  intro n8 address
  refine ⟨fun S sec hsec hunsafe hparse => ?_, fun type h => parse_frame_empty_data h n8 address,
    fun type b d h hd hb => parse_frame_long_terminator h hd hb n8 address⟩
  have hsafe := (parse_ok_safe hparse sec hsec).2
  simp [hunsafe] at hsafe

end Sys2Proof.Machine
end

section
/-! VERIFY (O28) and DECODE (O27), and the round trip from the store through TO_BYTES and back (O50), from a binary too (O51). -/

namespace Sys2Proof.Machine

/-! ### The two checks (R59, R83) -/

/-- A byte is the checksum of a sequence exactly when it makes the sum 0 modulo 256. -/
theorem checksum_eq_singleton_iff {s : List Byte} (hs : s ≠ []) (c : Byte) :
    checksum s = [c] ↔ (sumBytes s + c.toNat) % 256 = 0 := by
  have hc := c.isLt
  simp only [checksum_of_ne_nil hs, List.cons.injEq, and_true, ← BitVec.toNat_inj, BitVec.toNat_ofNat]
  omega

theorem Section.hdrOk_iff (sec : Section) : sec.hdrOk = true ↔ (sumBytes sec.hdrBody + sec.hdrCk.toNat) % 256 = 0 := by
  simp only [Section.hdrOk, beq_iff_eq]

theorem Section.payOk_iff (sec : Section) :
    sec.payOk = true ↔ sec.payLen = 0 ∨ (sumBytes sec.payload + sec.payCk.toNat) % 256 = 0 := by
  simp only [Section.payOk, Bool.or_eq_true, beq_iff_eq]

theorem Section.wire_length {sec : Section} (h : sec.wf = true) :
    sec.wire.length = sec.syncLen + 16 + payloadNeed sec.payLen := by
  obtain ⟨-, -, tail, hwire, htail⟩ := (Section.wf_iff sec).mp h
  rw [hwire, List.length_append, List.length_replicate, List.length_cons, htail]
  omega

theorem Section.hdrBody_ne_nil {sec : Section} (h : sec.wf = true) : sec.hdrBody ≠ [] := by
  have hlen := sec.wire_length h
  simp only [Section.hdrBody, Config.hdrBodyBytes, ← List.length_pos_iff, List.length_take, List.length_drop]
  omega

theorem Section.payload_ne_nil {sec : Section} (h : sec.wf = true) (hp : sec.payLen > 0) : sec.payload ≠ [] := by
  have hlen := sec.wire_length h
  simp only [payloadNeed, hp, if_true] at hlen
  simp only [Section.payload, ← List.length_pos_iff, List.length_take, List.length_drop]
  omega

theorem Section.hdrOk_iff_checksum {sec : Section} (h : sec.wf = true) :
    sec.hdrOk = true ↔ checksum sec.hdrBody = [sec.hdrCk] :=
  sec.hdrOk_iff.trans (checksum_eq_singleton_iff (sec.hdrBody_ne_nil h) _).symm

theorem Section.payOk_iff_checksum {sec : Section} (h : sec.wf = true) (hp : sec.payLen > 0) :
    sec.payOk = true ↔ checksum sec.payload = [sec.payCk] := by
  rw [sec.payOk_iff, checksum_eq_singleton_iff (sec.payload_ne_nil h hp), or_iff_right (Nat.ne_of_gt hp)]

/-! ### VERIFY (R83) -/

theorem bodyVerify_selected {s : State} {sec : Section} (h : s.blk.store[s.blk.secSel.toNat]? = some sec) :
    bodyVerify s = .finished (s.withBlk (s.blk.latchVerify sec.hdrOk sec.payOk)) := by
  simp only [bodyVerify, Block.selected, h]

theorem bodyVerify_badSelect {s : State} (h : s.blk.store.length ≤ s.blk.secSel.toNat) :
    bodyVerify s = .aborted .badSelect s.blk.secSel.toNat s := by
  simp only [bodyVerify, Block.selected, List.getElem?_eq_none h]

/-- Settles O28: what the checks mean, then the body's two outcomes, each ended by the frame. -/
theorem verifyChecksTheSelectedSection : Obligations.VerifyChecksTheSelectedSection := by
  refine ⟨rfl, fun sec hwf => ⟨sec.hdrOk_iff_checksum hwf, sec.payOk_iff_checksum hwf⟩,
    fun n8 address d type _ => ⟨sectionOf_hdrOk .., sectionOf_payOk ..⟩, fun s hr => ⟨fun sec hsec => ?_, fun hnone => ?_⟩⟩
  · have hhdr : sec.hdrOk = decide ((sumBytes sec.hdrBody + sec.hdrCk.toNat) % 256 = 0) := by
      rw [Bool.eq_iff_iff, sec.hdrOk_iff, decide_eq_true_eq]
    have hpay : sec.payOk = decide (sec.payLen = 0 ∨ (sumBytes sec.payload + sec.payCk.toNat) % 256 = 0) := by
      rw [Bool.eq_iff_iff, sec.payOk_iff, decide_eq_true_eq]
    have hbody := bodyVerify_selected (s := s.withBlk s.blk.start) hsec
    rw [hhdr, hpay] at hbody
    exact exec_finished (i := .verify) hr hbody
  · exact exec_aborted (i := .verify) hr (bodyVerify_badSelect (s := s.withBlk s.blk.start) hnone)

/-! ### DECODE (R79) -/

theorem bodyDecode_fails {s : State} (hfail : s.inp.fails = true) :
    bodyDecode s =
      .aborted .sourceReadFailure s.inp.bytes.length (s.withBlk (s.blk.countInput s.inp.bytes.length)) :=
  readInput_fails hfail _

section BodyDecode

variable {s : State} (hok : s.inp.fails = false)
include hok

theorem bodyDecode_parseError {e : CmdError} {off : Nat} (hparse : parse s.inp.bytes = .error (e, off)) :
    bodyDecode s = .aborted e off (s.withBlk (s.blk.countInput s.inp.bytes.length)) := by
  simp only [bodyDecode, readInput_ok hok, hparse]

variable {S : List Section} (hparse : parse s.inp.bytes = .ok S)
include hparse

theorem bodyDecode_fits (hcap : total S ≤ s.capacity) :
    bodyDecode s = .finished (s.withBlk ((s.blk.countInput s.inp.bytes.length).setStore S)) := by
  simp only [bodyDecode, readInput_ok hok, hparse]
  exact replaceStore_fits (s := s.withBlk (s.blk.countInput s.inp.bytes.length)) hcap _

theorem bodyDecode_overflows (hcap : s.capacity < total S) :
    bodyDecode s = .aborted .storeOverflow 0 (s.withBlk (s.blk.countInput s.inp.bytes.length)) := by
  simp only [bodyDecode, readInput_ok hok, hparse]
  exact replaceStore_overflows (s := s.withBlk (s.blk.countInput s.inp.bytes.length)) hcap _

end BodyDecode

/-- DECODE of an image that fits makes its sections the store. -/
theorem exec_decode_fits {s : State} {S : List Section} (hr : s.Ready) (hok : s.inp.fails = false)
    (hparse : parse s.inp.bytes = .ok S) (hcap : total S ≤ s.capacity) :
    exec .decode s = .next { s with blk := { s.blk with
      store := S, verValid := false, done := true, inCount := sat32 s.inp.bytes.length } } :=
  exec_finished (i := .decode) hr (bodyDecode_fits (s := s.withBlk s.blk.start) hok hparse hcap)

/-- Settles O27: the body's outcomes in the order of R79, each ended by the frame. -/
theorem decodeReplacesTheStoreByTheParse : Obligations.DecodeReplacesTheStoreByTheParse := by
  refine ⟨rfl, fun s hr => ⟨fun S hok hparse hcap => ?_, fun hfail => ?_, fun e off hok hparse => ?_, fun S hok hparse hcap => ?_⟩⟩
  · exact ⟨total_of_parse_ok hparse, exec_decode_fits hr hok hparse hcap⟩
  · exact exec_aborted (i := .decode) hr (bodyDecode_fails (s := s.withBlk s.blk.start) hfail)
  · exact ⟨parse_error hparse,
      exec_aborted (i := .decode) hr (bodyDecode_parseError (s := s.withBlk s.blk.start) hok hparse)⟩
  · exact exec_aborted (i := .decode) hr (bodyDecode_overflows (s := s.withBlk s.blk.start) hok hparse hcap)

/-! ### The round trip (R81) -/

/-- A sink that refuses nothing takes the whole store. -/
theorem exec_toBytes_accepted {s : State} (hr : s.Ready) (hsink : s.sinkRefuses = []) :
    exec .toBytes s = .next { s with out := s.out ++ storeBeats s.blk.store, blk := { s.blk with done := true, inCount := 0 } } :=
  exec_finished (i := .toBytes) hr (bodyToBytes_accepts (s := s.withBlk s.blk.start) (by simp [hsink]))

/-- TO_BYTES emits the image of the store, and DECODE of those bytes makes a store of safe sections again what it was. -/
theorem exec_decode_of_toBytes {s : State} (hr : s.Ready) (hsink : s.sinkRefuses = []) (hcap : total s.blk.store ≤ s.capacity)
    (hsafe : ∀ sec ∈ s.blk.store, sec.wf = true ∧ sec.roundTripSafe = true) :
    ∃ t u, exec .toBytes s = .next t ∧
      exec .decode { t with inp := ⟨(t.out.drop s.out.length).map (fun b => b.data), false⟩ } = .next u ∧
      u.blk.err = false ∧ u.blk.done = true ∧ u.blk.store = s.blk.store ∧ u.blk.inCount = sat32 (total s.blk.store) := by
  refine ⟨_, _, exec_toBytes_accepted hr hsink, exec_decode_fits (S := s.blk.store) hr rfl ?_ hcap, hr.2, rfl, rfl, ?_⟩
  · simpa only [List.drop_left, storeBeats_data] using parse_image hsafe
  · simp only [List.drop_left, List.length_map, storeBeats_length]

/-- Settles O50: the invariant keeps the store well formed and within the capacity, so IN_COUNT is not saturated. -/
theorem decodeOfToBytesRestoresTheStore : Obligations.DecodeOfToBytesRestoresTheStore := by
  intro s hs herr hsink hsafe
  obtain ⟨t, u, ht, hu, huerr, hdone, hstore, hcount⟩ := exec_decode_of_toBytes ⟨hs.idle, herr⟩ hsink hs.withinCapacity
    fun sec hsec => ⟨hs.sections sec hsec, hsafe sec hsec⟩
  refine ⟨t, u, ht, hu, huerr, hdone, hstore, ?_⟩
  rw [hcount, sat32_toNat, Nat.min_eq_left hs.total_le]

theorem total_program (n8 : Bytes8) (address : Half) (x : Bool) (e : Half) (d : List Byte) :
    total (program n8.toList address x e d) = 122 + 289 * (d.length / 256) + (if d.length % 256 > 0 then 33 + d.length % 256 else 0) := by
  rw [← tapeImage_length]
  exact (programHasTheStatedSectionLengths n8 address x e d).2.2

/-- FROM_BINARY of an input whose program fits leaves a ready block with that program as its store. -/
theorem exec_fromBinary_fits {s : State} {i : Instr} {x : Bool} (hr : s.Ready)
    (hmem : (i, x) ∈ [(Instr.fromBinary, false), (Instr.fromBinaryX, true)]) (hname : s.blk.nameLen.toNat ≤ 8)
    (hok : s.inp.fails = false)
    (hcap : ∀ n8 : Bytes8, total (program n8.toList s.blk.addr x s.blk.execAddr s.inp.bytes) ≤ s.capacity) :
    ∃ r, exec i s = .next r ∧ r.Ready ∧
      r.blk.store = program r.blk.name.toList s.blk.addr x s.blk.execAddr s.inp.bytes := by
  obtain ⟨-, -, hfromBinary⟩ := fromBinaryReplacesTheStoreByTheProgram
  obtain ⟨n8, -, hfits, -, -⟩ := (hfromBinary s i x hr hmem).1 hname
  exact ⟨_, hfits hok (hcap n8), hr, rfl⟩

/-- Settles O51: FROM_BINARY's program fits and its sections are safe, so its round trip is that of any such store. -/
theorem fromBinaryRoundTrips : Obligations.FromBinaryRoundTrips := by
  intro s i x hs herr hok hsink hmem hname hcap
  have hfits : ∀ n8 : Bytes8, total (program n8.toList s.blk.addr x s.blk.execAddr s.inp.bytes) ≤ s.capacity := fun n8 => by
    rwa [total_program]
  obtain ⟨r, hexec, hready, hprogram⟩ := exec_fromBinary_fits ⟨hs.idle, herr⟩ hmem hname hok hfits
  have hkept := exec_sameOperands hexec
  obtain ⟨t, u, ht, hu, huerr, -, hstore, -⟩ := exec_decode_of_toBytes hready (hkept.sinkRefuses.trans hsink)
    (by rw [hprogram, hkept.capacity]; exact hfits _) (by rw [hprogram]; exact program_safe)
  exact ⟨r, t, u, hexec, hready.2, hprogram, ht, hu, huerr, hstore⟩

end Sys2Proof.Machine
end

section
/-! The command frame (O4, O15, O17, O19, O29, O34): what a busy block and a latched error drop, how a command ends without an
error, CLR_ERR, and which commands the IN stream and the sink's answers reach. -/

namespace Sys2Proof.Machine

/-! ### Issue of a decoded word (R48, R84) -/

/-- Settles O4. -/
theorem stepRunsTheDecodedCommand : Obligations.StepRunsTheDecodedCommand := by
  intro s w inp refused rest i h hw
  rw [step_cmd h, issue_decoded hw]

/-! ### A busy block (R87) -/

theorem exec_busy {s : State} (h : s.blk.busy = true) (i : Instr) : exec i s = .next s := by
  rw [exec_eq_commandFrame, commandFrame_busy h]

/-- A busy block drops every word written to CMD, legal or not. -/
theorem issue_busy {s : State} (h : s.blk.busy = true) (w : Word) : issue w s = .next s := by
  unfold issue
  split
  · exact exec_busy h _
  · exact commandFrame_busy h _ _

theorem regWrite_busy {b : Block} (h : b.busy = true) (off : Nat) (w : Word) : regWrite off w b = b := if_pos h

/-- Settles O15: at offset 0 the command frame drops the word, and at every other offset the register write is ignored. -/
theorem busyBlockIgnoresEveryWrite : Obligations.BusyBlockIgnoresEveryWrite := by
  intro s off w inp refused rest h h4 hle hbusy
  by_cases h0 : off = 0
  · subst h0
    exact ⟨_, (step_cmd h).trans (issue_busy (by exact hbusy) w), rfl, rfl⟩
  · exact ⟨_, step_write h h4 hle h0, regWrite_busy hbusy off w, rfl⟩

/-! ### The error gate (R84, R104) -/

theorem exec_gated {s : State} {i : Instr} (herr : s.blk.err = true) (hi : i ≠ .clrErr) : exec i s = .next s := by
  rw [exec_eq_commandFrame, commandFrame_gated herr (mt (encode_eq_clrErrWord_iff i).mp hi)]

/-- With an error latched every word but CLR_ERR's is dropped, legal or not. -/
theorem issue_gated {s : State} {w : Word} (herr : s.blk.err = true) (hw : w ≠ clrErrWord) : issue w s = .next s := by
  unfold issue
  split
  · rename_i i hi
    rw [eq_encode_of_decode hi] at hw
    exact exec_gated herr (mt (encode_eq_clrErrWord_iff i).mpr hw)
  · exact commandFrame_gated herr hw _

/-- Settles O17. -/
theorem errorGateDropsEveryOtherCommand : Obligations.ErrorGateDropsEveryOtherCommand := by
  intro s i herr hi
  exact exec_gated herr hi

/-- What the gate lets through on a block that is not busy runs to its end. -/
theorem exec_runs {s : State} {i : Instr} (hbusy : s.blk.busy = false) (hgate : s.blk.err = false ∨ i = .clrErr) :
    exec i s = .next (endCommand (encode i) s (bodyOf i (s.withBlk s.blk.start))) := by
  rcases hgate with herr | rfl
  · exact exec_ready ⟨hbusy, herr⟩ i
  · exact commandFrame_clrErrWord hbusy _

/-! ### The end of a command without an error (R85) -/

/-- With no error latched a sound error record is clear. -/
theorem errorRecord_clear {b : Block} (h : b.errorLatchOk = true) (herr : b.err = false) :
    b.errCode = 0 ∧ b.errOp = 0 ∧ b.errOffset = 0 := by
  simpa [Block.errorLatchOk, herr, and_assoc] using h

/-- A command that leaves ERR = 0 has ended by `finish`: `raise` latches an error (R103). -/
theorem endCommand_done {w : Word} {s : State} {r : BodyResult} (h : (endCommand w s r).blk.err = false) :
    (endCommand w s r).blk.done = true := by
  cases r with
  | finished u => rfl
  | aborted e off u => cases h

/-- Settles O19: the command ran, so it ended by `finish`, and the invariant holds of the state it left. -/
theorem successfulCommandReportsDone : Obligations.SuccessfulCommandReportsDone := by
  intro s t i hs hgate h herr
  have ht : t.Inv := exec_inv hs h
  refine ⟨?_, ht.idle, errorRecord_clear ht.errorLatch herr⟩
  rcases exec_cases h with ⟨-, hbusy | ⟨hlatched, hi⟩⟩ | ⟨-, -, rfl⟩
  · rw [hs.idle] at hbusy
    cases hbusy
  · rw [hgate.resolve_right hi] at hlatched
    cases hlatched
  · exact endCommand_done herr

/-! ### CLR_ERR (R86) -/

/-- CLR_ERR passes the gate and its body only clears the error record; the frame sets DONE and IN_COUNT. -/
theorem exec_clrErr {s : State} (h : s.blk.busy = false) :
    exec .clrErr s = .next { s with blk := { s.blk with
      err := false, errCode := 0, errOp := 0, errOffset := 0, done := true, inCount := 0 } } := by
  rw [exec_runs h (.inr rfl)]
  simp only [h]
  rfl

theorem eq_clrErr_of_opField {i : Instr} (h : (encode i).toNat % 256 = 9) : i = .clrErr := by
  revert h
  cases i <;> decide

/-- A word with OP = 0x09 decodes only if no other bit is set. -/
theorem not_decode_of_opField_clrErr {w : Word} (hop : w.toNat % 256 = 9) (hw : w ≠ clrErrWord) : ¬ ∃ i, decode w = .ok i := by
  rintro ⟨i, hi⟩
  obtain rfl := eq_encode_of_decode hi
  exact hw ((encode_eq_clrErrWord_iff i).mpr (eq_clrErr_of_opField hop))

/-- Settles O29. -/
theorem clrErrClearsTheErrorRecord : Obligations.ClrErrClearsTheErrorRecord := by
  refine ⟨rfl, fun s hbusy => ⟨exec_clrErr hbusy, fun w hop hw => ⟨fun herr => issue_gated herr hw, fun herr => ?_⟩⟩⟩
  rw [issue_illegal (not_decode_of_opField_clrErr hop hw) ⟨hbusy, herr⟩, opField_eq_ofNat, hop]
  rfl

/-! ### The inputs of a command's step (R29, R84)

Other inputs presented to a body change nothing in how it ends but the inputs themselves, as long as the inputs it does use stay:
the IN stream for the commands that read it, the sink's answers for TO_BYTES. -/

/-- The same end of a body, with other inputs in the state it reached. -/
def BodyResult.present (r : BodyResult) (inp : InStream) (refused : List Nat) : BodyResult :=
  match r with
  | .finished t => .finished (t.present inp refused)
  | .aborted e off t => .aborted e off (t.present inp refused)

theorem endCommand_present (w : Word) (s : State) (r : BodyResult) (inp : InStream) (refused : List Nat) :
    endCommand w (s.present inp refused) (r.present inp refused) = (endCommand w s r).present inp refused := by
  cases r <;> rfl

theorem replaceStore_present (s : State) (S : List Section) (f : Block → Block) (inp : InStream) (refused : List Nat) :
    replaceStore (s.present inp refused) S f = (replaceStore s S f).present inp refused := by
  by_cases hcap : total S ≤ s.capacity
  · rw [replaceStore_fits hcap, replaceStore_fits (s := s.present inp refused) hcap]
    rfl
  · have hover : total S > s.capacity := Nat.lt_of_not_le hcap
    rw [replaceStore_overflows hover, replaceStore_overflows (s := s.present inp refused) hover]
    rfl

/-- ReadInput sees the IN stream only, so another sink reaches the rest of the body alone. -/
theorem readInput_present {rest : List Byte → State → BodyResult} {refused : List Nat} (s : State)
    (hrest : ∀ d (u : State), rest d (u.present s.inp refused) = (rest d u).present s.inp refused) :
    readInput (s.present s.inp refused) rest = (readInput s rest).present s.inp refused := by
  cases hf : s.inp.fails
  · rw [readInput_ok hf, readInput_ok (s := s.present s.inp refused) hf]
    exact hrest s.inp.bytes (s.withBlk (s.blk.countInput s.inp.bytes.length))
  · rw [readInput_fails hf, readInput_fails (s := s.present s.inp refused) hf]
    rfl

/-- OutWrite sees the sink's answers only. -/
theorem outWriteAll_present (beats : List Beat) (inp : InStream) : ∀ (k : Nat) (s : State),
    outWriteAll k beats (s.present inp s.sinkRefuses) = (outWriteAll k beats s).present inp s.sinkRefuses := by
  induction beats with
  | nil => intro k s; rfl
  | cons b rest ih =>
    intro k s
    have hsink : (s.present inp s.sinkRefuses).sinkOk k = s.sinkOk k := rfl
    rw [outWriteAll, outWriteAll, hsink]
    split
    · exact ih (k + 1) (s.pushBeat b)
    · rfl

theorem bodyAppend_present (type : SectionType) (s : State) (refused : List Nat) :
    bodyAppend type (s.present s.inp refused) = (bodyAppend type s).present s.inp refused := by
  cases hname : s.blk.nameSet
  · rw [bodyAppend_unnamed type hname, bodyAppend_unnamed (s := s.present s.inp refused) type hname]
    rfl
  · rw [bodyAppend, bodyAppend, if_neg (by simp [hname]), if_neg (by simp [hname])]
    refine readInput_present s fun d u => ?_
    dsimp only [State.present_blk]
    split
    · rfl
    · exact replaceStore_present ..

theorem bodyFromBinary_present (x : Bool) (s : State) (refused : List Nat) :
    bodyFromBinary x (s.present s.inp refused) = (bodyFromBinary x s).present s.inp refused := by
  unfold bodyFromBinary
  dsimp only [State.present_blk]
  split
  · rfl
  · exact readInput_present s fun d u => replaceStore_present ..

theorem bodyDecode_present (s : State) (refused : List Nat) :
    bodyDecode (s.present s.inp refused) = (bodyDecode s).present s.inp refused := by
  refine readInput_present s fun d u => ?_
  split
  · rfl
  · exact replaceStore_present ..

theorem bodyChecksum_present (s : State) (refused : List Nat) :
    bodyChecksum (s.present s.inp refused) = (bodyChecksum s).present s.inp refused :=
  readInput_present s fun _ _ => rfl

theorem bodySetName_present (s : State) (inp : InStream) (refused : List Nat) :
    bodySetName (s.present inp refused) = (bodySetName s).present inp refused := by
  unfold bodySetName
  dsimp only [State.present_blk]
  split <;> rfl

theorem bodyVerify_present (s : State) (inp : InStream) (refused : List Nat) :
    bodyVerify (s.present inp refused) = (bodyVerify s).present inp refused := by
  unfold bodyVerify
  dsimp only [State.present_blk]
  split <;> rfl

/-- The commands with no input (R52, R84). -/
def IgnoresInput (i : Instr) : Prop := i ∈ [Instr.setName, .clear, .toBytes, .verify, .clrErr]

/-- No body sees more of the inputs than its command reads. -/
theorem bodyOf_present {i : Instr} {s : State} {inp : InStream} {refused : List Nat} (hinp : inp = s.inp ∨ IgnoresInput i)
    (hsink : refused = s.sinkRefuses ∨ i ≠ .toBytes) :
    bodyOf i (s.present inp refused) = (bodyOf i s).present inp refused := by
  have reads (hi : ¬ IgnoresInput i) : inp = s.inp := hinp.resolve_right hi
  cases i with
  | setName => exact bodySetName_present ..
  | clear => rfl
  | appendData => rw [reads (by simp [IgnoresInput])]; exact bodyAppend_present ..
  | appendComment => rw [reads (by simp [IgnoresInput])]; exact bodyAppend_present ..
  | appendEnd => rw [reads (by simp [IgnoresInput])]; exact bodyAppend_present ..
  | appendExec => rw [reads (by simp [IgnoresInput])]; exact bodyAppend_present ..
  | fromBinary => rw [reads (by simp [IgnoresInput])]; exact bodyFromBinary_present ..
  | fromBinaryX => rw [reads (by simp [IgnoresInput])]; exact bodyFromBinary_present ..
  | toBytes => rw [hsink.resolve_right (by simp)]; exact outWriteAll_present ..
  | decode => rw [reads (by simp [IgnoresInput])]; exact bodyDecode_present ..
  | verify => exact bodyVerify_present ..
  | checksum => rw [reads (by simp [IgnoresInput])]; exact bodyChecksum_present ..
  | clrErr => rfl

/-- The frame looks at the block alone, so the inputs matter only as far as they do to the body. -/
theorem exec_present {i : Instr} {s t : State} {inp : InStream} {refused : List Nat} (hinp : inp = s.inp ∨ IgnoresInput i)
    (hsink : refused = s.sinkRefuses ∨ i ≠ .toBytes) (h : exec i s = .next t) :
    exec i (s.present inp refused) = .next (t.present inp refused) := by
  rcases exec_cases h with ⟨rfl, hbusy | ⟨herr, hi⟩⟩ | ⟨hbusy, hgate, rfl⟩
  · exact exec_busy (s := t.present inp refused) hbusy i
  · exact exec_gated (s := t.present inp refused) herr hi
  · have hbody := bodyOf_present (s := s.withBlk s.blk.start) hinp hsink
    rw [exec_runs (s := s.present inp refused) hbusy hgate, ← endCommand_present, ← hbody]
    rfl

/-- Settles O34. -/
theorem inputsReachOnlyTheCommandsThatReadThem : Obligations.InputsReachOnlyTheCommandsThatReadThem := by
  intro s i inp refused
  obtain ⟨t, ht⟩ := exec_next i s
  have hkept := exec_sameOperands ht
  refine ⟨fun hi => ⟨t, _, ht, exec_present (.inr hi) (.inl rfl) ht, ?_⟩, fun hi => ⟨t, _, ht, exec_present (.inl rfl) (.inr hi) ht, ?_⟩⟩
  · rw [← hkept.sinkRefuses]; rfl
  · rw [← hkept.inp]; rfl

end Sys2Proof.Machine
end

section
/-! The blocks of the audio modulator (O55, O57, O58): their order, a sink that may fail, the square blocks of a store, and the number of
samples. -/

namespace Sys2Proof.Machine.Downstream

/-! ### The emission of a longer beat stream (R91, R93, R95) -/

theorem byteEncoded_append (beats later : List Beat) : byteEncoded (beats ++ later) = byteEncoded beats ++ byteEncoded later :=
  List.flatMap_append

/-- The preamble stands once, before everything. -/
theorem polyEncoded_append (reps : Nat) (beats later : List Beat) :
    polyEncoded reps (beats ++ later) = polyEncoded reps beats ++ polyEncoded 0 later := by
  simp [polyEncoded]

theorem polyEncoded_eq_preamble_append (reps : Nat) (beats : List Beat) :
    polyEncoded reps beats = List.replicate reps Square.lowThenHigh ++ polyEncoded 0 beats := by
  simp [polyEncoded]

theorem Modulator.blocks_of_byte {m : Modulator} (h : m.variant = .byte) (beats : List Beat) :
    m.blocks beats = (byteEncoded beats).map m.toneSamples := by
  rw [Modulator.blocks, h]

theorem Modulator.blocks_of_poly {m : Modulator} (h : m.variant = .poly) (beats : List Beat) :
    m.blocks beats = (polyEncoded m.polyPreambleReps beats).map (squareSamples m.polyAmplitude) := by
  rw [Modulator.blocks, h]

theorem Modulator.blocks_prefix (m : Modulator) (beats later : List Beat) : m.blocks beats <+: m.blocks (beats ++ later) := by
  cases hv : m.variant with
  | byte => rw [blocks_of_byte hv, blocks_of_byte hv, byteEncoded_append, List.map_append]; exact List.prefix_append ..
  | poly => rw [blocks_of_poly hv, blocks_of_poly hv, polyEncoded_append, List.map_append]; exact List.prefix_append ..

/-- Settles O58, by the two ways a write in order can end. -/
theorem modulatorStopsAtAFailedWrite : Obligations.ModulatorStopsAtAFailedWrite :=
  fun m beats later _ => ⟨m.blocks_prefix beats later, writeInOrder_all _, fun _ => writeInOrder_stops _⟩

/-! ### The squares of a store (R93) -/

/-- A section's first beat has sos, and no other (R31). -/
theorem sectionBeats_sos_first {sec : Section} (h : sec.wf = true) :
    ∃ b l, sectionBeats sec = b :: l ∧ b.sos = true ∧ ∀ x ∈ l, x.sos = false := by
  obtain ⟨b, w, hwire⟩ := List.exists_cons_of_ne_nil (Section.wire_ne_nil h)
  rw [sectionBeats_eq_mapIdx, hwire, List.mapIdx_cons]
  refine ⟨_, _, rfl, rfl, fun x hx => ?_⟩
  obtain ⟨i, hi, rfl⟩ := List.mem_mapIdx.mp hx
  rfl

theorem polyEncoded_of_no_sos {beats : List Beat} (h : ∀ b ∈ beats, b.sos = false) :
    polyEncoded 0 beats = (beats.map Beat.data).flatMap byteSquares := by
  rw [polyEncoded, List.flatMap_map]
  exact List.flatMap_congr fun b hb => by simp [h b hb]

/-- One burst, before the blocks of the section's bytes. -/
theorem polyEncoded_sectionBeats {sec : Section} (h : sec.wf = true) :
    polyEncoded 0 (sectionBeats sec) = List.replicate burstReps .highThenLow ++ sec.wire.flatMap byteSquares := by
  obtain ⟨b, l, hbeats, hb, hl⟩ := sectionBeats_sos_first h
  have hfirst : polyEncoded 0 [b] = List.replicate burstReps .highThenLow ++ byteSquares b.data := by simp [polyEncoded, hb]
  rw [← sectionBeats_data, hbeats, ← List.singleton_append, polyEncoded_append, hfirst, polyEncoded_of_no_sos hl, List.map_append,
    List.flatMap_append, List.append_assoc]
  simp

theorem polyEncoded_storeBeats (reps : Nat) {store : List Section} (h : ∀ sec ∈ store, sec.wf = true) :
    polyEncoded reps (storeBeats store) = List.replicate reps .lowThenHigh ++
      store.flatMap fun sec => List.replicate burstReps .highThenLow ++ sec.wire.flatMap byteSquares := by
  rw [polyEncoded_eq_preamble_append]
  congr 1
  induction store with
  | nil => rfl
  | cons sec store ih =>
    obtain ⟨hsec, hstore⟩ := List.forall_mem_cons.mp h
    have hcons : storeBeats (sec :: store) = sectionBeats sec ++ storeBeats store := rfl
    rw [hcons, polyEncoded_append, polyEncoded_sectionBeats hsec, ih hstore, List.flatMap_cons]

theorem squareSamples_bitSquare (a : Config.Amplitude) (bit : Bool) :
    squareSamples a (bitSquare bit) = if bit then squareSamples a .lowThenHigh else squareSamples a .highThenLow := by
  cases bit <;> rfl

/-- Settles O57: the squares of the store, each as its samples. -/
theorem polyEncodedBlocksOfAStore : Obligations.PolyEncodedBlocksOfAStore := by
  intro m store hwf hv
  refine ⟨highSample m.polyAmplitude, lowSample m.polyAmplitude, highSample_toInt _, ?_, ?_⟩
  · rw [lowSample_toInt, highSample_toInt]
  · rw [Modulator.blocks_of_poly hv, polyEncoded_storeBeats _ hwf]
    simp only [List.map_append, List.map_replicate, List.map_flatMap, byteSquares, List.map_map, Function.comp_def,
      squareSamples_bitSquare]
    rfl

/-! ### The number of samples (R94) -/

theorem flatMap_byteSquares_length (w : List Byte) : (w.flatMap byteSquares).length = 8 * w.length := by
  simp [List.length_flatMap, byteSquares_length, Nat.mul_comm]

theorem bursts_length (store : List Section) :
    (store.flatMap fun sec => List.replicate burstReps .highThenLow ++ sec.wire.flatMap byteSquares).length =
      burstReps * store.length + 8 * total store := by
  induction store with
  | nil => rfl
  | cons sec store ih =>
    rw [List.flatMap_cons, List.length_append, List.length_append, List.length_replicate, flatMap_byteSquares_length, ih,
      List.length_cons, total_cons]
    ring

/-- The preamble, a burst a section, 8 squares a byte. -/
theorem polyEncoded_storeBeats_length (reps : Nat) {store : List Section} (h : ∀ sec ∈ store, sec.wf = true) :
    (polyEncoded reps (storeBeats store)).length = reps + burstReps * store.length + 8 * total store := by
  rw [polyEncoded_storeBeats reps h, List.length_append, List.length_replicate, bursts_length, Nat.add_assoc]

/-- Blocks of one length make up a waveform of that many samples a block. -/
theorem Modulator.waveform_samples_length {m : Modulator} {beats : List Beat} {n : Nat} (h : ∀ l ∈ m.blocks beats, l.length = n) :
    (m.waveform beats).samples.length = (m.blocks beats).length * n := by
  have hlengths : ∀ k ∈ (m.blocks beats).map List.length, k = n := by
    intro k hk
    obtain ⟨l, hl, rfl⟩ := List.mem_map.mp hk
    exact h l hl
  rw [Modulator.waveform, List.length_flatten, List.sum_eq_card_nsmul _ _ hlengths, List.length_map, smul_eq_mul]

theorem Modulator.byte_samples_length {m : Modulator} (hv : m.variant = .byte) (store : List Section) :
    (m.waveform (storeBeats store)).samples.length = 1760 * total store := by
  have hblock : ∀ l ∈ m.blocks (storeBeats store), l.length = 160 := by
    rw [blocks_of_byte hv]
    exact List.forall_mem_map.mpr fun q _ => toneSamples_length m q
  rw [waveform_samples_length hblock, blocks_of_byte hv, List.length_map, byteEncoded_length, storeBeats_length]
  ring

theorem Modulator.poly_samples_length {m : Modulator} (hv : m.variant = .poly) {store : List Section}
    (h : ∀ sec ∈ store, sec.wf = true) :
    (m.waveform (storeBeats store)).samples.length = 20 * m.polyPreambleReps + 24000 * store.length + 160 * total store := by
  have hblock : ∀ l ∈ m.blocks (storeBeats store), l.length = 20 := by
    rw [blocks_of_poly hv]
    exact List.forall_mem_map.mpr fun q _ => squareSamples_length m.polyAmplitude q
  rw [waveform_samples_length hblock, blocks_of_poly hv, List.length_map, polyEncoded_storeBeats_length _ h]
  ring

/-- Settles O55: blocks of one length, counted along the store, and the durations by arithmetic. -/
theorem modulatorSampleCounts : Obligations.ModulatorSampleCounts := by
  intro m store hwf
  refine ⟨fun hv => ⟨m.byte_samples_length hv store, fun hrate => ⟨?duration, by norm_num⟩⟩, fun hv => m.poly_samples_length hv hwf,
    ?delay⟩
  case duration =>
    have hformat : (m.waveform (storeBeats store)).format.sampleRate = 48000 := hrate
    rw [Waveform.duration, m.byte_samples_length hv store, hformat]
    push_cast
    ring
  case delay => exact fun t hbaud => by rw [byteDelay, hbaud]; rfl

end Sys2Proof.Machine.Downstream
end

section
/-! The tones of the audio modulator (O56): the exact sine values, their rounding, and the blocks of a byte. -/

namespace Sys2Proof.Machine.Downstream

/-- The exact value that sample `n` of a tone of the given number of cycles rounds. -/
noncomputable def exactSample (p : Config.ModulatorParams) (cycles n : Nat) : Real :=
  ((p.toneAmplitude : Nat) : Real) * Real.sin (2 * Real.pi * ((cycles : Real) * (n : Real)) / 160 + p.tonePhase)

theorem Modulator.toneSamples_getElem? (m : Modulator) (t : Tone) {n : Nat} (hn : n < 160) :
    (m.toneSamples t)[n]? = some (m.rounding (exactSample m.toModulatorParams t.cycles n)) := by
  rw [toneSamples, List.getElem?_ofFn, dif_pos hn, m.sines t ⟨n, hn⟩]
  simp [exactSample]

theorem abs_exactSample_le (p : Config.ModulatorParams) (cycles n : Nat) :
    |exactSample p cycles n| ≤ ((p.toneAmplitude : Nat) : Real) := by
  rw [exactSample, abs_mul, Nat.abs_cast]
  exact mul_le_of_le_one_right (Nat.cast_nonneg _) (Real.abs_sin_le_one _)

/-- The exact values lie where the rounding is one. -/
theorem Modulator.abs_rounding_sub_lt (m : Modulator) (cycles n : Nat) :
    |((m.rounding (exactSample m.toModulatorParams cycles n)).toInt : Real) - exactSample m.toModulatorParams cycles n| < 1 := by
  have hamp : ((m.toneAmplitude : Nat) : Real) ≤ 32767 := by exact_mod_cast Nat.le_of_lt_succ m.toneAmplitude.isLt
  exact m.rounds _ ((abs_exactSample_le ..).trans hamp)

/-- An integer less than 1 from a value within the amplitude is within it itself. -/
theorem Modulator.abs_rounding_le (m : Modulator) (cycles n : Nat) :
    |(m.rounding (exactSample m.toModulatorParams cycles n)).toInt| ≤ ((m.toneAmplitude : Nat) : Int) := by
  have hexact := abs_exactSample_le m.toModulatorParams cycles n
  have hround := m.abs_rounding_sub_lt cycles n
  generalize exactSample m.toModulatorParams cycles n = x at hexact hround ⊢
  have hlt : |((m.rounding x).toInt : Real)| < ((m.toneAmplitude : Nat) : Real) + 1 := by
    have := abs_sub_abs_le_abs_sub ((m.rounding x).toInt : Real) x
    linarith
  exact Int.lt_add_one_iff.mp (by exact_mod_cast hlt)

/-- Twice the cycles are the same sine read at twice the speed, a whole number of turns apart. -/
theorem exactSample_eight (p : Config.ModulatorParams) (n : Nat) : exactSample p 8 n = exactSample p 4 (2 * n % 160) := by
  have hn : (2 * n : Real) = (2 * n % 160 : Nat) + 160 * (2 * n / 160 : Nat) := by exact_mod_cast (Nat.mod_add_div (2 * n) 160).symm
  have hangle : 2 * Real.pi * (((8 : Nat) : Real) * (n : Real)) / 160 + p.tonePhase =
      2 * Real.pi * (((4 : Nat) : Real) * ((2 * n % 160 : Nat) : Real)) / 160 + p.tonePhase +
        ((4 * (2 * n / 160) : Nat) : Real) * (2 * Real.pi) := by
    push_cast at hn ⊢
    linear_combination (Real.pi / 20) * hn
  rw [exactSample, hangle, Real.sin_add_nat_mul_two_pi, ← exactSample]

theorem Modulator.toneSamples_tone1 (m : Modulator) {n : Nat} (hn : n < 160) :
    (m.toneSamples .tone1)[n]? = (m.toneSamples .tone0)[2 * n % 160]? := by
  rw [m.toneSamples_getElem? _ hn, m.toneSamples_getElem? _ (Nat.mod_lt _ (by omega))]
  exact congrArg (some ∘ m.rounding) (exactSample_eight ..)

/-- A byte's blocks: the start marker, the bits, the stop markers. -/
theorem Modulator.byteTones_samples (m : Modulator) (b : Byte) :
    (byteTones b).flatMap m.toneSamples = m.toneSamples .tone0 ++
      (List.range 8).flatMap (fun i => m.toneSamples (if b.getLsbD i then .tone1 else .tone0)) ++
      m.toneSamples .tone1 ++ m.toneSamples .tone1 := by
  simp [byteTones, bitTone, List.flatMap_map]

theorem Modulator.byte_samples {m : Modulator} (hv : m.variant = .byte) (beats : List Beat) :
    (m.waveform beats).samples = beats.flatMap fun b => (byteTones b.data).flatMap m.toneSamples := by
  rw [Modulator.waveform, blocks_of_byte hv, ← List.flatMap_def, byteEncoded, List.flatMap_assoc]

/-- Settles O56: what holds of the rounded exact values, and a byte's blocks for each beat. -/
theorem toneBlocksAreSampledSines : Obligations.ToneBlocksAreSampledSines := by
  intro m t n beats value
  have hvalue : value = exactSample m.toModulatorParams t.cycles n := by cases t <;> simp [value, exactSample, Tone.cycles]
  rw [hvalue]
  refine ⟨m.toneSamples_getElem? t n.isLt, m.abs_rounding_sub_lt .., m.abs_rounding_le .., m.toneSamples_tone1 n.isLt, fun hv => ?_⟩
  simp only [← m.byteTones_samples, ← m.byte_samples hv]
  rfl

end Sys2Proof.Machine.Downstream
end

section
/-! The paced transmitter (O59, O60): its delays are all one, and its progress reports stand at the section ends of the beats. -/

namespace Sys2Proof.Machine.Downstream

/-! ### Delays (R96, R122) -/

theorem byteDelay_eq (t : Config.Transmitter) : byteDelay t = 11 / (t.baud : Rat) := by norm_num [byteDelay]

theorem pacedWrites_delay {t : Config.Transmitter} {T : Nat} {beats : List Beat} {w : PortWrite} (h : w ∈ pacedWrites t T beats) :
    w.delay = byteDelay t := by
  obtain ⟨j, hj, rfl⟩ := List.mem_mapIdx.mp h
  rfl

/-- The delays are all the same, so they add up to a multiple of it. -/
theorem pacedTime_pacedWrites (t : Config.Transmitter) (T : Nat) (beats : List Beat) :
    pacedTime (pacedWrites t T beats) = (beats.length : Rat) * byteDelay t := by
  have hdelays : ∀ d ∈ (pacedWrites t T beats).map PortWrite.delay, d = byteDelay t := by
    intro d hd
    obtain ⟨w, hw, rfl⟩ := List.mem_map.mp hd
    exact pacedWrites_delay hw
  rw [pacedTime, List.sum_eq_card_nsmul _ _ hdelays, List.length_map, pacedWrites_length, nsmul_eq_mul]

/-! ### Progress reports and section ends (R97) -/

/-- The numbers of beats up to and with each eos beat, `sent` beats having gone before. -/
def endCounts (sent : Nat) (beats : List Beat) : List Nat :=
  ((beats.zipIdx (sent + 1)).filter fun c => c.1.eos).map Prod.snd

theorem endCounts_append (sent : Nat) (a b : List Beat) :
    endCounts sent (a ++ b) = endCounts sent a ++ endCounts (sent + a.length) b := by
  simp [endCounts, List.zipIdx_append, Nat.add_right_comm]

theorem endCounts_length (sent : Nat) (beats : List Beat) :
    (endCounts sent beats).length = (beats.filter fun b => b.eos).length := by
  conv_rhs => rw [← List.zipIdx_map_fst (sent + 1) beats, List.filter_map, List.length_map]
  rw [endCounts, List.length_map]
  rfl

/-- A report is made at each eos beat, for the bytes sent by then. -/
theorem progressReports_pacedWrites (t : Config.Transmitter) (T : Nat) (beats : List Beat) :
    progressReports (pacedWrites t T beats) = (endCounts 0 beats).map (progressAt t T) := by
  induction beats using List.reverseRecOn with
  | nil => rfl
  | append_singleton beats b ih =>
    have hlast : pacedWrites t T (beats ++ [b]) = pacedWrites t T beats ++ [portWrite t T beats.length b] := by
      simp [pacedWrites, List.mapIdx_append]
    rw [hlast, endCounts_append, List.map_append, ← ih, progressReports, List.filterMap_append]
    cases hb : b.eos <;> simp [progressReports, portWrite, endCounts, hb]

theorem endCounts_of_no_eos (sent : Nat) {beats : List Beat} (h : ∀ b ∈ beats, b.eos = false) : endCounts sent beats = [] := by
  rw [← List.length_eq_zero_iff, endCounts_length, List.length_eq_zero_iff, List.filter_eq_nil_iff]
  exact fun b hb => by simp [h b hb]

/-- A section ends once, at its last beat (R31). -/
theorem endCounts_sectionBeats (sent : Nat) {sec : Section} (h : sec.wf = true) :
    endCounts sent (sectionBeats sec) = [sent + sec.wire.length] := by
  obtain ⟨l, b, hbeats, hb, hl⟩ := sectionBeats_eos_last sec h
  have hlen : sec.wire.length = l.length + 1 := by rw [← sectionBeats_length, hbeats]; simp
  rw [hbeats, endCounts_append, endCounts_of_no_eos _ hl, hlen]
  simp [endCounts, hb, Nat.add_assoc]

/-- The beats of a store end a section at each total of its first sections. -/
theorem endCounts_storeBeats {store : List Section} (h : ∀ sec ∈ store, sec.wf = true) (sent : Nat) :
    endCounts sent (storeBeats store) = (List.range store.length).map fun k => sent + total (store.take (k + 1)) := by
  induction store generalizing sent with
  | nil => rfl
  | cons sec store ih =>
    obtain ⟨hsec, hstore⟩ := List.forall_mem_cons.mp h
    have hcons : storeBeats (sec :: store) = sectionBeats sec ++ storeBeats store := rfl
    rw [hcons, endCounts_append, endCounts_sectionBeats sent hsec, sectionBeats_length, ih hstore]
    simp [List.range_succ_eq_map, Nat.add_assoc]

theorem progressReports_storeBeats (t : Config.Transmitter) (T : Nat) {store : List Section} (h : ∀ sec ∈ store, sec.wf = true) :
    progressReports (pacedWrites t T (storeBeats store)) =
      (List.range store.length).map fun k => progressAt t T (total (store.take (k + 1))) := by
  rw [progressReports_pacedWrites, endCounts_storeBeats h, List.map_map]
  simp [Function.comp_def]

/-- With all bytes sent, the report says 100 percent and nothing remaining. -/
theorem progressAt_all (t : Config.Transmitter) {T : Nat} (h : 0 < T) : progressAt t T T = ⟨100, 0⟩ := by
  have hT : (T : Rat) ≠ 0 := by exact_mod_cast h.ne'
  simp [progressAt, mul_div_cancel_right₀ _ hT]

theorem total_pos {store : List Section} (h : ∀ sec ∈ store, sec.wf = true) (hne : store ≠ []) : 0 < total store := by
  obtain ⟨sec, hsec⟩ := List.exists_mem_of_ne_nil store hne
  have hwire := Section.wire_pos (h sec hsec)
  have hle := wire_length_le_total hsec
  omega

/-- The last report comes after all sections. -/
theorem progressReports_getLast? (t : Config.Transmitter) {store : List Section} (h : ∀ sec ∈ store, sec.wf = true)
    (hne : store ≠ []) : (progressReports (pacedWrites t (total store) (storeBeats store))).getLast? = some ⟨100, 0⟩ := by
  have hlen : store.length - 1 + 1 = store.length := Nat.sub_add_cancel (List.length_pos_iff.mpr hne)
  rw [progressReports_storeBeats t _ h, ← hlen, List.range_succ, List.map_append, List.map_singleton, List.getLast?_concat, hlen,
    List.take_length, progressAt_all t (total_pos h hne)]

/-- Settles O59: each claim is the lemma of its name, with the delay written out. -/
theorem pacedTransmissionOfAStore : Obligations.PacedTransmissionOfAStore := by
  intro t store hwf
  refine ⟨rfl, ?data, ?delay, ?time, ?reports, progressReports_getLast? t hwf⟩
  case data => rw [pacedWrites_data, storeBeats_data]
  case delay =>
    intro w hw
    rw [pacedWrites_delay hw, byteDelay_eq]
    exact ⟨rfl, fun hbaud => by rw [hbaud]; rfl⟩
  case time => rw [pacedTime_pacedWrites, storeBeats_length, byteDelay_eq]; ring
  case reports => simp only [progressReports_storeBeats t _ hwf, progressAt, byteDelay_eq]

/-! ### A port that may fail (R98) -/

theorem progressReports_length (t : Config.Transmitter) (T : Nat) (beats : List Beat) :
    (progressReports (pacedWrites t T beats)).length = (beats.filter fun b => b.eos).length := by
  rw [progressReports_pacedWrites, List.length_map, endCounts_length]

/-- If port write `k` is the first to fail, the writes are those of the first `k` beats. -/
theorem transmit_stops (t : Config.Transmitter) (T : Nat) {beats : List Beat} {ok : Nat → Bool} {k : Nat} (hk : k < beats.length)
    (hf : ok k = false) (hb : ∀ j < k, ok j = true) :
    transmit t T ok beats = { written := pacedWrites t T (beats.take k), error := some .portWriteFailure } := by
  rw [transmit, writeInOrder_stops _ (by rwa [pacedWrites_length]) hf hb, pacedWrites_take]

/-- Settles O60, by the two ways a write in order can end. -/
theorem transmissionStopsAtAFailedWrite : Obligations.TransmissionStopsAtAFailedWrite := by
  refine fun t T beats ok => ⟨fun hall => writeInOrder_all _ (by rwa [pacedWrites_length]), fun k hk hf hb => ?_⟩
  rw [transmit_stops t T hk hf hb]
  exact ⟨rfl, pacedWrites_data .., progressReports_length ..⟩

end Sys2Proof.Machine.Downstream
end

section
/-! Errors (O16, O18, O20): what a latched error lets the host do, what a failed command leaves, and which errors a command raises. -/

namespace Sys2Proof.Machine

/-! ### A failed command (R99, R103) -/

/-- On a ready block a body reaches its end with ERR = 0: only `raise` latches an error (R84, R103). -/
theorem bodyOf_started_err {s : State} (hr : s.Ready) (i : Instr) : (bodyOf i (s.withBlk s.blk.start)).reached.blk.err = false := by
  by_cases hi : i = .clrErr
  · subst hi
    rfl
  · exact (bodyOf_sameStatus hi _).err.trans hr.2

/-- A command that leaves ERR = 1 behind on a ready block has ended by `raise`. -/
theorem exec_failed {s t : State} {i : Instr} (hr : s.Ready) (h : exec i s = .next t) (herr : t.blk.err = true) :
    ∃ e off u, bodyOf i (s.withBlk s.blk.start) = .aborted e off u ∧ t = raiseError (encode i) s e off u := by
  have hclear := bodyOf_started_err hr i
  rw [exec_ready hr] at h
  cases h
  cases hbody : bodyOf i (s.withBlk s.blk.start) with
  | aborted e off u => exact ⟨e, off, u, rfl, rfl⟩
  | finished u =>
    rw [hbody] at hclear herr
    exact absurd (hclear.symm.trans herr) (by decide)

/-- Settles O18: the command ended by `raise`, which writes the error record over the snapshot and keeps the accepted beats. -/
theorem failedCommandRestoresTheSnapshot : Obligations.FailedCommandRestoresTheSnapshot := by
  intro s t i hr h herr
  obtain ⟨beats, hout, -⟩ := exec_out h
  obtain ⟨e, off, u, -, rfl⟩ := exec_failed hr h herr
  refine ⟨e, off, beats, ?_⟩
  rw [← hout]
  exact raiseError_eq_failedWith ..

/-- The codes of R99 tell the errors apart. -/
theorem CmdError.code_injective : Function.Injective CmdError.code := by
  intro e e' h
  revert h
  cases e <;> cases e' <;> decide

/-- Settles O20: the code is that of the one error the body ended with, and its command is in that error's row of R99. -/
theorem eachCommandRaisesOnlyItsErrors : Obligations.EachCommandRaisesOnlyItsErrors := by
  intro s t i hr h herr
  obtain ⟨e, off, u, hbody, rfl⟩ := exec_failed hr h herr
  have raised (e' : CmdError) (hcode : e.code = e'.code) : e'.raisedBy i := CmdError.code_injective hcode ▸ bodyOf_errors hbody
  exact ⟨raised .nameTooLong, raised .truncatedSection, raised .sinkWriteFailure, raised .sourceReadFailure, raised .badFraming,
    raised .nameNotSet, raised .payloadTooLong, raised .illegalCommand, raised .badSelect, raised .storeOverflow, e.code_range⟩

/-! ### A latched error (R104) -/

/-- With an error latched a CMD write of any word but CLR_ERR's only takes the access and presents its inputs. -/
theorem step_cmd_gated {s : State} {w : Word} {inp : InStream} {refused : List Nat} {rest : List HostAccess}
    (h : s.accesses = .write 0 32 w inp refused :: rest) (herr : s.blk.err = true) (hw : w ≠ clrErrWord) :
    step s = .next { s with accesses := rest, inp := inp, sinkRefuses := refused } :=
  (step_cmd h).trans (issue_gated (by exact herr) hw)

theorem step_rst {s : State} {rest : List HostAccess} (h : s.accesses = .rst :: rest) : step s = .next (resetBlock s.dropAccess) := by
  simp only [step, h, performAccess]

theorem WriteFrame.sameStatus {s t : State} (h : WriteFrame s.blk t.blk) : SameStatus s t :=
  ⟨h.busy, h.done, h.err, h.errCode, h.errOp, h.errOffset⟩

/-- A latched error, and the status flags with it, outlast every access but RST and CLR_ERR. -/
theorem step_sameStatus_of_latched {s t : State} {a : HostAccess} {rest : List HostAccess} (herr : s.blk.err = true)
    (ha : s.accesses = a :: rest) (hrst : a ≠ .rst) (hclr : ∀ inp refused, a ≠ .write 0 32 clrErrWord inp refused)
    (h : step s = .next t) : SameStatus s t := by
  have dropped (w : Word) (inp : InStream) (refused : List Nat) (rest' : List HostAccess)
      (hcmd : s.accesses = .write 0 32 w inp refused :: rest') : SameStatus s t := by
    have hw : w ≠ clrErrWord := by
      rintro rfl
      exact hclr inp refused (List.cons.inj (ha.symm.trans hcmd)).1
    rw [step_cmd_gated hcmd herr hw] at h
    cases h
    exact ⟨rfl, rfl, rfl, rfl, rfl, rfl⟩
  cases step_cases h with
  | idle ha' _ => exact absurd (ha.symm.trans ha') (List.cons_ne_nil _ _)
  | rst rest' ha' _ => exact absurd (List.cons.inj (ha.symm.trans ha')).1 hrst
  | read off rest' _ _ _ e => subst e; exact ⟨rfl, rfl, rfl, rfl, rfl, rfl⟩
  | write off w inp refused rest' _ _ _ _ e => subst e; exact (regWrite_frame off w s.blk).sameStatus
  | command i w inp refused rest' hcmd _ _ => exact dropped w inp refused rest' hcmd
  | illegal w inp refused rest' hcmd _ _ _ => exact dropped w inp refused rest' hcmd

/-- Settles O16: no access but RST and CLR_ERR touches the record, and the gate stands at CMD alone, before no other register. -/
theorem latchedErrorStaysUntilClrErrOrReset : Obligations.LatchedErrorStaysUntilClrErrOrReset := by
  intro s hbusy herr
  refine ⟨?_, fun w inp refused rest h hw => step_cmd_gated h herr hw, ?_, ?_, ?_, ?_, ?_, ?_, ?_, exec_clrErr hbusy⟩
  · intro a rest t ha hrst hclr h
    have hkept := step_sameStatus_of_latched herr ha hrst hclr h
    exact ⟨hkept.err.trans herr, hkept.errCode, hkept.errOp, hkept.errOffset⟩
  · intro w inp refused rest h
    exact ⟨_, step_write_reg .nameLen h (by decide) hbusy, rfl⟩
  · intro w inp refused rest h
    exact ⟨_, step_write_reg .nameBuf0 h (by decide) hbusy, Reg.read_write_word (r := .nameBuf0) (by decide) w s.blk⟩
  · intro w inp refused rest h
    exact ⟨_, step_write_reg .nameBuf1 h (by decide) hbusy, Reg.read_write_word (r := .nameBuf1) (by decide) w s.blk⟩
  · intro w inp refused rest h
    exact ⟨_, step_write_reg .addr h (by decide) hbusy, rfl⟩
  · intro w inp refused rest h
    exact ⟨_, step_write_reg .exec h (by decide) hbusy, rfl⟩
  · intro w inp refused rest h
    exact ⟨_, step_write_reg .secSel h (by decide) hbusy, rfl⟩
  · intro rest h
    exact ⟨_, step_rst h, rfl⟩

end Sys2Proof.Machine
end

section
/-! Reset (O14, O52): what the registers read on the block RST leaves, and the invariant of the reset state. -/

namespace Sys2Proof.Machine

/-- Each register reads an element of the block that is 0 at reset, or, for the counts and the views, the empty store (R111). -/
theorem Reg.read_reset (r : Reg) : r.read Block.reset = 0 := by
  cases r <;> rfl

/-- A reserved offset reads 0 in every block, the others read a register (R17, R18). -/
theorem regRead_reset (off : Nat) : regRead off Block.reset = 0 := by
  unfold regRead
  split
  · exact Reg.read_reset _
  · rfl

/-- RST takes its access and replaces the block; the beats, the returned words and the inputs stay (R111; logs 1, 4). -/
theorem step_rst_block {s : State} {rest : List HostAccess} (h : s.accesses = .rst :: rest) :
    step s = .next { s with accesses := rest, blk := Block.reset } := by
  rw [step_rst h, resetBlock, State.withBlk, State.dropAccess, h, List.tail_cons]

/-- Settles O14: the block RST leaves is `Block.reset`, on which every offset reads 0. -/
theorem rstResetsEveryElementOfTheBlock : Obligations.RstResetsEveryElementOfTheBlock :=
  ⟨fun _ _ h => step_rst_block h, fun off _ _ => regRead_reset off, rfl⟩

/-- Settles O52: the store and the record of accepted beats are empty, no flag is set, and the capacity is the largest in range. -/
theorem resetStateMeetsInvariant : Obligations.ResetStateMeetsInvariant where
  idle := rfl
  sections := List.forall_mem_nil _
  capacityRange := by decide
  withinCapacity := Nat.zero_le _
  errorLatch := rfl
  nameUnset _ := rfl
  checksumLatch _ := rfl
  verify := rfl
  beats := List.forall_mem_nil _

end Sys2Proof.Machine
end
